-- ==== Sys2Proof/Word.lean ====
section
/-! DEFINITION. The word types of QRC-CORE: bytes, 32-bit register values and 64-bit command words. -/

namespace Sys2Proof

/-- An 8-bit value: a codeword, a payload byte, an element of GF(2^8) (00_scope.md R13). -/
abbrev Byte := BitVec 8

/-- A 32-bit register value, as REG_READ returns it (10_state.md R24). -/
abbrev Word := BitVec 32

/-- A 64-bit command word; bit 63 is the most significant (30_encoding.md R80). -/
abbrev CommandWord := BitVec 64

end Sys2Proof
end

