-- ==== Sys2Proof/Syntax.lean ====
section
/-! DEFINITION. The commands of QRC-CORE: one constructor per row of the opcode map (30_encoding.md R83), with the
operands of its format (R82) in the order of the assembler's syntax (R87). A value the device treats as bits is a bit
vector of its width; an address, index, length or number is a natural number, which WellFormed bounds by its field
(log 15). -/

namespace Sys2Proof

/-- A command. -/
inductive Instr
  /-- NOP (40_control.md R110) -/
  | nop
  /-- CFG_SET ecl, version (R112) -/
  | cfgSet (ecl : BitVec 2) (version : Nat)
  /-- CFG_MASK m (R113) -/
  | cfgMask (m : Byte)
  /-- REG_READ n (R114) -/
  | regRead (n : Nat)
  /-- CLR_STICKY (R115) -/
  | clrSticky
  /-- CW_WR v, a (R116) -/
  | cwWr (v : Byte) (a : Nat)
  /-- CW_RD a (R117) -/
  | cwRd (a : Nat)
  /-- PL_WR v, a (R118) -/
  | plWr (v : Byte) (a : Nat)
  /-- PL_RD a (R119) -/
  | plRd (a : Nat)
  /-- PL_SETLEN n (R120) -/
  | plSetlen (n : Nat)
  /-- BS_CLEAR (41_packer.md R130) -/
  | bsClear
  /-- BS_PUT width, value (R132) -/
  | bsPut (width : Nat) (value : Word)
  /-- BS_PUTBIT b (R133) -/
  | bsPutbit (b : Bool)
  /-- BS_LEN (R134) -/
  | bsLen
  /-- BS_GET i (R135) -/
  | bsGet (i : Nat)
  /-- BS_STORE dst, n (R136) -/
  | bsStore (dst : Nat) (n : Nat)
  /-- GF_MUL a, b (42_galois.md R153) -/
  | gfMul (a : Byte) (b : Byte)
  /-- GF_EXP i (R154) -/
  | gfExp (i : Nat)
  /-- GF_LOG a (R155) -/
  | gfLog (a : Byte)
  /-- RS_GEN n (43_reed_solomon.md R173) -/
  | rsGen (n : Nat)
  /-- GEN_RD k (R174) -/
  | genRd (k : Nat)
  /-- RS_ENC n, src, len, dst (R175) -/
  | rsEnc (n : Nat) (src : Nat) (len : Nat) (dst : Nat)
  /-- FMT_ENC d (44_format_bch.md R191) -/
  | fmtEnc (d : BitVec 5)
  /-- MASK_EVAL p, i, j (45_matrix.md R212) -/
  | maskEval (p : Nat) (i : Nat) (j : Nat)
  /-- MX_ALLOC (R201) -/
  | mxAlloc
  /-- MX_FINDER (R203) -/
  | mxFinder
  /-- MX_ALIGN (R205) -/
  | mxAlign
  /-- MX_TIMING (R207) -/
  | mxTiming
  /-- MX_FORMAT (R210) -/
  | mxFormat
  /-- MX_PLACE src, count (R215) -/
  | mxPlace (src : Nat) (count : Nat)
  /-- MX_READ r, c (R226) -/
  | mxRead (r : Nat) (c : Nat)
  /-- MX_ISDARK r, c (R227) -/
  | mxIsdark (r : Nat) (c : Nat)
  /-- MX_SIDE (R228) -/
  | mxSide
  /-- ASSEMBLE (46_assembly.md R245) -/
  | assemble
  /-- ENCODE (R246) -/
  | encode
  deriving DecidableEq, Repr

end Sys2Proof
end

