-- ==== Sys2Proof/WellFormed.lean ====
section
/-! DEFINITION. When a command's operands fit their fields and sub-fields (30_encoding.md R81, R82): what the assembler
refuses otherwise (R87 "It refuses an operand that does not fit its sub-field"). The operand checks a command makes
after decoding (BS_PUT's width ≤ 32, REG_READ's number ≤ 17) are part of its meaning, not of this (R84). -/

namespace Sys2Proof

/-- Every operand fits its field (R81, R82). -/
def Instr.wellFormed : Instr → Bool
  | .nop => true
  | .cfgSet _ version => decide (version < 2 ^ 8)
  | .cfgMask _ => true
  | .regRead n => decide (n < 2 ^ 8)
  | .clrSticky => true
  | .cwWr _ a => decide (a < 2 ^ 16)
  | .cwRd a => decide (a < 2 ^ 16)
  | .plWr _ a => decide (a < 2 ^ 16)
  | .plRd a => decide (a < 2 ^ 16)
  | .plSetlen n => decide (n < 2 ^ 16)
  | .bsClear => true
  | .bsPut width _ => decide (width < 2 ^ 8)
  | .bsPutbit _ => true
  | .bsLen => true
  | .bsGet i => decide (i < 2 ^ 32)
  | .bsStore dst n => decide (dst < 2 ^ 16) && decide (n < 2 ^ 16)
  | .gfMul _ _ => true
  | .gfExp i => decide (i < 2 ^ 8)
  | .gfLog _ => true
  | .rsGen n => decide (n < 2 ^ 8)
  | .genRd k => decide (k < 2 ^ 8)
  | .rsEnc n src len dst =>
    decide (n < 2 ^ 8) && decide (src < 2 ^ 16) && decide (len < 2 ^ 16) && decide (dst < 2 ^ 16)
  | .fmtEnc _ => true
  | .maskEval p i j => decide (p < 2 ^ 8) && decide (i < 2 ^ 16) && decide (j < 2 ^ 16)
  | .mxAlloc => true
  | .mxFinder => true
  | .mxAlign => true
  | .mxTiming => true
  | .mxFormat => true
  | .mxPlace src count => decide (src < 2 ^ 16) && decide (count < 2 ^ 16)
  | .mxRead r c => decide (r < 2 ^ 16) && decide (c < 2 ^ 16)
  | .mxIsdark r c => decide (r < 2 ^ 16) && decide (c < 2 ^ 16)
  | .mxSide => true
  | .assemble => true
  | .encode => true

/-- The command's operands fit their fields. -/
abbrev WellFormed (i : Instr) : Prop := i.wellFormed = true

end Sys2Proof
end

