-- ==== Sys2Proof/Decode.lean ====
section
/-! DEFINITION. Decoding a command word (30_encoding.md R84) from the opcode map of R83, and the encoder, written from the
same fields (R80, R82). Decoding is total: every word is one command or is rejected by name. -/

namespace Sys2Proof

/-! ## The fields of a command word (R80) -/

/-- OP = w[63:56]. -/
def fieldOp (w : CommandWord) : Byte := w.extractLsb' 56 8

/-- A = w[55:48]. -/
def fieldA (w : CommandWord) : Byte := w.extractLsb' 48 8

/-- B = w[47:32]. -/
def fieldB (w : CommandWord) : BitVec 16 := w.extractLsb' 32 16

/-- C = w[31:0]. -/
def fieldC (w : CommandWord) : Word := w.extractLsb' 0 32

/-- The operand fields of a word, as the command's rule reads them. -/
structure Fields where
  a : Byte
  b : BitVec 16
  c : Word
  deriving DecidableEq, Repr

/-- CL = w[15:0]. -/
def Fields.cl (f : Fields) : BitVec 16 := f.c.extractLsb' 0 16

/-- CH = w[31:16]. -/
def Fields.ch (f : Fields) : BitVec 16 := f.c.extractLsb' 16 16

/-- The operand fields of a command word. -/
def fieldsOf (w : CommandWord) : Fields := ⟨fieldA w, fieldB w, fieldC w⟩

/-! ## The opcode map (R83) -/

/-- One row of the opcode map: "A word decodes as the command when (w and mask) = match". `fixed` is the column
"match"; `build` puts the operands of the row's format (R82) into the command. -/
structure OpRow where
  mnemonic : String
  op       : Byte
  fixed    : CommandWord
  mask     : CommandWord
  build    : Fields → Instr

/-- The rows of the control, configuration and memory-access commands (40_control.md). -/
def opRowsControl : List OpRow :=
  [
  ⟨"NOP", 0x00#8, 0x0000000000000000#64, 0xFFFFFFFFFFFFFFFF#64,
    fun _ => .nop⟩,
  ⟨"CFG_SET", 0x01#8, 0x0100000000000000#64, 0xFFFCFF00FFFFFFFF#64,
    fun f => .cfgSet (f.a.extractLsb' 0 2) (f.b.extractLsb' 0 8).toNat⟩,
  ⟨"CFG_MASK", 0x02#8, 0x0200000000000000#64, 0xFF00FFFFFFFFFFFF#64,
    fun f => .cfgMask f.a⟩,
  ⟨"REG_READ", 0x03#8, 0x0300000000000000#64, 0xFF00FFFFFFFFFFFF#64,
    fun f => .regRead f.a.toNat⟩,
  ⟨"CLR_STICKY", 0x04#8, 0x0400000000000000#64, 0xFFFFFFFFFFFFFFFF#64,
    fun _ => .clrSticky⟩,
  ⟨"CW_WR", 0x08#8, 0x0800000000000000#64, 0xFF000000FFFFFFFF#64,
    fun f => .cwWr f.a f.b.toNat⟩,
  ⟨"CW_RD", 0x09#8, 0x0900000000000000#64, 0xFFFF0000FFFFFFFF#64,
    fun f => .cwRd f.b.toNat⟩,
  ⟨"PL_WR", 0x0A#8, 0x0A00000000000000#64, 0xFF000000FFFFFFFF#64,
    fun f => .plWr f.a f.b.toNat⟩,
  ⟨"PL_RD", 0x0B#8, 0x0B00000000000000#64, 0xFFFF0000FFFFFFFF#64,
    fun f => .plRd f.b.toNat⟩,
  ⟨"PL_SETLEN", 0x0C#8, 0x0C00000000000000#64, 0xFFFF0000FFFFFFFF#64,
    fun f => .plSetlen f.b.toNat⟩ ]

/-- The rows of the bit-stream packer (41_packer.md). -/
def opRowsPacker : List OpRow :=
  [
  ⟨"BS_CLEAR", 0x10#8, 0x1000000000000000#64, 0xFFFFFFFFFFFFFFFF#64,
    fun _ => .bsClear⟩,
  ⟨"BS_PUT", 0x11#8, 0x1100000000000000#64, 0xFF00FFFF00000000#64,
    fun f => .bsPut f.a.toNat f.c⟩,
  ⟨"BS_PUTBIT", 0x12#8, 0x1200000000000000#64, 0xFFFEFFFFFFFFFFFF#64,
    fun f => .bsPutbit (f.a.getLsbD 0)⟩,
  ⟨"BS_LEN", 0x13#8, 0x1300000000000000#64, 0xFFFFFFFFFFFFFFFF#64,
    fun _ => .bsLen⟩,
  ⟨"BS_GET", 0x14#8, 0x1400000000000000#64, 0xFFFFFFFF00000000#64,
    fun f => .bsGet f.c.toNat⟩,
  ⟨"BS_STORE", 0x15#8, 0x1500000000000000#64, 0xFFFF0000FFFF0000#64,
    fun f => .bsStore f.b.toNat f.cl.toNat⟩ ]

/-- The rows of the field, Reed-Solomon and format-code units (42, 43, 44). -/
def opRowsCoding : List OpRow :=
  [
  ⟨"GF_MUL", 0x20#8, 0x2000000000000000#64, 0xFF00FF00FFFFFFFF#64,
    fun f => .gfMul f.a (f.b.extractLsb' 0 8)⟩,
  ⟨"GF_EXP", 0x21#8, 0x2100000000000000#64, 0xFF00FFFFFFFFFFFF#64,
    fun f => .gfExp f.a.toNat⟩,
  ⟨"GF_LOG", 0x22#8, 0x2200000000000000#64, 0xFF00FFFFFFFFFFFF#64,
    fun f => .gfLog f.a⟩,
  ⟨"RS_GEN", 0x30#8, 0x3000000000000000#64, 0xFF00FFFFFFFFFFFF#64,
    fun f => .rsGen f.a.toNat⟩,
  ⟨"GEN_RD", 0x31#8, 0x3100000000000000#64, 0xFF00FFFFFFFFFFFF#64,
    fun f => .genRd f.a.toNat⟩,
  ⟨"RS_ENC", 0x32#8, 0x3200000000000000#64, 0xFF00000000000000#64,
    fun f => .rsEnc f.a.toNat f.b.toNat f.cl.toNat f.ch.toNat⟩,
  ⟨"FMT_ENC", 0x40#8, 0x4000000000000000#64, 0xFFE0FFFFFFFFFFFF#64,
    fun f => .fmtEnc (f.a.extractLsb' 0 5)⟩ ]

/-- The rows of the matrix builder and of assembly (45, 46). -/
def opRowsMatrix : List OpRow :=
  [
  ⟨"MASK_EVAL", 0x50#8, 0x5000000000000000#64, 0xFF000000FFFF0000#64,
    fun f => .maskEval f.a.toNat f.b.toNat f.cl.toNat⟩,
  ⟨"MX_ALLOC", 0x51#8, 0x5100000000000000#64, 0xFFFFFFFFFFFFFFFF#64,
    fun _ => .mxAlloc⟩,
  ⟨"MX_FINDER", 0x52#8, 0x5200000000000000#64, 0xFFFFFFFFFFFFFFFF#64,
    fun _ => .mxFinder⟩,
  ⟨"MX_ALIGN", 0x53#8, 0x5300000000000000#64, 0xFFFFFFFFFFFFFFFF#64,
    fun _ => .mxAlign⟩,
  ⟨"MX_TIMING", 0x54#8, 0x5400000000000000#64, 0xFFFFFFFFFFFFFFFF#64,
    fun _ => .mxTiming⟩,
  ⟨"MX_FORMAT", 0x55#8, 0x5500000000000000#64, 0xFFFFFFFFFFFFFFFF#64,
    fun _ => .mxFormat⟩,
  ⟨"MX_PLACE", 0x56#8, 0x5600000000000000#64, 0xFFFF0000FFFF0000#64,
    fun f => .mxPlace f.b.toNat f.cl.toNat⟩,
  ⟨"MX_READ", 0x57#8, 0x5700000000000000#64, 0xFFFF0000FFFF0000#64,
    fun f => .mxRead f.b.toNat f.cl.toNat⟩,
  ⟨"MX_ISDARK", 0x58#8, 0x5800000000000000#64, 0xFFFF0000FFFF0000#64,
    fun f => .mxIsdark f.b.toNat f.cl.toNat⟩,
  ⟨"MX_SIDE", 0x59#8, 0x5900000000000000#64, 0xFFFFFFFFFFFFFFFF#64,
    fun _ => .mxSide⟩,
  ⟨"ASSEMBLE", 0x60#8, 0x6000000000000000#64, 0xFFFFFFFFFFFFFFFF#64,
    fun _ => .assemble⟩,
  ⟨"ENCODE", 0x61#8, 0x6100000000000000#64, 0xFFFFFFFFFFFFFFFF#64,
    fun _ => .encode⟩ ]
/-- The opcode map of R83. -/
def opTable : List OpRow := opRowsControl ++ opRowsPacker ++ opRowsCoding ++ opRowsMatrix

/-! ## Decoding (R84) -/

/-- Why a word is no command (R84, R85); either way the device raises IllegalCommand(OP). -/
inductive DecodeError
  /-- "op is not an OP of rule R83" -/
  | reservedOpcode
  /-- "a defined OP and a non-zero unused bit" -/
  | unusedBits
  deriving DecidableEq, Repr

/-- The row of the opcode map with this OP. -/
def opRow? (op : Byte) : Option OpRow := opTable.find? (fun r => r.op == op)

/-- Decode a command word (R84). -/
def decode (w : CommandWord) : Except DecodeError Instr :=
  match opRow? (fieldOp w) with
  | none => .error .reservedOpcode
  | some row => if w &&& row.mask = row.fixed then .ok (row.build (fieldsOf w)) else .error .unusedBits

/-- The command this model's decoder reads from an instruction of `nbits` bits with value `w`, numbered as
spec/opcode_table.json numbers them. A command is one 64-bit word (R86), so the bits from `nbits` up to 63 are 0
(log 21). -/
def decodeTableWord (nbits w : Nat) : Option Instr :=
  match decode (BitVec.ofNat 64 (w % 2 ^ nbits)) with
  | .ok i => some i
  | .error _ => none

/-! ## Encoding (R80, R82, R83) -/

/-- The command word with these four fields (R80). -/
def packWord (op : Byte) (f : Fields) : CommandWord := op ++ f.a ++ f.b ++ f.c

/-- A command's opcode (R83). -/
def opcodeOf : Instr → Byte
  | .nop => 0x00#8
  | .cfgSet _ _ => 0x01#8
  | .cfgMask _ => 0x02#8
  | .regRead _ => 0x03#8
  | .clrSticky => 0x04#8
  | .cwWr _ _ => 0x08#8
  | .cwRd _ => 0x09#8
  | .plWr _ _ => 0x0A#8
  | .plRd _ => 0x0B#8
  | .plSetlen _ => 0x0C#8
  | .bsClear => 0x10#8
  | .bsPut _ _ => 0x11#8
  | .bsPutbit _ => 0x12#8
  | .bsLen => 0x13#8
  | .bsGet _ => 0x14#8
  | .bsStore _ _ => 0x15#8
  | .gfMul _ _ => 0x20#8
  | .gfExp _ => 0x21#8
  | .gfLog _ => 0x22#8
  | .rsGen _ => 0x30#8
  | .genRd _ => 0x31#8
  | .rsEnc _ _ _ _ => 0x32#8
  | .fmtEnc _ => 0x40#8
  | .maskEval _ _ _ => 0x50#8
  | .mxAlloc => 0x51#8
  | .mxFinder => 0x52#8
  | .mxAlign => 0x53#8
  | .mxTiming => 0x54#8
  | .mxFormat => 0x55#8
  | .mxPlace _ _ => 0x56#8
  | .mxRead _ _ => 0x57#8
  | .mxIsdark _ _ => 0x58#8
  | .mxSide => 0x59#8
  | .assemble => 0x60#8
  | .encode => 0x61#8

/-- The fields of a command with no operands: every unused bit is zero (format Z). -/
def Fields.zero : Fields := ⟨0#8, 0#16, 0#32⟩

/-- The fields of a format that uses A alone (A8, A5, A1). -/
def Fields.ofA (a : Byte) : Fields := ⟨a, 0#16, 0#32⟩

/-- The fields of a format that uses A and B (A8B16, A8B8, A2B8) or B alone (B16). -/
def Fields.ofAB (a : Byte) (b : Nat) : Fields := ⟨a, BitVec.ofNat 16 b, 0#32⟩

/-- The fields of a format that uses A, B, CL and CH (A8B16CLCH, A8B16CL, B16CL). -/
def Fields.ofABC (a : Byte) (b cl ch : Nat) : Fields :=
  ⟨a, BitVec.ofNat 16 b, BitVec.ofNat 16 ch ++ BitVec.ofNat 16 cl⟩

/-- A command's operand fields, by the format of its row (R82). -/
def operandFields : Instr → Fields
  | .nop => Fields.zero
  | .cfgSet ecl version => Fields.ofAB (ecl.setWidth 8) version
  | .cfgMask m => Fields.ofA m
  | .regRead n => Fields.ofA (BitVec.ofNat 8 n)
  | .clrSticky => Fields.zero
  | .cwWr v a => Fields.ofAB v a
  | .cwRd a => Fields.ofAB 0#8 a
  | .plWr v a => Fields.ofAB v a
  | .plRd a => Fields.ofAB 0#8 a
  | .plSetlen n => Fields.ofAB 0#8 n
  | .bsClear => Fields.zero
  | .bsPut width value => ⟨BitVec.ofNat 8 width, 0#16, value⟩
  | .bsPutbit b => Fields.ofA ((BitVec.ofBool b).setWidth 8)
  | .bsLen => Fields.zero
  | .bsGet i => ⟨0#8, 0#16, BitVec.ofNat 32 i⟩
  | .bsStore dst n => Fields.ofABC 0#8 dst n 0
  | .gfMul a b => Fields.ofAB a b.toNat
  | .gfExp i => Fields.ofA (BitVec.ofNat 8 i)
  | .gfLog a => Fields.ofA a
  | .rsGen n => Fields.ofA (BitVec.ofNat 8 n)
  | .genRd k => Fields.ofA (BitVec.ofNat 8 k)
  | .rsEnc n src len dst => Fields.ofABC (BitVec.ofNat 8 n) src len dst
  | .fmtEnc d => Fields.ofA (d.setWidth 8)
  | .maskEval p i j => Fields.ofABC (BitVec.ofNat 8 p) i j 0
  | .mxAlloc => Fields.zero
  | .mxFinder => Fields.zero
  | .mxAlign => Fields.zero
  | .mxTiming => Fields.zero
  | .mxFormat => Fields.zero
  | .mxPlace src count => Fields.ofABC 0#8 src count 0
  | .mxRead r c => Fields.ofABC 0#8 r c 0
  | .mxIsdark r c => Fields.ofABC 0#8 r c 0
  | .mxSide => Fields.zero
  | .assemble => Fields.zero
  | .encode => Fields.zero

/-- The command word of a well-formed command (R80, R82, R83). -/
def encode (i : Instr) : CommandWord := packWord (opcodeOf i) (operandFields i)

end Sys2Proof
end

