-- ==== Sys2Proof/Config.lean ====
section
/-! DEFINITION. What is fixed for one QRC-CORE: its parameters (00_scope.md R9, R11, R12), the form of the external tables CAP and ALIGN (R10), and the free values for storage that nothing has
written (10_state.md R50, 20_memory.md R76). -/

namespace Sys2Proof

/-! ## Parameters (00_scope.md R9, R11)

"A model of QRC-CORE takes these size parameters"; the mode indicator and the length width are parameters too. They are
values fixed for one device, so the machine carries them beside its tables and no step changes them (logs 5, 6). -/

/-- The parameters of one device (R9, R11). -/
structure Params where
  /-- MAX_VERSION: the largest version CFG_SET accepts (R9) -/
  maxVersion    : Nat
  /-- CW_BYTES: the size of the codeword RAM (R9) -/
  cwBytes       : Nat
  /-- PL_BYTES: the size of the payload RAM (R9) -/
  plBytes       : Nat
  /-- BS_BITS: the capacity of the bit-stream buffer (R9) -/
  bsBits        : Nat
  /-- MODE_INDICATOR (R11) -/
  modeIndicator : BitVec 4
  /-- LEN_WIDTH as plain data: entry v is the width of the length field at version v (R11) -/
  lenWidths     : List Nat
  deriving DecidableEq, Repr

/-- N_MAX: the largest side length (R9). -/
def Params.nMax (p : Params) : Nat := 4 * p.maxVersion + 17

/-- `LEN_WIDTH(version)` (R11). DESIGN CHOICE (log 6): a version past the end of the list has width 0. -/
def Params.lenWidth (p : Params) (version : Nat) : Nat := p.lenWidths.getD version 0

/-- The column "constraint" of R9. -/
abbrev Params.Legal (p : Params) : Prop :=
  1 ≤ p.maxVersion ∧ p.maxVersion ≤ 40 ∧ p.cwBytes ≤ 65536 ∧ p.plBytes ≤ 65535 ∧ p.bsBits ≤ 65535 * 8 ∧
    p.bsBits ≤ 2 ^ 32

/-- The column "default" of R9, and R11's defaults: byte mode, 8 bits of length for version ≤ 9 and 16 otherwise. -/
def Config.defaults : Params where
  maxVersion := 40
  cwBytes := 4096
  plBytes := 4096
  bsBits := 32768
  modeIndicator := 0b0100#4
  lenWidths := List.replicate 10 8 ++ List.replicate 31 16

/-- GEN_MAX: the largest generator degree; "fixed: the GEN buffer has 256 entries" (R9). -/
abbrev Config.genMax : Nat := 255

/-- The highest register number (10_state.md R24). -/
abbrev Config.lastRegister : Nat := 17

/-- The constant of the ID register, ASCII "QRC1" (10_state.md R40). -/
abbrev Config.idValue : Word := 0x51524331#32

/-! ## The EC-level codes (00_scope.md R12)

DESIGN CHOICE (log 6): the spec's own defaults. The device takes the 2-bit code; the mapping from names is outside it. -/

/-- The names of the error-correction levels. They exist on the host's side only; the device holds the 2-bit code (R12). -/
inductive EcLevel
  | L
  | M
  | Q
  | H
  deriving DecidableEq, Repr

/-- ECL_CODE: the 2-bit code of an EC level (R12). -/
def Config.eclCode : EcLevel → BitVec 2
  | .L => 1#2
  | .M => 0#2
  | .Q => 3#2
  | .H => 2#2

/-! ## The external tables (00_scope.md R10) -/

/-- A Capacity Entry: "triple: total codewords, EC codewords, block count" (R10). -/
structure CapEntry where
  total  : Nat
  ec     : Nat
  blocks : Nat
  deriving DecidableEq, Repr

/-- One row of the capacity table. -/
structure CapRow where
  version : Nat
  ecl     : BitVec 2
  entry   : CapEntry
  deriving DecidableEq, Repr

/-- One row of the alignment-coordinate table: "version → ordered set of coordinates" (R10). -/
structure AlignRow where
  version : Nat
  coords  : List Nat
  deriving DecidableEq, Repr

/-- The two externally supplied, read-only tables (R10), as plain data. -/
structure Tables where
  cap   : List CapRow
  align : List AlignRow
  deriving DecidableEq, Repr

/-- The example instance of 93_implementation_defined.md section 3. DESIGN CHOICE (log 2): it is what the tables hold in
`State.reset`; no meaning reads it by this name. -/
def Config.exampleTables : Tables where
  cap :=
    [⟨1, 1#2, ⟨26, 7, 1⟩⟩, ⟨1, 0#2, ⟨26, 10, 1⟩⟩, ⟨1, 3#2, ⟨26, 13, 1⟩⟩, ⟨1, 2#2, ⟨26, 17, 1⟩⟩] ++
    [⟨2, 1#2, ⟨44, 10, 1⟩⟩, ⟨2, 0#2, ⟨44, 16, 1⟩⟩, ⟨2, 3#2, ⟨44, 22, 1⟩⟩, ⟨2, 2#2, ⟨44, 28, 1⟩⟩] ++
    [⟨3, 1#2, ⟨70, 15, 1⟩⟩, ⟨3, 0#2, ⟨70, 26, 1⟩⟩, ⟨3, 3#2, ⟨70, 36, 2⟩⟩, ⟨3, 2#2, ⟨70, 44, 2⟩⟩] ++
    [⟨4, 1#2, ⟨100, 20, 1⟩⟩, ⟨4, 0#2, ⟨100, 36, 2⟩⟩, ⟨4, 3#2, ⟨100, 52, 2⟩⟩, ⟨4, 2#2, ⟨100, 64, 4⟩⟩] ++
    [⟨5, 1#2, ⟨134, 26, 1⟩⟩, ⟨5, 0#2, ⟨134, 48, 2⟩⟩, ⟨5, 3#2, ⟨134, 72, 4⟩⟩, ⟨5, 2#2, ⟨134, 88, 4⟩⟩] ++
    [⟨6, 1#2, ⟨172, 36, 2⟩⟩, ⟨6, 0#2, ⟨172, 64, 4⟩⟩, ⟨6, 3#2, ⟨172, 96, 4⟩⟩, ⟨6, 2#2, ⟨172, 112, 4⟩⟩]
  align := [⟨1, []⟩, ⟨2, [6, 18]⟩, ⟨3, [6, 22]⟩, ⟨4, [6, 26]⟩, ⟨5, [6, 30]⟩, ⟨6, [6, 34]⟩]

/-! ## Free values (10_state.md R50, 20_memory.md R76; log 3)

"A model must treat the value as an arbitrary draw, fixed from reset until the first write." Each is a constant with
no body, so no proof can see a value. The first argument says which power-on draw it is, the second the place. -/

/-- The byte an address of the codeword RAM holds when nothing has written it since reset (R76). -/
opaque Config.cwDraw : Nat → Nat → Byte

/-- The byte an address of the payload RAM holds when nothing has written it since reset (R76). -/
opaque Config.plDraw : Nat → Nat → Byte

/-- The byte an entry of GEN holds when nothing has written it since reset (10_state.md R50, U2). -/
opaque Config.genDraw : Nat → Nat → Byte

end Sys2Proof
end

