-- ==== Sys2Proof/Machine/State.lean ====
section
/-! DEFINITION. The state of QRC-CORE (10_state.md R20), plain data; the reasons a step can stop; the state after reset
(R50, 70_reset_and_hazards.md R300). -/

namespace Sys2Proof.Machine

/-- The matrix-builder phase, STATUS.PHASE (10_state.md R34). "The value 7 is never held." -/
inductive Phase
  /-- 0 NONE: no grid allocated -/
  | none
  /-- 1 ALLOCATED: every cell UNSET -/
  | allocated
  /-- 2 FINDER_DONE -/
  | finderDone
  /-- 3 ALIGN_DONE -/
  | alignDone
  /-- 4 TIMING_DONE -/
  | timingDone
  /-- 5 FORMAT_DONE -/
  | formatDone
  /-- 6 DONE: the grid is final -/
  | done
  deriving DecidableEq, Repr

/-- The nine kinds of error a command reports (60_exceptions.md R270). -/
inductive ErrorKind
  | indexError
  | domainError
  | invalidMaskPattern
  | payloadTooLarge
  | unsupportedConfiguration
  | illegalCommand
  | sequenceError
  | rangeError
  | gridIncomplete
  deriving DecidableEq, Repr

/-- A cell of the module grid (10_state.md R48, 00_scope.md R16). -/
inductive GridCell
  | unset
  | light
  | dark
  deriving DecidableEq, Repr

/-- A storage array indexed from 0: the bytes that have been written, as (index, byte) pairs with strictly rising
indexes. An unlisted index holds no written byte; what reading it gives is the array's power-on draw (log 4). -/
abbrev Memory := List Host.Cell

/-- What the host does at the device's port (20_memory.md R60, 70_reset_and_hazards.md R300). -/
inductive HostEvent
  /-- issue a command word -/
  | command (w : CommandWord)
  /-- apply reset between commands -/
  | reset
  /-- apply reset while the device executes the command `w` -/
  | resetDuring (w : CommandWord)
  deriving DecidableEq, Repr

/-- The state (10_state.md R20, R24). STATUS is the word of `err`, `sticky`, `cfgValid` and `phase` (R25); BS_LEN is the
length of `bs` (R35); ID is a constant (R40). `port`, `tables`, `params` and `draw` are the model's own (logs 1, 2, 3, 5). -/
structure State where
  /-- STATUS.ERR, the error of the most recent command; none is code 0, OK (R26) -/
  err        : Option ErrorKind
  /-- STATUS.STICKY (R27) -/
  sticky     : Bool
  /-- STATUS.CFG_VALID (R28) -/
  cfgValid   : Bool
  /-- STATUS.PHASE (R34) -/
  phase      : Phase
  /-- register 1, RESULT (R21) -/
  result     : Word
  /-- register 2, ERR_INFO (R30) -/
  errInfo    : Word
  /-- register 3, CFG_VERSION (R31) -/
  cfgVersion : BitVec 8
  /-- register 4, CFG_ECL (R31) -/
  cfgEcl     : BitVec 2
  /-- register 5, CFG_MASK (R32) -/
  cfgMask    : BitVec 8
  /-- register 6, CAP_TOTAL (R33) -/
  capTotal   : Word
  /-- register 7, CAP_EC (R33) -/
  capEc      : Word
  /-- register 8, CAP_BLOCKS (R33) -/
  capBlocks  : Word
  /-- register 9, CAP_DATA (R33) -/
  capData    : Word
  /-- register 10, SIDE (R33) -/
  side       : BitVec 8
  /-- register 12, PL_LEN (R36) -/
  plLen      : BitVec 16
  /-- register 13, GEN_DEG (R37) -/
  genDeg     : BitVec 8
  /-- register 14, BUILD_MASK (R38) -/
  buildMask  : BitVec 3
  /-- register 15, PLACE_CELLS (R39) -/
  placeCells : Word
  /-- register 16, PLACE_BITS (R39) -/
  placeBits  : Word
  /-- BS, the bit stream, first appended bit first (R45) -/
  bs         : List Bool
  /-- GEN, the generator buffer (R44) -/
  gen        : Memory
  /-- CW, the codeword RAM (R46) -/
  cw         : Memory
  /-- PL, the payload RAM (R47) -/
  pl         : Memory
  /-- GRID, the cell at row r and column c at offset r·N + c (R48); empty while PHASE = 0 -/
  grid       : List GridCell
  /-- the model's own: the host events not yet taken, oldest first (log 1) -/
  port       : List HostEvent
  /-- the model's own: the external read-only tables CAP and ALIGN (log 2) -/
  tables     : Tables
  /-- the model's own: the parameters of this device (logs 5, 6) -/
  params     : Params
  /-- the model's own: which power-on draw the unwritten storage holds (log 3) -/
  draw       : Nat
  deriving DecidableEq, Repr

/-- Why the machine stops with a fault: never. Every error of the device is a response, after which "the command after a
failed one executes normally" (60_exceptions.md R277), so no command raises a fault and the type has no constructor
(log 13). -/
inductive Fault : Type
  deriving DecidableEq, Repr

/-- Why an instruction has no meaning. -/
inductive Refusal
  /-- Raised only by an arm of `exec` whose instruction has no meaning yet; safe, since the machine stops. No arm does. -/
  | notModelled (mnemonic : String)
  deriving DecidableEq, Repr

/-- The state after reset: every value of 10_state.md R24 and R50. The unspecified bytes of GEN, CW and PL are unlisted.
`port`, `tables`, `params` and `draw` are DESIGN CHOICES (logs 1, 2, 3, 5, 6). -/
def State.reset : State where
  err        := none
  sticky     := false
  cfgValid   := false
  phase      := .none
  result     := 0#32
  errInfo    := 0#32
  cfgVersion := 0#8
  cfgEcl     := 0#2
  cfgMask    := 0#8
  capTotal   := 0#32
  capEc      := 0#32
  capBlocks  := 0#32
  capData    := 0#32
  side       := 0#8
  plLen      := 0#16
  genDeg     := 0#8
  buildMask  := 0#3
  placeCells := 0#32
  placeBits  := 0#32
  bs         := []
  gen        := [(0, 0x01#8)]
  cw         := []
  pl         := []
  grid       := []
  port       := []
  tables     := Config.exampleTables
  params     := Config.defaults
  draw       := 0

end Sys2Proof.Machine
end

