-- ==== Sys2Proof/Machine/Flags.lean ====
section
/-! DEFINITION. The codes of errors, phases and cells, and the STATUS word (10_state.md R25, 60_exceptions.md R270).
STATUS is the device's only flag register (R41). -/

namespace Sys2Proof.Machine

/-- The 4-bit code of an error (R270). Codes 10 to 15 are never reported. -/
def ErrorKind.code : ErrorKind → BitVec 4
  | .indexError => 1#4
  | .domainError => 2#4
  | .invalidMaskPattern => 3#4
  | .payloadTooLarge => 4#4
  | .unsupportedConfiguration => 5#4
  | .illegalCommand => 6#4
  | .sequenceError => 7#4
  | .rangeError => 8#4
  | .gridIncomplete => 9#4

/-- STATUS.ERR: 0 is OK (R26, R270). -/
def errCode : Option ErrorKind → BitVec 4
  | none => 0#4
  | some e => e.code

/-- The number of a phase (R34). -/
def Phase.code : Phase → BitVec 3
  | .none => 0#3
  | .allocated => 1#3
  | .finderDone => 2#3
  | .alignDone => 3#3
  | .timingDone => 4#3
  | .formatDone => 5#3
  | .done => 6#3

/-- The code of a cell when read out (00_scope.md R16, 45_matrix.md R226). -/
def GridCell.code : GridCell → Word
  | .unset => 0#32
  | .light => 1#32
  | .dark => 2#32

/-- The cell a set bit or a clear bit makes: "DARK if d else LIGHT" (R16). -/
def GridCell.ofBit (d : Bool) : GridCell := if d then .dark else .light

/-- STATUS.READY: "not stored: it reads 1 exactly when PHASE = 6" (R29). -/
def State.ready (s : State) : Bool := decide (s.phase = .done)

/-- The STATUS word (R25): [31:11] zero, PHASE, [7] zero, READY, CFG_VALID, STICKY, ERR. -/
def State.status (s : State) : Word :=
  0#21 ++ s.phase.code ++ 0#1 ++ BitVec.ofBool s.ready ++ BitVec.ofBool s.cfgValid ++ BitVec.ofBool s.sticky ++
    errCode s.err

end Sys2Proof.Machine
end

