-- ==== Sys2Proof/Machine/Ops.lean ====
section
/-! DEFINITION. The named operations over storage and registers, and the two ways a command ends: success
(60_exceptions.md R272) and the raising of an error (R273), each written once. -/

namespace Sys2Proof.Machine

/-! ## Storage arrays (10_state.md R42, 20_memory.md R61) -/

/-- The written byte at an index, if there is one. -/
def Memory.read? : Memory → Nat → Option Byte
  | [], _ => none
  | (k, v) :: m, a => if k = a then some v else Memory.read? m a

/-- Write one byte, keeping the indexes strictly rising. -/
def Memory.write : Memory → Nat → Byte → Memory
  | [], a, v => [(a, v)]
  | (k, u) :: m, a, v =>
    if a < k then (a, v) :: (k, u) :: m
    else if a = k then (a, v) :: m
    else (k, u) :: Memory.write m a v

/-- Write a sequence of bytes at consecutive indexes, the first at `a`. -/
def Memory.writeBytes : Memory → Nat → List Byte → Memory
  | m, _, [] => m
  | m, a, b :: bytes => Memory.writeBytes (Memory.write m a b) (a + 1) bytes

/-- The canonical form of a storage array: its indexes rise strictly (log 4). -/
def Memory.wf : Memory → Bool
  | [] => true
  | [_] => true
  | (k, _) :: (l, v) :: m => decide (k < l) && Memory.wf ((l, v) :: m)

/-- `MemRead(CW, a, 1)` (00_scope.md R15): the byte last written, or the power-on draw (20_memory.md R76). -/
def State.cwByte (s : State) (a : Nat) : Byte := (s.cw.read? a).getD (Config.cwDraw s.draw a)

/-- `MemRead(PL, a, 1)` (R15, R76). -/
def State.plByte (s : State) (a : Nat) : Byte := (s.pl.read? a).getD (Config.plDraw s.draw a)

/-- `GEN[k]` (R15); the entries nothing has written hold a draw (10_state.md R50). -/
def State.genByte (s : State) (k : Nat) : Byte := (s.gen.read? k).getD (Config.genDraw s.draw k)

/-- The sequence `[MemRead(CW, a + i, 1) for i in 0..<n]`. -/
def State.cwBytes (s : State) (a n : Nat) : List Byte := (List.range n).map (fun i => s.cwByte (a + i))

/-- The sequence `[MemRead(PL, i, 1) for i in 0..<n]`. -/
def State.plBytes (s : State) (n : Nat) : List Byte := (List.range n).map s.plByte

/-! ## Registers (10_state.md R24) -/

/-- BS_LEN, "the Bit Stream's length counter" (R35). -/
def State.bsLen (s : State) : Word := BitVec.ofNat 32 s.bs.length

/-- The value of register `n`, zero-extended to 32 bits; none for the reserved numbers (R24). -/
def State.readReg (s : State) : Nat → Option Word
  | 0 => some s.status
  | 1 => some s.result
  | 2 => some s.errInfo
  | 3 => some (s.cfgVersion.setWidth 32)
  | 4 => some (s.cfgEcl.setWidth 32)
  | 5 => some (s.cfgMask.setWidth 32)
  | 6 => some s.capTotal
  | 7 => some s.capEc
  | 8 => some s.capBlocks
  | 9 => some s.capData
  | 10 => some (s.side.setWidth 32)
  | 11 => some s.bsLen
  | 12 => some (s.plLen.setWidth 32)
  | 13 => some (s.genDeg.setWidth 32)
  | 14 => some (s.buildMask.setWidth 32)
  | 15 => some s.placeCells
  | 16 => some s.placeBits
  | 17 => some Config.idValue
  | _ => none

/-- `result <- v` (R21). -/
def State.setResult (s : State) (v : Word) : State := { s with result := v }

/-! ## Success and failure (60_exceptions.md R272, R273) -/

/-- `raise E(x)` (00_scope.md R15): the error and its information. -/
structure Raise where
  kind : ErrorKind
  info : Nat
  deriving DecidableEq, Repr

/-- What every successful command also does: STATUS.ERR <- 0 and ERR_INFO <- 0 (R272). -/
def State.succeed (s : State) : State := { s with err := none, errInfo := 0#32 }

/-- Raising an error: "discard every write the command made or would make", then ERR <- code(E), ERR_INFO <- x,
STICKY <- 1 (R273). It is applied to the state before the command. -/
def State.raise (s : State) (e : Raise) : State :=
  { s with err := some e.kind, errInfo := BitVec.ofNat 32 e.info, sticky := true }

/-- End a command that started in `s` and whose pseudocode gave `r`: its next state is the new state of a success, or
`s` with the error reported (R272, R273). -/
def complete (s : State) (r : Except Raise State) : Host.Outcome State Fault Refusal :=
  match r with
  | .ok t => .next t.succeed
  | .error e => .next (s.raise e)

/-- A word that is no command raises IllegalCommand(OP) (30_encoding.md R84). -/
def rejectWord (op : Byte) (s : State) : Host.Outcome State Fault Refusal :=
  complete s (.error ⟨.illegalCommand, op.toNat⟩)

/-- `require PHASE = p`, raising SequenceError with the current PHASE (45_matrix.md R200). -/
def requirePhase (s : State) (p : Phase) : Except Raise Unit :=
  if s.phase = p then .ok () else .error ⟨.sequenceError, s.phase.code.toNat⟩

/-- The response of the most recent command (10_state.md R21). -/
structure Response where
  err    : BitVec 4
  result : Word
  deriving DecidableEq, Repr

/-- "`err` is the 4-bit error code … and `result` is the value of register RESULT after the command" (R21). -/
def State.response (s : State) : Response := ⟨errCode s.err, s.result⟩

/-! ## Reset (70_reset_and_hazards.md R300) -/

/-- The reset event: the state of R50, with a fresh power-on draw. The host's pending events, the external tables and the
parameters are not the device's state, and stay. -/
def State.afterReset (s : State) : State :=
  { State.reset with port := s.port, tables := s.tables, params := s.params, draw := s.draw + 1 }

end Sys2Proof.Machine
end

