-- ==== Sys2Proof/Machine/Operands.lean ====
section
/-! DEFINITION. Bit order, byte order and the external tables, as the commands use them (20_memory.md R70 to R72,
00_scope.md R10, R13). -/

namespace Sys2Proof.Machine

/-- `zext_32(v)` (R13). -/
def zext32 {n : Nat} (v : BitVec n) : Word := v.setWidth 32

/-- `sext_N(v)` (R13): "sign-extend from the top bit"; defined by the spec, used by no rule. -/
def sext {n : Nat} (N : Nat) (v : BitVec n) : BitVec N := v.signExtend N

/-- `bitlen(v)`: the number of bits without leading zeros; `bitlen(0) = 0` (R13). -/
def bitlen (v : Nat) : Nat := if v = 0 then 0 else Nat.log2 v + 1

/-- The low `w` bits of `v`, most significant first (20_memory.md R70). -/
def bitsMsb (v w : Nat) : List Bool := (List.range w).map (fun i => v.testBit (w - 1 - i))

/-- Byte k of the stream: `Σ_{t=0..7} BS[8k+t] · 2^(7−t)` (R71). -/
def streamByte (bs : List Bool) (k : Nat) : Byte :=
  BitVec.ofNat 8 ((List.range 8).foldl (fun sum t => sum + (bs.getD (8 * k + t) false).toNat * 2 ^ (7 - t)) 0)

/-- The first n bytes of the stream (R71). -/
def streamBytes (bs : List Bool) (n : Nat) : List Byte := (List.range n).map (streamByte bs)

/-- Bit k of a codeword sequence: "bit 7 − (k mod 8) of codeword k div 8" (R72). -/
def codewordBit (cw : List Byte) (k : Nat) : Bool := (cw.getD (k / 8) 0#8).getLsbD (7 - k % 8)

/-- `CAP(version, ecl)` (R10): none for a pair "absent from the capacity table". -/
def capAt (t : Tables) (version : Nat) (ecl : BitVec 2) : Option CapEntry :=
  (t.cap.find? (fun r => r.version == version && r.ecl == ecl)).map (fun r => r.entry)

/-- `ALIGN(version)` (R10), in table order; a version the table does not list has no coordinates (log 18). -/
def alignAt (t : Tables) (version : Nat) : List Nat :=
  ((t.align.find? (fun r => r.version == version)).map (fun r => r.coords)).getD []

end Sys2Proof.Machine
end

