-- ==== Sys2Proof/Machine/FormatBch.lean ====
section
/-! DEFINITION. The BCH (15,5) format-information coder (44_format_bch.md). -/

namespace Sys2Proof.Machine

/-- The remainder loop of R190: `while bitlen(v) >= 11`. Each round lowers bitlen(v), so `fuel` rounds suffice for
bitlen(v) ≤ fuel + 10 (log 16). -/
def bchReduce : Nat → Nat → Nat
  | 0, v => v
  | fuel + 1, v => if 11 ≤ bitlen v then bchReduce fuel (v ^^^ (0x537 <<< (bitlen v - 11))) else v

/-- `bch_format(d)` (R190). -/
def bchFormat (d : Nat) : Nat := ((d <<< 10) ||| bchReduce 5 (d <<< 10)) ^^^ 0x5412

/-- FMT_ENC (R191). -/
def execFmtEnc (d : BitVec 5) (s : State) : Host.Outcome State Fault Refusal :=
  complete s (.ok (s.setResult (BitVec.ofNat 32 (bchFormat d.toNat))))

end Sys2Proof.Machine
end

