-- ==== Sys2Proof/Machine/Matrix.lean ====
section
/-! DEFINITION. The matrix builder: pattern stamper, zigzag placer, mask applicator (45_matrix.md). Coordinates are
(row, column); N = SIDE. -/

namespace Sys2Proof.Machine

/-! ## Cells (00_scope.md R16, 10_state.md R48) -/

/-- N = SIDE = 4·CFG_VERSION + 17 (10_state.md R33). -/
def State.sideN (s : State) : Nat := s.side.toNat

/-- `GRID[r][c]`, at offset r·N + c (R48). -/
def cellAt (N : Nat) (grid : List GridCell) (r c : Nat) : GridCell := grid.getD (r * N + c) .unset

/-- `GRID[r][c] <- v`. -/
def setCell (N : Nat) (grid : List GridCell) (r c : Nat) (v : GridCell) : List GridCell := grid.set (r * N + c) v

/-- One call of `set_if_unset`: the cell it names, which may lie outside the grid, and whether it is dark. -/
structure Stamp where
  row  : Int
  col  : Int
  dark : Bool
  deriving DecidableEq, Repr

/-- The cell a stamp names is inside the N × N grid. -/
def Stamp.inside (N : Nat) (st : Stamp) : Bool :=
  decide (0 ≤ st.row ∧ st.row < N ∧ 0 ≤ st.col ∧ st.col < N)

/-- `set_if_unset(r, c, d)` (R16): the only way a structural phase writes a cell. -/
def setIfUnset (N : Nat) (grid : List GridCell) (st : Stamp) : List GridCell :=
  if st.inside N && decide (cellAt N grid st.row.toNat st.col.toNat = .unset) then
    setCell N grid st.row.toNat st.col.toNat (GridCell.ofBit st.dark)
  else grid

/-- A run of `set_if_unset` calls, in order. -/
def stampAll (N : Nat) (grid : List GridCell) (stamps : List Stamp) : List GridCell :=
  stamps.foldl (setIfUnset N) grid

/-- The integers lo, lo + 1, …, lo + n − 1. -/
def offsets (lo : Int) (n : Nat) : List Int := (List.range n).map (fun (k : Nat) => lo + (k : Int))

/-! ## Structural patterns -/

/-- `finder_dark(r, c)` (R202). -/
def finderDark (r c : Int) : Bool :=
  decide ((0 ≤ r ∧ r ≤ 6 ∧ (c = 0 ∨ c = 6)) ∨ (0 ≤ c ∧ c ≤ 6 ∧ (r = 0 ∨ r = 6)) ∨
    (2 ≤ r ∧ r ≤ 4 ∧ 2 ≤ c ∧ c ≤ 4))

/-- The finder pattern with its separator at a corner origin: offsets −1..7 (R202, R203). -/
def finderStampsAt (R C : Int) : List Stamp :=
  (offsets (-1) 9).flatMap fun r => (offsets (-1) 9).map fun c => ⟨R + r, C + c, finderDark r c⟩

/-- The three finder patterns: top-left, top-right, bottom-left (R203). -/
def finderStamps (N : Nat) : List Stamp :=
  finderStampsAt 0 0 ++ finderStampsAt 0 ((N : Int) - 7) ++ finderStampsAt ((N : Int) - 7) 0

/-- `align_dark(r, c)` (R204). -/
def alignDark (r c : Int) : Bool := decide (r.natAbs = 2 ∨ c.natAbs = 2 ∨ (r = 0 ∧ c = 0))

/-- The alignment pattern around a center: offsets −2..2 (R204, R205). -/
def alignStampsAt (a b : Nat) : List Stamp :=
  (offsets (-2) 5).flatMap fun r => (offsets (-2) 5).map fun c => ⟨(a : Int) + r, (b : Int) + c, alignDark r c⟩

/-- One center of R205: skipped when it is outside the grid or already set. -/
def alignCenter (N : Nat) (grid : List GridCell) (center : Nat × Nat) : List GridCell :=
  if N ≤ center.1 ∨ N ≤ center.2 then grid
  else if cellAt N grid center.1 center.2 ≠ .unset then grid
  else stampAll N grid (alignStampsAt center.1 center.2)

/-- The centers in order: the row coordinate is the outer loop (R205). -/
def alignCenters (coords : List Nat) : List (Nat × Nat) := coords.flatMap fun a => coords.map fun b => (a, b)

/-- The timing patterns: k in 8..N−9, horizontal then vertical (R206, R207). -/
def timingStamps (N : Nat) : List Stamp :=
  (List.range (N - 16)).flatMap fun i =>
    [⟨6, ((8 + i : Nat) : Int), decide ((8 + i) % 2 = 0)⟩, ⟨((8 + i : Nat) : Int), 6, decide ((8 + i) % 2 = 0)⟩]

/-- The row of copy V of format bit i (R208). -/
def formatRowV (N : Nat) (i : Nat) : Int :=
  if i ≤ 5 then (i : Int) else if i = 6 then 7 else if i = 7 then 8 else (N : Int) - 15 + i

/-- The column of copy H of format bit i (R208). -/
def formatColH (N : Nat) (i : Nat) : Int :=
  if i ≤ 7 then (N : Int) - 1 - i else if i = 8 then 7 else 14 - (i : Int)

/-- The format bits, each placed twice, and the dark module (R208, R209, R210). -/
def formatStamps (N : Nat) (code : Nat) : List Stamp :=
  ((List.range 15).flatMap fun i =>
    [⟨formatRowV N i, 8, code.testBit i⟩, ⟨8, formatColH N i, code.testBit i⟩]) ++
  [⟨(N : Int) - 8, 8, true⟩]

/-! ## The phases as state changes (R200 to R210) -/

/-- The body of MX_ALLOC (R201). -/
def State.allocGrid (s : State) : Except Raise State :=
  if s.cfgValid then
    .ok { s with grid := List.replicate (s.sideN * s.sideN) .unset, phase := .allocated }
  else .error ⟨.unsupportedConfiguration, 0⟩

/-- The body of MX_FINDER after its PHASE check (R203). -/
def State.stampFinder (s : State) : State :=
  { s with grid := stampAll s.sideN s.grid (finderStamps s.sideN), phase := .finderDone }

/-- The body of MX_ALIGN after its PHASE check (R205). -/
def State.stampAlign (s : State) : State :=
  { s with
    grid := (alignCenters (alignAt s.tables s.cfgVersion.toNat)).foldl (alignCenter s.sideN) s.grid
    phase := .alignDone }

/-- The body of MX_TIMING after its PHASE check (R207). -/
def State.stampTiming (s : State) : State :=
  { s with grid := stampAll s.sideN s.grid (timingStamps s.sideN), phase := .timingDone }

/-- The format-information word of an EC-level code and a mask: `bch_format((ecl << 3) or m)` (R210). -/
def formatCode (ecl : BitVec 2) (m : Nat) : Nat := bchFormat ((ecl.toNat <<< 3) ||| m)

/-- The body of MX_FORMAT after its PHASE check (R210): the mask check and the latch of BUILD_MASK. -/
def State.stampFormat (s : State) : Except Raise State :=
  if 7 < s.cfgMask.toNat then .error ⟨.invalidMaskPattern, s.cfgMask.toNat⟩
  else
    .ok { s with
      buildMask := BitVec.ofNat 3 s.cfgMask.toNat
      grid := stampAll s.sideN s.grid (formatStamps s.sideN (formatCode s.cfgEcl s.cfgMask.toNat))
      phase := .formatDone }

/-! ## Masking (R211) -/

/-- `mask(p, i, j)` for p in 0..7: "flip" (R211). -/
def maskFlip (p i j : Nat) : Bool :=
  match p with
  | 0 => decide ((i + j) % 2 = 0)
  | 1 => decide (i % 2 = 0)
  | 2 => decide (j % 3 = 0)
  | 3 => decide ((i + j) % 3 = 0)
  | 4 => decide ((i / 2 + j / 3) % 2 = 0)
  | 5 => decide (i * j % 2 + i * j % 3 = 0)
  | 6 => decide ((i * j % 2 + i * j % 3) % 2 = 0)
  | 7 => decide ((i * j % 3 + (i + j) % 2) % 2 = 0)
  | _ => false

/-! ## Data placement (R215, R216) -/

/-- One pass of `zigzag` over the pair whose right column is `col`: right column first, the rows upward or downward. -/
def zigzagPair (N col : Nat) (up : Bool) : List (Nat × Nat) :=
  (if up then (List.range N).reverse else List.range N).flatMap fun r => [(r, col), (r, col - 1)]

/-- The pairs of `zigzag` from column `col` on (R216): `while col > 0`, skipping column 6, the direction turning after
each pair. Each round lowers the column, so `fuel = N` rounds suffice (log 16). -/
def zigzagFrom (N : Nat) : Nat → Nat → Bool → List (Nat × Nat)
  | 0, _, _ => []
  | fuel + 1, col, up =>
    if col = 0 then []
    else
      let right := if col = 6 then 5 else col
      zigzagPair N right up ++ zigzagFrom N fuel (right - 2) (!up)

/-- `zigzag(N)` (R216). -/
def zigzag (N : Nat) : List (Nat × Nat) := zigzagFrom N N (N - 1) true

/-- The placer's loop state: the grid and the number k of data cells written. -/
structure Placer where
  grid  : List GridCell
  count : Nat
  deriving DecidableEq, Repr

/-- The bit placed in the k-th data cell, before masking: `false` once the codeword bits are consumed (R215, R217). -/
def dataBit (cw : List Byte) (k : Nat) : Bool := if k < 8 * cw.length then codewordBit cw k else false

/-- One cell of the traversal (R215): an UNSET cell takes the next bit, masked (R213). -/
def placeCell (N : Nat) (cw : List Byte) (mask : Nat) (p : Placer) (rc : Nat × Nat) : Placer :=
  if cellAt N p.grid rc.1 rc.2 = .unset then
    ⟨setCell N p.grid rc.1 rc.2 (GridCell.ofBit (dataBit cw p.count ^^ maskFlip mask rc.1 rc.2)), p.count + 1⟩
  else p

/-- The placement of a codeword sequence over the whole traversal (R215). -/
def placeAll (N : Nat) (cw : List Byte) (mask : Nat) (grid : List GridCell) : Placer :=
  (zigzag N).foldl (placeCell N cw mask) ⟨grid, 0⟩

/-- The body of MX_PLACE after its PHASE check (R215). -/
def State.placeCodewords (s : State) (src count : Nat) : Except Raise State :=
  if s.params.cwBytes < src + count then .error ⟨.rangeError, src + count⟩
  else
    let p := placeAll s.sideN (s.cwBytes src count) s.buildMask.toNat s.grid
    let u := p.grid.count .unset
    if u ≠ 0 then .error ⟨.gridIncomplete, u⟩
    else
      .ok { s with
        grid := p.grid
        placeCells := BitVec.ofNat 32 p.count
        placeBits := BitVec.ofNat 32 (min p.count (8 * count))
        phase := .done }

/-! ## Commands -/

/-- MASK_EVAL (R212): i and j are not limited to the grid. -/
def execMaskEval (p i j : Nat) (s : State) : Host.Outcome State Fault Refusal :=
  complete s <|
    if 7 < p then .error ⟨.invalidMaskPattern, p⟩
    else .ok (s.setResult (BitVec.ofNat 32 (maskFlip p i j).toNat))

/-- MX_ALLOC (R201): accepted in every PHASE. -/
def execMxAlloc (s : State) : Host.Outcome State Fault Refusal := complete s s.allocGrid

/-- MX_FINDER (R203). -/
def execMxFinder (s : State) : Host.Outcome State Fault Refusal :=
  complete s (requirePhase s .allocated >>= fun _ => .ok s.stampFinder)

/-- MX_ALIGN (R205). -/
def execMxAlign (s : State) : Host.Outcome State Fault Refusal :=
  complete s (requirePhase s .finderDone >>= fun _ => .ok s.stampAlign)

/-- MX_TIMING (R207). -/
def execMxTiming (s : State) : Host.Outcome State Fault Refusal :=
  complete s (requirePhase s .alignDone >>= fun _ => .ok s.stampTiming)

/-- MX_FORMAT (R210): SequenceError is checked first. -/
def execMxFormat (s : State) : Host.Outcome State Fault Refusal :=
  complete s (requirePhase s .timingDone >>= fun _ => s.stampFormat)

/-- MX_PLACE (R215): SequenceError, then RangeError, then GridIncomplete. -/
def execMxPlace (src count : Nat) (s : State) : Host.Outcome State Fault Refusal :=
  complete s (requirePhase s .formatDone >>= fun _ => s.placeCodewords src count)

/-- `if r >= N or c >= N: raise IndexError((r << 16) or c)` (R226, R227). -/
def requireInside (s : State) (r c : Nat) : Except Raise Unit :=
  if s.sideN ≤ r ∨ s.sideN ≤ c then .error ⟨.indexError, (r <<< 16) ||| c⟩ else .ok ()

/-- MX_READ (R226): any phase from 1 on. -/
def execMxRead (r c : Nat) (s : State) : Host.Outcome State Fault Refusal :=
  complete s <|
    if s.phase = .none then .error ⟨.sequenceError, 0⟩
    else requireInside s r c >>= fun _ => .ok (s.setResult (cellAt s.sideN s.grid r c).code)

/-- MX_ISDARK (R227): only the finished grid. -/
def execMxIsdark (r c : Nat) (s : State) : Host.Outcome State Fault Refusal :=
  complete s <|
    requirePhase s .done >>= fun _ => requireInside s r c >>= fun _ =>
      .ok (s.setResult (if cellAt s.sideN s.grid r c = .dark then 1#32 else 0#32))

/-- MX_SIDE (R228): only the finished grid. -/
def execMxSide (s : State) : Host.Outcome State Fault Refusal :=
  complete s (requirePhase s .done >>= fun _ => .ok (s.setResult (zext32 s.side)))

end Sys2Proof.Machine
end

