-- ==== Sys2Proof/Machine/Packer.lean ====
section
/-! DEFINITION. The bit-stream packer, an MSB-first accumulator (41_packer.md). -/

namespace Sys2Proof.Machine

/-- `append_bits(v, w)` (R131) on a stream of at most `capacity` bits (BS_BITS): "The capacity check comes before any write". -/
def appendBits (capacity : Nat) (bs : List Bool) (v w : Nat) : Except Raise (List Bool) :=
  if capacity < bs.length + w then .error ⟨.rangeError, bs.length + w⟩ else .ok (bs ++ bitsMsb v w)

/-- BS_CLEAR (R130): BS_LEN <- 0. -/
def execBsClear (s : State) : Host.Outcome State Fault Refusal := complete s (.ok { s with bs := [] })

/-- BS_PUT (R132): width 0 to 32, else IllegalCommand(0x11). -/
def execBsPut (width : Nat) (value : Word) (s : State) : Host.Outcome State Fault Refusal :=
  complete s <|
    if 32 < width then .error ⟨.illegalCommand, 0x11⟩
    else
      match appendBits s.params.bsBits s.bs value.toNat width with
      | .error e => .error e
      | .ok bs => .ok { s with bs := bs }

/-- BS_PUTBIT (R133). -/
def execBsPutbit (b : Bool) (s : State) : Host.Outcome State Fault Refusal :=
  complete s <|
    match appendBits s.params.bsBits s.bs b.toNat 1 with
    | .error e => .error e
    | .ok bs => .ok { s with bs := bs }

/-- BS_LEN (R134). -/
def execBsLen (s : State) : Host.Outcome State Fault Refusal := complete s (.ok (s.setResult s.bsLen))

/-- BS_GET (R135). -/
def execBsGet (i : Nat) (s : State) : Host.Outcome State Fault Refusal :=
  complete s <|
    match s.bs[i]? with
    | none => .error ⟨.indexError, i⟩
    | some b => .ok (s.setResult (BitVec.ofNat 32 b.toNat))

/-- BS_STORE (R136): the stream's length is checked before the destination range. -/
def execBsStore (dst n : Nat) (s : State) : Host.Outcome State Fault Refusal :=
  complete s <|
    if s.bs.length < 8 * n then .error ⟨.indexError, 8 * n⟩
    else if s.params.cwBytes < dst + n then .error ⟨.rangeError, dst + n⟩
    else .ok { s with cw := s.cw.writeBytes dst (streamBytes s.bs n) }

end Sys2Proof.Machine
end

