-- ==== Sys2Proof/Machine/ReedSolomon.lean ====
section
/-! DEFINITION. The Reed-Solomon encoder: generator polynomials and remainders (43_reed_solomon.md). A polynomial is its
coefficient sequence from the highest power down (00_scope.md R14). -/

namespace Sys2Proof.Machine

/-- `mul_linear(p, r)` (R171): multiply by (x + r); the two sequences are the contributions of x·p and of r·p. -/
def mulLinear (p : List Byte) (r : Byte) : List Byte :=
  List.zipWith (fun hi lo => hi ^^^ lo) (p ++ [0#8]) (0#8 :: p.map (fun c => gfMul c r))

/-- `gen(n)` (R170): the product of (x + α^i) for i in 0..<n, from "the unit polynomial [1]". -/
def genPoly (n : Nat) : List Byte := (List.range n).foldl (fun p i => mulLinear p (gfExp i)) [0x01#8]

/-- XOR a sequence into the front of a buffer, leaving the rest of the buffer. -/
def xorInto : List Byte → List Byte → List Byte
  | x :: xs, y :: ys => (x ^^^ y) :: xorInto xs ys
  | xs, [] => xs
  | [], _ => []

/-- The division of R172 over `len` data positions. The buffer's head is the current position; after its step it is
never read again, so it is dropped (log 16). -/
def divide (g : List Byte) : Nat → List Byte → List Byte
  | 0, buf => buf
  | _ + 1, [] => []
  | len + 1, c :: rest =>
    divide g len (if c = 0#8 then rest else xorInto rest (g.tail.map (fun k => gfMul k c)))

/-- `rs_rem(data, n)` (R172). -/
def rsRem (data : List Byte) (n : Nat) : List Byte :=
  divide (genPoly n) data.length (data ++ List.replicate n 0#8)

/-- GEN[0..n] <- gen(n) and GEN_DEG <- n (R173). -/
def State.loadGenerator (s : State) (n : Nat) : State :=
  { s with gen := s.gen.writeBytes 0 (genPoly n), genDeg := BitVec.ofNat 8 n }

/-- RS_GEN (R173). -/
def execRsGen (n : Nat) (s : State) : Host.Outcome State Fault Refusal := complete s (.ok (s.loadGenerator n))

/-- GEN_RD (R174). -/
def execGenRd (k : Nat) (s : State) : Host.Outcome State Fault Refusal :=
  complete s <|
    if s.genDeg.toNat < k then .error ⟨.indexError, k⟩ else .ok (s.setResult (zext32 (s.genByte k)))

/-- RS_ENC (R175), with the snapshot of its source (R176). -/
def execRsEnc (n src len dst : Nat) (s : State) : Host.Outcome State Fault Refusal :=
  complete s <|
    if s.params.cwBytes < src + len then .error ⟨.rangeError, src + len⟩
    else if s.params.cwBytes < dst + n then .error ⟨.rangeError, dst + n⟩
    else
      .ok { s.loadGenerator n with cw := s.cw.writeBytes dst (rsRem (s.cwBytes src len) n) }

end Sys2Proof.Machine
end

