-- ==== Sys2Proof/Machine/Assembly.lean ====
section
/-! DEFINITION. Codeword assembly and the one-shot encode (46_assembly.md). D = CAP_DATA, E = CAP_EC, T = CAP_TOTAL. -/

namespace Sys2Proof.Machine

/-- L = 4 + w + 8·n, the bit length after mode, length and payload (R240). -/
def State.payloadBits (s : State) : Nat := 4 + s.params.lenWidth s.cfgVersion.toNat + 8 * s.plLen.toNat

/-- `while reg[BS_LEN] mod 8 != 0: append_bits(0, 1)` (R240); 7 rounds suffice (log 16). -/
def padToByte (capacity : Nat) : Nat → List Bool → Except Raise (List Bool)
  | 0, bs => .ok bs
  | fuel + 1, bs => if bs.length % 8 ≠ 0 then appendBits capacity bs 0 1 >>= padToByte capacity fuel else .ok bs

/-- Pad byte j: "(0xEC, 0x11) alternately" (R240). -/
def padByte (j : Nat) : Nat := if j % 2 = 0 then 0xEC else 0x11

/-- `while reg[BS_LEN] < 8·D`: append pad byte j, j + 1, … (R240); D rounds suffice (log 16). -/
def padBytes (capacity D : Nat) : Nat → Nat → List Bool → Except Raise (List Bool)
  | 0, _, bs => .ok bs
  | fuel + 1, j, bs =>
    if bs.length < 8 * D then appendBits capacity bs (padByte j) 8 >>= padBytes capacity D fuel (j + 1) else .ok bs

/-- `for i in 0..<n: append_bits(MemRead(PL, i, 1), 8)` (R240). -/
def appendBytes (capacity : Nat) : List Byte → List Bool → Except Raise (List Bool)
  | [], bs => .ok bs
  | b :: bytes, bs => appendBits capacity bs b.toNat 8 >>= appendBytes capacity bytes

/-- The terminator "if room remains" (R240, R242). -/
def appendTerminator (capacity D : Nat) (bs : List Bool) : Except Raise (List Bool) :=
  if bs.length + 4 ≤ 8 * D then appendBits capacity bs 0 4 else .ok bs

/-- The data bit stream of R240: mode indicator, length field of w bits, payload, terminator, bit padding, pad bytes. -/
def dataStream (p : Params) (payload : List Byte) (w D : Nat) : Except Raise (List Bool) :=
  appendBits p.bsBits [] p.modeIndicator.toNat 4 >>= fun bs =>
  appendBits p.bsBits bs payload.length w >>= fun bs =>
  appendBytes p.bsBits payload bs >>= fun bs =>
  appendTerminator p.bsBits D bs >>= fun bs =>
  padToByte p.bsBits 7 bs >>= fun bs =>
  padBytes p.bsBits D D 0 bs

/-- `assemble()` (R240). -/
def State.assembleCodewords (s : State) : Except Raise State :=
  if s.cfgValid = false then .error ⟨.unsupportedConfiguration, 0⟩
  else if 8 * s.capData.toNat < s.payloadBits then .error ⟨.payloadTooLarge, s.payloadBits⟩
  else
    dataStream s.params (s.plBytes s.plLen.toNat) (s.params.lenWidth s.cfgVersion.toNat) s.capData.toNat >>= fun bs =>
    let data := streamBytes bs s.capData.toNat
    .ok { s.loadGenerator s.capEc.toNat with
      bs := bs
      cw := (s.cw.writeBytes 0 data).writeBytes s.capData.toNat (rsRem data s.capEc.toNat) }

/-- ASSEMBLE (R245): the result is T. -/
def execAssemble (s : State) : Host.Outcome State Fault Refusal :=
  complete s (s.assembleCodewords >>= fun t => .ok (t.setResult s.capTotal))

/-- The matrix part of ENCODE (R246): the five phases on a fresh grid, over CW[0..T−1]. -/
def State.buildGrid (s : State) : Except Raise State :=
  s.allocGrid >>= fun t => t.stampFinder.stampAlign.stampTiming.stampFormat >>= fun t =>
    t.placeCodewords 0 s.capTotal.toNat

/-- ENCODE (R246): accepted in every PHASE; the result is SIDE. -/
def execEncode (s : State) : Host.Outcome State Fault Refusal :=
  complete s (s.assembleCodewords >>= fun t => t.buildGrid >>= fun g => .ok (g.setResult (zext32 g.side)))

end Sys2Proof.Machine
end

