-- ==== Sys2Proof/Machine/Control.lean ====
section
/-! DEFINITION. Control, configuration and memory-access commands (40_control.md). -/

namespace Sys2Proof.Machine

/-- NOP (R110). -/
def execNop (s : State) : Host.Outcome State Fault Refusal := complete s (.ok s)

/-- `cfg_lookup(ver, ecl)` (R111): the usable Capacity Entry, or none where it fails. -/
def cfgLookup (p : Params) (t : Tables) (ver : Nat) (ecl : BitVec 2) : Option CapEntry :=
  if ver < 1 ∨ p.maxVersion < ver then none
  else
    match capAt t ver ecl with
    | none => none
    | some e =>
      if e.blocks ≠ 1 then none
      else if e.total < e.ec then none
      else if p.cwBytes < e.total then none
      else if Config.genMax < e.ec then none
      else if p.bsBits < 8 * (e.total - e.ec) then none
      else some e

/-- The error information of a failing configuration: `(ver << 8) | ecl` (R111). -/
def cfgInfo (ver : Nat) (ecl : BitVec 2) : Nat := (ver <<< 8) ||| ecl.toNat

/-- CFG_SET's writes for a usable entry (R112). PHASE <- 0: "the previous grid, if any, is discarded". -/
def State.configure (s : State) (ver : Nat) (ecl : BitVec 2) (e : CapEntry) : State :=
  { s with
    cfgVersion := BitVec.ofNat 8 ver
    cfgEcl := ecl
    capTotal := BitVec.ofNat 32 e.total
    capEc := BitVec.ofNat 32 e.ec
    capBlocks := BitVec.ofNat 32 e.blocks
    capData := BitVec.ofNat 32 (e.total - e.ec)
    side := BitVec.ofNat 8 (4 * ver + 17)
    cfgValid := true
    phase := .none
    grid := [] }

/-- CFG_SET (R112). -/
def execCfgSet (ecl : BitVec 2) (ver : Nat) (s : State) : Host.Outcome State Fault Refusal :=
  complete s <|
    match cfgLookup s.params s.tables ver ecl with
    | none => .error ⟨.unsupportedConfiguration, cfgInfo ver ecl⟩
    | some e => .ok (s.configure ver ecl e)

/-- CFG_MASK (R113): "No range check is made here." -/
def execCfgMask (m : Byte) (s : State) : Host.Outcome State Fault Refusal :=
  complete s (.ok { s with cfgMask := m })

/-- REG_READ (R114): the value of the register before this command; a reserved number raises IllegalCommand(0x03). -/
def execRegRead (n : Nat) (s : State) : Host.Outcome State Fault Refusal :=
  complete s <|
    match s.readReg n with
    | none => .error ⟨.illegalCommand, 0x03⟩
    | some v => .ok (s.setResult v)

/-- CLR_STICKY (R115). -/
def execClrSticky (s : State) : Host.Outcome State Fault Refusal :=
  complete s (.ok { s with sticky := false })

/-- CW_WR (R116). -/
def execCwWr (v : Byte) (a : Nat) (s : State) : Host.Outcome State Fault Refusal :=
  complete s <|
    if s.params.cwBytes ≤ a then .error ⟨.rangeError, a⟩ else .ok { s with cw := s.cw.write a v }

/-- CW_RD (R117). -/
def execCwRd (a : Nat) (s : State) : Host.Outcome State Fault Refusal :=
  complete s <|
    if s.params.cwBytes ≤ a then .error ⟨.rangeError, a⟩ else .ok (s.setResult (zext32 (s.cwByte a)))

/-- PL_WR (R118): "writing PL does not change PL_LEN". -/
def execPlWr (v : Byte) (a : Nat) (s : State) : Host.Outcome State Fault Refusal :=
  complete s <|
    if s.params.plBytes ≤ a then .error ⟨.rangeError, a⟩ else .ok { s with pl := s.pl.write a v }

/-- PL_RD (R119). -/
def execPlRd (a : Nat) (s : State) : Host.Outcome State Fault Refusal :=
  complete s <|
    if s.params.plBytes ≤ a then .error ⟨.rangeError, a⟩ else .ok (s.setResult (zext32 (s.plByte a)))

/-- PL_SETLEN (R120): n = PL_BYTES is legal. -/
def execPlSetlen (n : Nat) (s : State) : Host.Outcome State Fault Refusal :=
  complete s <|
    if s.params.plBytes < n then .error ⟨.rangeError, n⟩ else .ok { s with plLen := BitVec.ofNat 16 n }

end Sys2Proof.Machine
end

