-- ==== Sys2Proof/Machine/Dispatch.lean ====
section
/-! DEFINITION. The meaning of every command: one arm per constructor. -/

namespace Sys2Proof.Machine

def exec (i : Instr) (s : State) : Host.Outcome State Fault Refusal :=
  match i with
  | .nop => Sys2Proof.Machine.execNop s
  | .cfgSet ecl version => Sys2Proof.Machine.execCfgSet ecl version s
  | .cfgMask m => Sys2Proof.Machine.execCfgMask m s
  | .regRead n => Sys2Proof.Machine.execRegRead n s
  | .clrSticky => Sys2Proof.Machine.execClrSticky s
  | .cwWr v a => Sys2Proof.Machine.execCwWr v a s
  | .cwRd a => Sys2Proof.Machine.execCwRd a s
  | .plWr v a => Sys2Proof.Machine.execPlWr v a s
  | .plRd a => Sys2Proof.Machine.execPlRd a s
  | .plSetlen n => Sys2Proof.Machine.execPlSetlen n s
  | .bsClear => Sys2Proof.Machine.execBsClear s
  | .bsPut width value => Sys2Proof.Machine.execBsPut width value s
  | .bsPutbit b => Sys2Proof.Machine.execBsPutbit b s
  | .bsLen => Sys2Proof.Machine.execBsLen s
  | .bsGet k => Sys2Proof.Machine.execBsGet k s
  | .bsStore dst n => Sys2Proof.Machine.execBsStore dst n s
  | .gfMul a b => Sys2Proof.Machine.execGfMul a b s
  | .gfExp k => Sys2Proof.Machine.execGfExp k s
  | .gfLog a => Sys2Proof.Machine.execGfLog a s
  | .rsGen n => Sys2Proof.Machine.execRsGen n s
  | .genRd k => Sys2Proof.Machine.execGenRd k s
  | .rsEnc n src len dst => Sys2Proof.Machine.execRsEnc n src len dst s
  | .fmtEnc d => Sys2Proof.Machine.execFmtEnc d s
  | .maskEval p row col => Sys2Proof.Machine.execMaskEval p row col s
  | .mxAlloc => Sys2Proof.Machine.execMxAlloc s
  | .mxFinder => Sys2Proof.Machine.execMxFinder s
  | .mxAlign => Sys2Proof.Machine.execMxAlign s
  | .mxTiming => Sys2Proof.Machine.execMxTiming s
  | .mxFormat => Sys2Proof.Machine.execMxFormat s
  | .mxPlace src count => Sys2Proof.Machine.execMxPlace src count s
  | .mxRead r c => Sys2Proof.Machine.execMxRead r c s
  | .mxIsdark r c => Sys2Proof.Machine.execMxIsdark r c s
  | .mxSide => Sys2Proof.Machine.execMxSide s
  | .assemble => Sys2Proof.Machine.execAssemble s
  | .encode => Sys2Proof.Machine.execEncode s

end Sys2Proof.Machine
end

