-- ==== Sys2Proof/Machine/Step.lean ====
section
/-! DEFINITION. One step: the device takes the host's next event (20_memory.md R60, 70_reset_and_hazards.md R312). -/

namespace Sys2Proof.Machine

/-- Execute a command word: decode, then run the command, or reject the word (30_encoding.md R84). -/
def runWord (w : CommandWord) (s : State) : Host.Outcome State Fault Refusal :=
  match decode w with
  | .ok i => exec i s
  | .error _ => rejectWord (fieldOp w) s

/-- One step. With no event pending the device "is idle between commands and keeps all state while idle"
(60_exceptions.md R284). -/
def step (s : State) : Host.Outcome State Fault Refusal :=
  match s.port with
  | [] => .next s
  | .command w :: rest => runWord w { s with port := rest }
  | .reset :: rest => .next (State.afterReset { s with port := rest })
  | .resetDuring _ :: rest => .next (State.afterReset { s with port := rest })

/-- The same state with a command word (bits from `nbits` up are 0) as the host's next event, so that the next step
runs it. A program is not in any memory of the device: the host issues it (log 1). -/
def State.withFetchWord (s : State) (nbits w : Nat) : State :=
  { s with port := .command (BitVec.ofNat 64 (w % 2 ^ nbits)) :: s.port }

end Sys2Proof.Machine
end

