-- ==== Sys2Proof/Machine/Assembler.lean ====
section
/-! DEFINITION. The assembly text of the spec (30_encoding.md R87) and its pseudo-instructions (R88). The assembler is
host software; the device sees only the words. -/

namespace Sys2Proof.Machine

/-! ## Tokens of one line -/

/-- A token of a line: a name, a number, a quoted string's bytes, or one of the two separators. -/
inductive Token
  | name (cs : List Char)
  | num (n : Nat)
  | str (bytes : List Byte)
  | comma
  | colon
  deriving DecidableEq, Repr

/-- What the lexer has read of a token that may go on. -/
inductive Pending
  | idle
  | word (cs : List Char)
  | quoted (cs : List Char)
  deriving DecidableEq, Repr

/-- The value of a digit in base 10 or 16. -/
def digitValue (base : Nat) (c : Char) : Option Nat :=
  let n := c.toNat
  let v := if 48 ≤ n ∧ n ≤ 57 then n - 48 else if 65 ≤ n ∧ n ≤ 70 then n - 55 else if 97 ≤ n ∧ n ≤ 102 then n - 87 else 16
  if v < base then some v else none

/-- Digits, most significant first, onto a value read so far. -/
def digitsValue (base : Nat) : List Char → Nat → Option Nat
  | [], acc => some acc
  | c :: cs, acc =>
    match digitValue base c with
    | none => none
    | some d => digitsValue base cs (acc * base + d)

/-- A number: "Numbers are decimal, or hexadecimal with `0x`" (R87). -/
def numberValue : List Char → Option Nat
  | '0' :: 'x' :: c :: cs => digitsValue 16 (c :: cs) 0
  | c :: cs => digitsValue 10 (c :: cs) 0
  | [] => none

/-- The token of a finished word: a number if it starts with a digit, else a name. The characters are in reverse. -/
def wordToken (reversed : List Char) : Option Token :=
  match reversed.reverse with
  | [] => none
  | c :: cs =>
    if 48 ≤ c.toNat ∧ c.toNat ≤ 57 then (numberValue (c :: cs)).map Token.num else some (.name (c :: cs))

/-- The tokens of a line, in reverse; a `;` starts a comment (R87). A line that is no sequence of tokens gives none. -/
def lexLine : List Char → Pending → List Token → Option (List Token)
  | [], .idle, ts => some ts
  | [], .word cs, ts => (wordToken cs).map (· :: ts)
  | [], .quoted _, _ => none
  | c :: rest, .quoted cs, ts =>
    if c = '"' then lexLine rest .idle (.str (cs.reverse.map (fun ch => BitVec.ofNat 8 ch.toNat)) :: ts)
    else if c.toNat < 128 then lexLine rest (.quoted (c :: cs)) ts
    else none
  | c :: rest, .idle, ts =>
    if c = ';' then some ts
    else if c = ' ' then lexLine rest .idle ts
    else if c = ',' then lexLine rest .idle (.comma :: ts)
    else if c = ':' then lexLine rest .idle (.colon :: ts)
    else if c = '"' then lexLine rest (.quoted []) ts
    else lexLine rest (.word [c]) ts
  | c :: rest, .word cs, ts =>
    if c = ';' then (wordToken cs).map (· :: ts)
    else if c = ' ' then (wordToken cs).bind fun t => lexLine rest .idle (t :: ts)
    else if c = ',' then (wordToken cs).bind fun t => lexLine rest .idle (.comma :: t :: ts)
    else if c = ':' then (wordToken cs).bind fun t => lexLine rest .idle (.colon :: t :: ts)
    else if c = '"' then none
    else lexLine rest (.word (c :: cs)) ts

/-! ## Commands (R87) -/

/-- Numbers separated by commas. -/
def commaNumbers : List Token → Option (List Nat)
  | [] => some []
  | [.num n] => some [n]
  | .num n :: .comma :: t :: ts => (commaNumbers (t :: ts)).map (n :: ·)
  | _ => none

/-- The command with opcode `op` and these operands, in the order of the syntax (R82, R87), each before its fit is
checked; none for a wrong number of operands. -/
def instrOf (op : Nat) (operands : List Nat) : Option Instr :=
  match op, operands with
  | 0x00, [] => some .nop
  | 0x01, [ecl, version] => if ecl < 2 ^ 2 then some (.cfgSet (BitVec.ofNat 2 ecl) version) else none
  | 0x02, [m] => if m < 2 ^ 8 then some (.cfgMask (BitVec.ofNat 8 m)) else none
  | 0x03, [n] => some (.regRead n)
  | 0x04, [] => some .clrSticky
  | 0x08, [v, a] => if v < 2 ^ 8 then some (.cwWr (BitVec.ofNat 8 v) a) else none
  | 0x09, [a] => some (.cwRd a)
  | 0x0A, [v, a] => if v < 2 ^ 8 then some (.plWr (BitVec.ofNat 8 v) a) else none
  | 0x0B, [a] => some (.plRd a)
  | 0x0C, [n] => some (.plSetlen n)
  | 0x10, [] => some .bsClear
  | 0x11, [width, value] => if value < 2 ^ 32 then some (.bsPut width (BitVec.ofNat 32 value)) else none
  | 0x12, [b] => if b < 2 then some (.bsPutbit (decide (b = 1))) else none
  | 0x13, [] => some .bsLen
  | 0x14, [i] => some (.bsGet i)
  | 0x15, [dst, n] => some (.bsStore dst n)
  | 0x20, [a, b] => if a < 2 ^ 8 ∧ b < 2 ^ 8 then some (.gfMul (BitVec.ofNat 8 a) (BitVec.ofNat 8 b)) else none
  | 0x21, [i] => some (.gfExp i)
  | 0x22, [a] => if a < 2 ^ 8 then some (.gfLog (BitVec.ofNat 8 a)) else none
  | 0x30, [n] => some (.rsGen n)
  | 0x31, [k] => some (.genRd k)
  | 0x32, [n, src, len, dst] => some (.rsEnc n src len dst)
  | 0x40, [d] => if d < 2 ^ 5 then some (.fmtEnc (BitVec.ofNat 5 d)) else none
  | 0x50, [p, i, j] => some (.maskEval p i j)
  | 0x51, [] => some .mxAlloc
  | 0x52, [] => some .mxFinder
  | 0x53, [] => some .mxAlign
  | 0x54, [] => some .mxTiming
  | 0x55, [] => some .mxFormat
  | 0x56, [src, count] => some (.mxPlace src count)
  | 0x57, [r, c] => some (.mxRead r c)
  | 0x58, [r, c] => some (.mxIsdark r c)
  | 0x59, [] => some .mxSide
  | 0x60, [] => some .assemble
  | 0x61, [] => some .encode
  | _, _ => none

/-- A command by its mnemonic: "It refuses an operand that does not fit its sub-field" (R87). -/
def commandOf (mnemonic : List Char) (operands : List Nat) : Option Instr :=
  match opTable.find? (fun r => r.mnemonic.toList == mnemonic) with
  | none => none
  | some row => (instrOf row.op.toNat operands).filter (fun i => i.wellFormed)

/-! ## Pseudo-instructions (R88) -/

/-- The pseudo-instructions. -/
inductive Pseudo
  /-- `PL_LOAD b0, b1, …` -/
  | plLoad (bytes : List Byte)
  /-- `CW_LOAD addr: b0, b1, …` -/
  | cwLoad (addr : Nat) (bytes : List Byte)
  /-- `BUILD src, count` -/
  | build (src count : Nat)
  /-- `RD name`, by the register's number -/
  | rd (n : Nat)
  deriving DecidableEq, Repr

/-- "Each expands to the listed commands, in order" (R88). -/
def Pseudo.expand : Pseudo → List Instr
  | .plLoad bytes => bytes.zipIdx.map (fun (b, i) => .plWr b i) ++ [.plSetlen bytes.length]
  | .cwLoad addr bytes => bytes.zipIdx.map (fun (b, i) => .cwWr b (addr + i))
  | .build src count => [.mxAlloc, .mxFinder, .mxAlign, .mxTiming, .mxFormat, .mxPlace src count]
  | .rd n => [.regRead n]

/-- The register names in the order of their numbers (10_state.md R24). -/
def registerNames : List String :=
  ["STATUS", "RESULT", "ERR_INFO", "CFG_VERSION", "CFG_ECL", "CFG_MASK", "CAP_TOTAL", "CAP_EC", "CAP_BLOCKS"] ++
  ["CAP_DATA", "SIDE", "BS_LEN", "PL_LEN", "GEN_DEG", "BUILD_MASK", "PLACE_CELLS", "PLACE_BITS", "ID"]

/-- A sequence of bytes: numbers separated by commas, or one quoted string, which "stands for its bytes" (R88). DESIGN
CHOICE (log 19): the sequence may be empty (`PL_LOAD` alone is `PL_SETLEN 0`, `CW_LOAD addr:` alone is no command); a
string stands alone, not among other bytes; and it may stand in CW_LOAD as in PL_LOAD. -/
def byteList (ts : List Token) : Option (List Byte) :=
  match ts with
  | [.str bytes] => some bytes
  | _ => (commaNumbers ts).bind fun ns => if ns.all (· < 2 ^ 8) then some (ns.map (BitVec.ofNat 8)) else none

/-- A pseudo-instruction by its name and the tokens after it. -/
def pseudoOf (name : List Char) (ts : List Token) : Option Pseudo :=
  if name = "PL_LOAD".toList then (byteList ts).map Pseudo.plLoad
  else if name = "CW_LOAD".toList then
    match ts with
    | .num addr :: .colon :: bytes => (byteList bytes).map (Pseudo.cwLoad addr)
    | _ => none
  else if name = "BUILD".toList then
    match ts with
    | [.num src, .comma, .num count] => some (.build src count)
    | _ => none
  else if name = "RD".toList then
    match ts with
    | [.name reg] => (registerNames.findIdx? (fun r => r.toList == reg)).map Pseudo.rd
    | _ => none
  else none

/-- The commands of one line: none of a blank or comment line, one of a command, several of a pseudo-instruction. -/
def lineCommands (line : List Char) : Option (List Instr) :=
  match (lexLine line .idle []).map List.reverse with
  | none => none
  | some [] => some []
  | some (.name cs :: ts) =>
    match pseudoOf cs ts with
    | some p => if p.expand.all (fun i => i.wellFormed) then some p.expand else none
    | none => (commaNumbers ts).bind fun ns => (commandOf cs ns).map (fun i => [i])
  | some _ => none

/-- Assemble one line into command words (R87: "The assembler places each operand in its field"). -/
def assembleLine (line : String) : Option (List CommandWord) := (lineCommands line.toList).map (List.map encode)

/-- Assemble the lines of a program, in order. -/
def assembleLines : List String → Option (List CommandWord)
  | [] => some []
  | l :: ls => (assembleLine l).bind fun ws => (assembleLines ls).map (ws ++ ·)

end Sys2Proof.Machine
end

