-- ==== Sys2Proof/Machine/Session.lean ====
section
/-! DEFINITION. The host's side of the port (70_reset_and_hazards.md R311, R312): issuing words and reading responses. -/

namespace Sys2Proof.Machine

/-- The state with these command words waiting at the port after what already waits there (20_memory.md R60). -/
def State.issue (s : State) (ws : List CommandWord) : State :=
  { s with port := s.port ++ ws.map HostEvent.command }

/-- The state after one command word; the word's response is that state's `response` (R312). No word stops the machine,
so the last line is never reached. -/
def afterWord (s : State) (w : CommandWord) : State :=
  match runWord w s with
  | .next t => t
  | _ => s

/-- `run(ws)`: "folds step over ws" (R312). -/
def runWords (ws : List CommandWord) (s : State) : State := ws.foldl afterWord s

/-- The responses to a list of words, in order (10_state.md R21). -/
def responses : List CommandWord → State → List Response
  | [], _ => []
  | w :: ws, s => (afterWord s w).response :: responses ws (afterWord s w)

end Sys2Proof.Machine
end

