-- ==== Sys2Proof/Safety.lean ====
section
/-! DEFINITION. What claims are stated in: the failed state of 60_exceptions.md R273, the invariants of 10_state.md R51,
the writer tables of R24 and R42, and the spec's mathematics in a form of its own (carry-less products, polynomial values,
the literal remainder loop). -/

namespace Sys2Proof.Machine

/-! ## Ends of commands -/

/-- The state after a command that raised error `e` with information `x` in `s` (R273): nothing else changes. -/
def State.failed (s : State) (e : ErrorKind) (x : Nat) : State :=
  { s with err := some e, errInfo := BitVec.ofNat 32 x, sticky := true }

/-- "A field or sub-field a command does not use must be zero" (30_encoding.md R81): a word with this OP and a non-zero
bit under these masks of A, B and C raises IllegalCommand(OP) and has no other effect. -/
def UnusedBitsRaise (op : Byte) (maskA : Byte) (maskB : BitVec 16) (maskC : Word) : Prop :=
  ∀ (w : CommandWord) (s : State), fieldOp w = op →
    fieldA w &&& maskA ≠ 0#8 ∨ fieldB w &&& maskB ≠ 0#16 ∨ fieldC w &&& maskC ≠ 0#32 →
    runWord w s = .next (s.failed .illegalCommand op.toNat)

/-! ## Writers (10_state.md R24, R42), by opcode -/

/-- The commands that define a result (R21): REG_READ, CW_RD, PL_RD, BS_LEN, BS_GET, GF_MUL, GF_EXP, GF_LOG, GEN_RD,
FMT_ENC, MASK_EVAL, MX_READ, MX_ISDARK, MX_SIDE, ASSEMBLE, ENCODE. -/
def resultOps : List Byte :=
  [0x03#8, 0x09#8, 0x0B#8, 0x13#8, 0x14#8, 0x20#8, 0x21#8, 0x22#8, 0x31#8, 0x40#8] ++
  [0x50#8, 0x57#8, 0x58#8, 0x59#8, 0x60#8, 0x61#8]

/-- The column "written by" of R24 for the registers that not every command writes. -/
def registerWriters : Nat → List Byte
  | 1 => resultOps
  | 5 => [0x02#8]
  | 11 => [0x10#8, 0x11#8, 0x12#8, 0x60#8, 0x61#8]
  | 12 => [0x0C#8]
  | 13 => [0x30#8, 0x32#8, 0x60#8, 0x61#8]
  | 14 => [0x55#8, 0x61#8]
  | 15 => [0x56#8, 0x61#8]
  | 16 => [0x56#8, 0x61#8]
  | 17 => []
  | _ => [0x01#8]

/-- The commands of R42 that write GEN. -/
def genWriters : List Byte := [0x30#8, 0x32#8, 0x60#8, 0x61#8]

/-- The commands of R42 that write BS. -/
def bsWriters : List Byte := [0x11#8, 0x12#8, 0x60#8, 0x61#8]

/-- The commands of R42 that write CW. -/
def cwWriters : List Byte := [0x08#8, 0x15#8, 0x32#8, 0x60#8, 0x61#8]

/-- The commands of R42 that write PL. -/
def plWriters : List Byte := [0x0A#8]

/-- The commands of R42 that write GRID: MX_ALLOC, the phases, ENCODE. -/
def gridWriters : List Byte := [0x51#8, 0x52#8, 0x53#8, 0x54#8, 0x55#8, 0x56#8, 0x61#8]

/-! ## The assembly text (30_encoding.md R82, R87) -/

/-- A command's operands in the order in which its line writes them. -/
def syntaxOperands : Instr → List Nat
  | .nop => []
  | .cfgSet ecl version => [ecl.toNat, version]
  | .cfgMask m => [m.toNat]
  | .regRead n => [n]
  | .clrSticky => []
  | .cwWr v a => [v.toNat, a]
  | .cwRd a => [a]
  | .plWr v a => [v.toNat, a]
  | .plRd a => [a]
  | .plSetlen n => [n]
  | .bsClear => []
  | .bsPut width value => [width, value.toNat]
  | .bsPutbit b => [b.toNat]
  | .bsLen => []
  | .bsGet i => [i]
  | .bsStore dst n => [dst, n]
  | .gfMul a b => [a.toNat, b.toNat]
  | .gfExp i => [i]
  | .gfLog a => [a.toNat]
  | .rsGen n => [n]
  | .genRd k => [k]
  | .rsEnc n src len dst => [n, src, len, dst]
  | .fmtEnc d => [d.toNat]
  | .maskEval p i j => [p, i, j]
  | .mxAlloc => []
  | .mxFinder => []
  | .mxAlign => []
  | .mxTiming => []
  | .mxFormat => []
  | .mxPlace src count => [src, count]
  | .mxRead r c => [r, c]
  | .mxIsdark r c => [r, c]
  | .mxSide => []
  | .assemble => []
  | .encode => []

/-! ## Invariants -/

/-- The invariants of 10_state.md R51, clause by clause. -/
structure State.SpecInv (s : State) : Prop where
  phase_configured : 1 ≤ s.phase.code.toNat → s.cfgValid = true
  one_block : s.cfgValid = true → s.capBlocks = 1#32
  ec_le_total : s.cfgValid = true → s.capEc.toNat ≤ s.capTotal.toNat
  total_fits : s.cfgValid = true → s.capTotal.toNat ≤ s.params.cwBytes
  ec_fits : s.cfgValid = true → s.capEc.toNat ≤ 255
  data_fits : s.cfgValid = true → 8 * s.capData.toNat ≤ s.params.bsBits
  version_range : s.cfgValid = true → 1 ≤ s.cfgVersion.toNat ∧ s.cfgVersion.toNat ≤ s.params.maxVersion
  side_value : s.cfgValid = true → s.side.toNat = 4 * s.cfgVersion.toNat + 17
  ready_iff : s.status.getLsbD 6 = true ↔ s.phase.code.toNat = 6
  finished : s.phase = .done → ∀ r c, r < s.sideN → c < s.sideN → cellAt s.sideN s.grid r c ≠ .unset
  mask_range : s.buildMask.toNat ≤ 7
  stream_fits : s.bs.length ≤ s.params.bsBits
  payload_fits : s.plLen.toNat ≤ s.params.plBytes
  gen_head : s.genByte 0 = 0x01#8

/-- What the registers and the arrays hold beside R51: CAP_* and SIDE (R28, R33), the sizes of the arrays (R42, R48), the
canonical form of the storage arrays (log 4), the error report (R26, R27, R30), and the constraints on the parameters
(00_scope.md R9). -/
structure State.HoldsInv (s : State) : Prop where
  params_legal : s.params.Legal
  data_value : s.cfgValid = true → s.capData.toNat = s.capTotal.toNat - s.capEc.toNat
  entry : s.cfgValid = true →
    capAt s.tables s.cfgVersion.toNat s.cfgEcl = some ⟨s.capTotal.toNat, s.capEc.toNat, s.capBlocks.toNat⟩
  unconfigured : s.cfgValid = false →
    s.cfgVersion = 0#8 ∧ s.cfgEcl = 0#2 ∧ s.capTotal = 0#32 ∧ s.capEc = 0#32 ∧ s.capBlocks = 0#32 ∧ s.capData = 0#32 ∧
      s.side = 0#8
  gen_wf : s.gen.wf = true
  cw_wf : s.cw.wf = true
  pl_wf : s.pl.wf = true
  gen_range : ∀ p ∈ s.gen, p.1 < 256
  cw_range : ∀ p ∈ s.cw, p.1 < s.params.cwBytes
  pl_range : ∀ p ∈ s.pl, p.1 < s.params.plBytes
  grid_none : s.phase = .none → s.grid = []
  grid_size : s.phase ≠ .none → s.grid.length = s.sideN * s.sideN
  error_sticky : s.err ≠ none → s.sticky = true
  success_info : s.err = none → s.errInfo = 0#32

/-- How far a build has filled the grid (10_state.md R34, 45_matrix.md R217): a fresh grid is all UNSET; column 6 is set
at the separators from FINDER_DONE on, and everywhere from TIMING_DONE on. -/
structure State.BuildInv (s : State) : Prop where
  fresh : s.phase = .allocated → ∀ r c, cellAt s.sideN s.grid r c = .unset
  separators : 2 ≤ s.phase.code.toNat →
    ∀ r, r < s.sideN → r ≤ 7 ∨ s.sideN ≤ r + 8 → cellAt s.sideN s.grid r 6 ≠ .unset
  timing_column : 4 ≤ s.phase.code.toNat → ∀ r, r < s.sideN → cellAt s.sideN s.grid r 6 ≠ .unset

/-- The invariant of the machine. -/
structure State.Inv (s : State) : Prop where
  spec  : s.SpecInv
  holds : s.HoldsInv
  build : s.BuildInv

/-! ## The spec's mathematics -/

/-- Carry-less multiplication of two bytes: the xor of a shifted to every set bit of b (42_galois.md R156 (e)). -/
def carrylessProduct (a b : Nat) : Nat :=
  (List.range 8).foldl (fun sum k => if b.testBit k then sum ^^^ (a <<< k) else sum) 0

/-- Reduction modulo 0x11D of a value below 2^15, from bit 14 down to bit 8 (R150). -/
def reduceModulo (v : Nat) : Nat :=
  (List.range 7).foldl (fun v i => if v.testBit (14 - i) then v ^^^ (0x11D <<< (6 - i)) else v) v

/-- The value of a polynomial, highest power first, at a field element (43_reed_solomon.md R177). -/
def polyValue (p : List Byte) (x : Byte) : Byte := p.foldl (fun acc c => gfMul acc x ^^^ c) 0#8

/-- One inner loop of R172: for k in 0..n, buf[i + k] <- buf[i + k] xor gfmul(g[k], c). -/
def xorWindow (g : List Byte) (c : Byte) (n i : Nat) (buf : List Byte) : List Byte :=
  (List.range (n + 1)).foldl (fun b k => b.set (i + k) (b.getD (i + k) 0#8 ^^^ gfMul (g.getD k 0#8) c)) buf

/-- `rs_rem(data, n)` as R172's pseudocode writes it, on the whole buffer. -/
def rsRemLiteral (data : List Byte) (n : Nat) : List Byte :=
  ((List.range data.length).foldl
      (fun buf i => if buf.getD i 0#8 = 0#8 then buf else xorWindow (genPoly n) (buf.getD i 0#8) n i buf)
      (data ++ List.replicate n 0#8)).drop data.length

end Sys2Proof.Machine
end

