-- ==== Sys2Proof/Certificates/Slice0/Obligations.lean ====
section
/-! DEFINITION. The statements for the provers. A result is stated as the whole next state: what a record update does not
name is unchanged. -/

section
open Sys2Proof Sys2Proof.Machine

/-! ## Encoding (30_encoding.md) -/

/-- Decoding the word of a well-formed command gives the command back, every operand at every value its field admits
(R80, R82, R84). -/
def Obligations.DecodeInvertsEncode : Prop := ∀ i : Instr, WellFormed i → decode (encode i) = .ok i

/-- A word that decodes is the word of the command it decodes to, which is well-formed: no bit is dropped (R81, R84). -/
def Obligations.EncodeInvertsDecode : Prop :=
  ∀ (w : CommandWord) (i : Instr), decode w = .ok i → WellFormed i ∧ encode i = w

/-- R84: a word is exactly one command of the opcode map, and runs it on the word's own fields A, B and C, or raises
IllegalCommand with ERR_INFO = OP. -/
def Obligations.EveryWordIsOneCommandOrIllegal : Prop :=
  ∀ (w : CommandWord) (s : State),
    (∃ i, decode w = .ok i ∧ runWord w s = exec i s ∧ opcodeOf i = fieldOp w ∧ operandFields i = fieldsOf w ∧
      ∀ row ∈ opTable, w &&& row.mask = row.fixed ↔ row.op = fieldOp w) ∨
    ((∀ row ∈ opTable, w &&& row.mask ≠ row.fixed) ∧
      runWord w s = .next (s.failed .illegalCommand (fieldOp w).toNat))

/-- R85: the reserved values of OP, and a non-zero unused bit of a defined one, raise IllegalCommand with ERR_INFO = OP. -/
def Obligations.ReservedAndUnusedBitsAreIllegal : Prop :=
  (∀ (w : CommandWord) (s : State) (n : Nat), (fieldOp w).toNat = n →
    (0x05 ≤ n ∧ n ≤ 0x07) ∨ (0x0D ≤ n ∧ n ≤ 0x0F) ∨ (0x16 ≤ n ∧ n ≤ 0x1F) ∨ (0x23 ≤ n ∧ n ≤ 0x2F) ∨
      (0x33 ≤ n ∧ n ≤ 0x3F) ∨ (0x41 ≤ n ∧ n ≤ 0x4F) ∨ (0x5A ≤ n ∧ n ≤ 0x5F) ∨ 0x62 ≤ n →
    runWord w s = .next (s.failed .illegalCommand n)) ∧
  (∀ (w : CommandWord) (s : State), ∀ row ∈ opTable, fieldOp w = row.op → w &&& row.mask ≠ row.fixed →
    runWord w s = .next (s.failed .illegalCommand (fieldOp w).toNat))

/-- Words written out from R80, R82 and R83 (most of them the examples of the command rules) decode to their commands. -/
def Obligations.SampleWordsDecode : Prop :=
  decode 0x0101000200000000#64 = .ok (.cfgSet 1#2 2) ∧
  decode 0x0841000500000000#64 = .ok (.cwWr 0x41#8 5) ∧
  decode 0x1104000000000004#64 = .ok (.bsPut 4 4#32) ∧
  decode 0x1201000000000000#64 = .ok (.bsPutbit true) ∧
  decode 0x15000FFC00000004#64 = .ok (.bsStore 4092 4) ∧
  decode 0x205300CA00000000#64 = .ok (.gfMul 0x53#8 0xCA#8) ∧
  decode 0x320200000FFF0002#64 = .ok (.rsEnc 2 0 2 4095) ∧
  decode 0x401F000000000000#64 = .ok (.fmtEnc 31#5) ∧
  decode 0x5000000300000005#64 = .ok (.maskEval 0 3 5) ∧
  decode 0x560000000000001A#64 = .ok (.mxPlace 0 26) ∧
  decode 0x6100000000000000#64 = .ok .encode ∧
  decode 0x0104000100000000#64 = .error .unusedBits ∧
  decode 0x0500000000000000#64 = .error .reservedOpcode

/-! ## The step (20_memory.md R60, 70_reset_and_hazards.md) -/

/-- A step takes the host's next event: a word that decodes to `i` runs `exec i`, with the event taken from the port and
nothing else changed; with no event the device keeps all state. -/
def Obligations.StepRunsDecodedCommand : Prop :=
  (∀ (s : State) (w : CommandWord) (rest : List HostEvent) (i : Instr),
    s.port = .command w :: rest → decode w = .ok i → step s = exec i { s with port := rest }) ∧
  (∀ (s : State) (w : CommandWord) (i : Instr),
    decode w = .ok i → step (s.withFetchWord 64 w.toNat) = exec i s) ∧
  (∀ s : State, s.port = [] → step s = .next s)

/-- R50: the state after reset, through the reads that show it; the unspecified bytes are the draws. -/
def Obligations.ResetStateIsAsSpecified : Prop :=
  (∀ n, n ≤ 16 → State.reset.readReg n = some 0#32) ∧
  State.reset.readReg 17 = some 0x51524331#32 ∧
  State.reset.genByte 0 = 0x01#8 ∧
  (∀ k, 1 ≤ k → State.reset.genByte k = Config.genDraw State.reset.draw k) ∧
  State.reset.bs = [] ∧
  (∀ a, State.reset.cwByte a = Config.cwDraw State.reset.draw a) ∧
  (∀ a, State.reset.plByte a = Config.plDraw State.reset.draw a) ∧
  ∀ r c, exec (.mxRead r c) State.reset = .next (State.reset.failed .sequenceError 0)

/-- R300: after a reset event, between commands or while the device executes any word, every register holds its reset
value, GEN = [1], BS is empty, CW, PL and GEN[1..] hold fresh draws and the grid is not addressable. The external tables
and the parameters stay. That a reset makes a new draw is log 3's choice. -/
def Obligations.ResetEventRestoresResetState : Prop :=
  ∀ (s : State) (rest : List HostEvent) (w : CommandWord),
    s.port = .reset :: rest ∨ s.port = .resetDuring w :: rest →
    ∃ t, step s = .next t ∧
      (∀ n, n ≤ 16 → t.readReg n = some 0#32) ∧ t.readReg 17 = some 0x51524331#32 ∧
      t.genByte 0 = 0x01#8 ∧ (∀ k, 1 ≤ k → t.genByte k = Config.genDraw t.draw k) ∧ t.bs = [] ∧
      (∀ a, t.cwByte a = Config.cwDraw t.draw a) ∧ (∀ a, t.plByte a = Config.plDraw t.draw a) ∧
      (∀ r c, exec (.mxRead r c) t = .next (t.failed .sequenceError 0)) ∧
      t.draw ≠ s.draw ∧ t.tables = s.tables ∧ t.params = s.params ∧ t.port = rest

/-- R312: running the words waiting at the port, one step each, folds the device's command step over them. -/
def Obligations.QueueRunsAsFold : Prop :=
  ∀ (ws : List CommandWord) (s : State), s.port = [] →
    Host.Core.run core ws.length (s.issue ws) = .next (runWords ws s)

/-- No state and no word stops the device: "No state blocks further commands" (60_exceptions.md R277). -/
def Obligations.EveryStepAnswers : Prop := ∀ s : State, ∃ t, step s = .next t

/-! ## Success and failure (60_exceptions.md R272, R273; 10_state.md R24 to R42) -/

/-- R273: a command that fails changes ERR, ERR_INFO and STICKY alone, and its response is its code and RESULT as it
was. -/
def Obligations.FailureIsTransactional : Prop :=
  ∀ (i : Instr) (s t : State) (e : ErrorKind), exec i s = .next t → t.err = some e →
    (∃ x, t = s.failed e x) ∧ t.response = ⟨e.code, s.result⟩

/-- R272: a command that succeeds sets ERR = 0 and ERR_INFO = 0, leaves STICKY alone unless it is CLR_STICKY, and writes
RESULT only if its rule defines a result; its response is (0, RESULT after it) (10_state.md R21). -/
def Obligations.SuccessClearsReport : Prop :=
  ∀ (i : Instr) (s t : State), exec i s = .next t → t.err = none →
    t.errInfo = 0#32 ∧ (i ≠ .clrSticky → t.sticky = s.sticky) ∧ (i = .clrSticky → t.sticky = false) ∧
      (opcodeOf i ∉ resultOps → t.result = s.result) ∧ t.response = ⟨0#4, t.result⟩

/-- R27: every failing word sets STICKY and every succeeding one keeps it, but for CLR_STICKY; over a step, only
CLR_STICKY and reset clear it. -/
def Obligations.StickyRecordsFailures : Prop :=
  (∀ (w : CommandWord) (s t : State), runWord w s = .next t →
    (t.err ≠ none → t.sticky = true) ∧
    (t.err = none → decode w ≠ .ok .clrSticky → t.sticky = s.sticky) ∧
    (t.err = none → decode w = .ok .clrSticky → t.sticky = false)) ∧
  (∀ s t : State, step s = .next t → s.sticky = true → t.sticky = false →
    (∃ w rest, s.port = .command w :: rest ∧ decode w = .ok .clrSticky) ∨
    (∃ rest, s.port = .reset :: rest) ∨ (∃ w rest, s.port = .resetDuring w :: rest))

/-- The column "written by" of R24: a register is changed by no command outside its row (STATUS and ERR_INFO are written
by every command). -/
def Obligations.RegistersChangeOnlyByTheirWriters : Prop :=
  ∀ (i : Instr) (s t : State) (n : Nat), exec i s = .next t → n ≤ 17 → n ≠ 0 → n ≠ 2 →
    opcodeOf i ∉ registerWriters n → t.readReg n = s.readReg n

/-- The column "written by" of R42: no other command changes a byte of GEN, CW or PL, a bit of the stream's valid part or
a cell of an allocated grid. So an unwritten byte keeps its draw (20_memory.md R76). -/
def Obligations.ArraysChangeOnlyByTheirWriters : Prop :=
  ∀ (i : Instr) (s t : State), exec i s = .next t →
    (opcodeOf i ∉ genWriters → ∀ k, t.genByte k = s.genByte k) ∧
    (opcodeOf i ∉ bsWriters → ∀ k, k < t.bs.length → t.bs[k]? = s.bs[k]?) ∧
    (opcodeOf i ∉ cwWriters → ∀ a, t.cwByte a = s.cwByte a) ∧
    (opcodeOf i ∉ plWriters → ∀ a, t.plByte a = s.plByte a) ∧
    (opcodeOf i ∉ gridWriters → t.phase ≠ .none → t.grid = s.grid)

/-- R28: CFG_VALID is 0 at reset, becomes 1 when CFG_SET succeeds, and no command sets it back; while it is 0 the
configuration registers are 0 and the commands that need a configuration raise UnsupportedConfiguration. -/
def Obligations.CfgValidOnlyRises : Prop :=
  State.reset.cfgValid = false ∧
  (∀ (i : Instr) (s t : State), exec i s = .next t →
    (s.cfgValid = true → t.cfgValid = true) ∧
    (s.cfgValid = false → (t.cfgValid = true ↔ (∃ ecl ver, i = .cfgSet ecl ver) ∧ t.err = none))) ∧
  (∀ s : State, s.Inv → s.cfgValid = false →
    (∀ n ∈ [3, 4, 6, 7, 8, 9, 10], s.readReg n = some 0#32) ∧
    ∀ i ∈ [Instr.mxAlloc, .assemble, .encode], exec i s = .next (s.failed .unsupportedConfiguration 0))

/-- The tables CAP and ALIGN "never change while the device runs" (00_scope.md R10), nor do the parameters of R9 and R11;
and a command takes no event from the port and makes no new draw (20_memory.md R76). -/
def Obligations.ExternalTablesNeverChange : Prop :=
  (∀ s t : State, step s = .next t → t.tables = s.tables ∧ t.params = s.params) ∧
  (∀ (i : Instr) (s t : State), exec i s = .next t → t.port = s.port ∧ t.draw = s.draw)

/-- 20_memory.md R75: a reading command writes ERR, ERR_INFO, RESULT if it succeeds and STICKY if it fails; two identical
reads with nothing between them return the same value. (REG_READ of STATUS or ERR_INFO reads what every command writes,
its own first run included.) -/
def Obligations.ReadsChangeNoStorage : Prop :=
  (∀ (i : Instr) (s t : State),
    opcodeOf i ∈
      [0x03#8, 0x09#8, 0x0B#8, 0x13#8, 0x14#8, 0x20#8, 0x21#8, 0x22#8, 0x31#8, 0x57#8, 0x58#8, 0x59#8] →
    exec i s = .next t →
    (t.err = none → t = { s with result := t.result, err := none, errInfo := 0#32 }) ∧
    (∀ e, t.err = some e → ∃ x, t = s.failed e x) ∧
    (opcodeOf i ≠ 0x03#8 → exec i t = .next t)) ∧
  ∀ (n : Nat) (s t : State), n ≠ 0 → n ≠ 2 → exec (.regRead n) s = .next t → exec (.regRead n) t = .next t

/-! ## Invariants (10_state.md R51) -/

/-- The reset state meets the invariant. -/
def Obligations.ResetMeetsInvariant : Prop := State.reset.Inv

/-- From every state that meets the invariant, a step leads to a state that meets it: R51's clauses, the configuration
registers against the tables (R28, R33), the forms of the arrays, and the progress of a build (R34, R217). -/
def Obligations.StepKeepsInvariant : Prop := ∀ s t : State, s.Inv → step s = .next t → t.Inv

/-! ## Control, configuration and memory access (40_control.md) -/

/-- R110, R113, R115, R130: NOP changes nothing but the report; CFG_MASK stores any byte, and one over 7 makes MX_FORMAT
and ENCODE fail where they use it; CLR_STICKY clears STICKY; BS_CLEAR empties the stream, which only ASSEMBLE and ENCODE
also can shorten. Each completes in every state, and a non-zero unused bit makes the word illegal. -/
def Obligations.OneFieldCommandsWriteTheirField : Prop :=
  (∀ s : State, exec .nop s = .next { s with err := none, errInfo := 0#32 }) ∧
  (∀ (m : Byte) (s : State), exec (.cfgMask m) s = .next { s with cfgMask := m, err := none, errInfo := 0#32 }) ∧
  (∀ s : State, exec .clrSticky s = .next { s with sticky := false, err := none, errInfo := 0#32 }) ∧
  (∀ s : State, exec .bsClear s = .next { s with bs := [], err := none, errInfo := 0#32 }) ∧
  (∀ (m : Byte) (s t : State), 7 < m.toNat → exec (.cfgMask m) s = .next t →
    (s.phase = .timingDone → exec .mxFormat t = .next (t.failed .invalidMaskPattern m.toNat)) ∧
    (s.Inv → s.cfgValid = true →
      4 + s.params.lenWidth s.cfgVersion.toNat + 8 * s.plLen.toNat ≤ 8 * s.capData.toNat →
      exec .encode t = .next (t.failed .invalidMaskPattern m.toNat))) ∧
  (∀ (i : Instr) (s t : State), exec i s = .next t → t.bs.length < s.bs.length →
    i = .bsClear ∨ i = .assemble ∨ i = .encode) ∧
  UnusedBitsRaise 0x00#8 0xFF#8 0xFFFF#16 0xFFFFFFFF#32 ∧ UnusedBitsRaise 0x02#8 0x00#8 0xFFFF#16 0xFFFFFFFF#32 ∧
  UnusedBitsRaise 0x04#8 0xFF#8 0xFFFF#16 0xFFFFFFFF#32 ∧ UnusedBitsRaise 0x10#8 0xFF#8 0xFFFF#16 0xFFFFFFFF#32

/-- R111, R112: CFG_SET succeeds exactly when the version is in range and the tables hold a usable single-block entry; it
then writes that entry without loss and sets PHASE to 0, which discards the grid; otherwise it raises UnsupportedConfiguration with
(ver << 8) | ecl. This holds for all parameters within the constraints of 00_scope.md R9. -/
def Obligations.CfgSetFollowsTheCapacityTable : Prop :=
  (∀ (s : State) (ecl : BitVec 2) (ver : Nat) (e : CapEntry),
    1 ≤ ver → ver ≤ s.params.maxVersion → capAt s.tables ver ecl = some e →
    e.blocks = 1 → e.ec ≤ e.total → e.total ≤ s.params.cwBytes → e.ec ≤ Config.genMax →
    8 * (e.total - e.ec) ≤ s.params.bsBits → s.params.Legal →
    ∃ t, exec (.cfgSet ecl ver) s = .next t ∧
      t = { s with
        cfgVersion := t.cfgVersion, cfgEcl := ecl, capTotal := t.capTotal, capEc := t.capEc, capBlocks := 1#32,
        capData := t.capData, side := t.side, cfgValid := true, phase := .none, grid := t.grid, err := none,
        errInfo := 0#32 } ∧
      t.cfgVersion.toNat = ver ∧ t.capTotal.toNat = e.total ∧ t.capEc.toNat = e.ec ∧
      t.capData.toNat = e.total - e.ec ∧ t.side.toNat = 4 * ver + 17) ∧
  (∀ (s : State) (ecl : BitVec 2) (ver : Nat),
    ver < 1 ∨ s.params.maxVersion < ver ∨ capAt s.tables ver ecl = none ∨
      (∃ e, capAt s.tables ver ecl = some e ∧
        (e.blocks ≠ 1 ∨ e.total < e.ec ∨ s.params.cwBytes < e.total ∨ Config.genMax < e.ec ∨
          s.params.bsBits < 8 * (e.total - e.ec))) →
    exec (.cfgSet ecl ver) s = .next (s.failed .unsupportedConfiguration ((ver <<< 8) ||| ecl.toNat))) ∧
  UnusedBitsRaise 0x01#8 0xFC#8 0xFF00#16 0xFFFFFFFF#32

/-- R114 with the numbers of R24: REG_READ returns the register's value as it was before the command, zero-extended; a
reserved number raises IllegalCommand(0x03). -/
def Obligations.RegReadReturnsTheNumberedRegister : Prop :=
  (∀ (s : State) (n : Nat) (h : n < 18),
    exec (.regRead n) s = .next { s with
      result :=
        [s.status, s.result, s.errInfo, s.cfgVersion.zeroExtend 32, s.cfgEcl.zeroExtend 32, s.cfgMask.zeroExtend 32,
          s.capTotal, s.capEc, s.capBlocks, s.capData, s.side.zeroExtend 32, BitVec.ofNat 32 s.bs.length,
          s.plLen.zeroExtend 32, s.genDeg.zeroExtend 32, s.buildMask.zeroExtend 32, s.placeCells, s.placeBits,
          0x51524331#32][n]
      err := none, errInfo := 0#32 }) ∧
  (∀ (s : State) (n : Nat), 18 ≤ n → exec (.regRead n) s = .next (s.failed .illegalCommand 0x03)) ∧
  UnusedBitsRaise 0x03#8 0x00#8 0xFFFF#16 0xFFFFFFFF#32

/-- R25: the fields of STATUS at their bits; every bit not listed reads 0. The codes of the errors (60_exceptions.md R270)
and of the phases (R34). -/
def Obligations.StatusFieldsStandAtTheirBits : Prop :=
  errCode none = 0#4 ∧
  (∀ row ∈
      [(ErrorKind.indexError, 1#4), (.domainError, 2#4), (.invalidMaskPattern, 3#4), (.payloadTooLarge, 4#4),
        (.unsupportedConfiguration, 5#4), (.illegalCommand, 6#4), (.sequenceError, 7#4), (.rangeError, 8#4),
        (.gridIncomplete, 9#4)],
    row.1.code = row.2 ∧ errCode (some row.1) = row.2) ∧
  (∀ row ∈
      [(Phase.none, 0#3), (.allocated, 1#3), (.finderDone, 2#3), (.alignDone, 3#3), (.timingDone, 4#3),
        (.formatDone, 5#3), (.done, 6#3)],
    row.1.code = row.2) ∧
  ∀ s : State,
    s.status.extractLsb' 0 4 = errCode s.err ∧ s.status.getLsbD 4 = s.sticky ∧ s.status.getLsbD 5 = s.cfgValid ∧
    (s.status.getLsbD 6 = true ↔ s.phase = .done) ∧ s.status.getLsbD 7 = false ∧
    s.status.extractLsb' 8 3 = s.phase.code ∧ ∀ k, 11 ≤ k → s.status.getLsbD k = false

/-- R116, R117: CW_WR writes one byte and CW_RD returns one byte, zero-extended; an address past the end raises
RangeError. -/
def Obligations.CodewordRamAccess : Prop :=
  (∀ (s : State) (v : Byte) (a : Nat), a < s.params.cwBytes →
    ∃ t, exec (.cwWr v a) s = .next t ∧ t = { s with cw := t.cw, err := none, errInfo := 0#32 } ∧
      t.cwByte a = v ∧ ∀ b, b ≠ a → t.cwByte b = s.cwByte b) ∧
  (∀ (s : State) (a : Nat), a < s.params.cwBytes →
    exec (.cwRd a) s = .next { s with result := (s.cwByte a).zeroExtend 32, err := none, errInfo := 0#32 }) ∧
  (∀ (s : State) (v : Byte) (a : Nat), s.params.cwBytes ≤ a →
    exec (.cwWr v a) s = .next (s.failed .rangeError a) ∧ exec (.cwRd a) s = .next (s.failed .rangeError a)) ∧
  UnusedBitsRaise 0x08#8 0x00#8 0x0000#16 0xFFFFFFFF#32 ∧ UnusedBitsRaise 0x09#8 0xFF#8 0x0000#16 0xFFFFFFFF#32

/-- R118, R119, R120: PL_WR and PL_RD on the payload RAM; PL_SETLEN accepts every length up to PL_BYTES
(which R9 bounds by 65535, so that it fits PL_LEN). -/
def Obligations.PayloadRamAccess : Prop :=
  (∀ (s : State) (v : Byte) (a : Nat), a < s.params.plBytes →
    ∃ t, exec (.plWr v a) s = .next t ∧ t = { s with pl := t.pl, err := none, errInfo := 0#32 } ∧
      t.plByte a = v ∧ ∀ b, b ≠ a → t.plByte b = s.plByte b) ∧
  (∀ (s : State) (a : Nat), a < s.params.plBytes →
    exec (.plRd a) s = .next { s with result := (s.plByte a).zeroExtend 32, err := none, errInfo := 0#32 }) ∧
  (∀ (s : State) (n : Nat), n ≤ s.params.plBytes →
    s.params.Legal → ∃ t, exec (.plSetlen n) s = .next t ∧ t = { s with plLen := t.plLen, err := none, errInfo := 0#32 } ∧
      t.plLen.toNat = n) ∧
  (∀ (s : State) (v : Byte) (a : Nat), s.params.plBytes ≤ a →
    exec (.plWr v a) s = .next (s.failed .rangeError a) ∧ exec (.plRd a) s = .next (s.failed .rangeError a)) ∧
  (∀ (s : State) (n : Nat), s.params.plBytes < n → exec (.plSetlen n) s = .next (s.failed .rangeError n)) ∧
  UnusedBitsRaise 0x0A#8 0x00#8 0x0000#16 0xFFFFFFFF#32 ∧ UnusedBitsRaise 0x0B#8 0xFF#8 0x0000#16 0xFFFFFFFF#32 ∧
  UnusedBitsRaise 0x0C#8 0xFF#8 0x0000#16 0xFFFFFFFF#32

/-! ## The packer (41_packer.md) -/

/-- R131, R132: BS_PUT appends the low `width` bits of the value, most significant first, and changes no earlier bit;
a width over 32 raises IllegalCommand, a stream that would overflow raises RangeError. -/
def Obligations.BsPutAppendsMsbFirst : Prop :=
  (∀ (s : State) (width : Nat) (value : Word), width ≤ 32 → s.bs.length + width ≤ s.params.bsBits →
    ∃ t, exec (.bsPut width value) s = .next t ∧ t = { s with bs := t.bs, err := none, errInfo := 0#32 } ∧
      t.bs.length = s.bs.length + width ∧ (∀ i, i < s.bs.length → t.bs[i]? = s.bs[i]?) ∧
      ∀ i, i < width → t.bs[s.bs.length + i]? = some (value.getLsbD (width - 1 - i))) ∧
  (∀ (s : State) (width : Nat) (value : Word), width ≤ 32 → s.params.bsBits < s.bs.length + width →
    exec (.bsPut width value) s = .next (s.failed .rangeError (s.bs.length + width))) ∧
  (∀ (s : State) (width : Nat) (value : Word), 32 < width →
    exec (.bsPut width value) s = .next (s.failed .illegalCommand 0x11)) ∧
  UnusedBitsRaise 0x11#8 0x00#8 0xFFFF#16 0x00000000#32

/-- R133: BS_PUTBIT appends its bit; a full stream raises RangeError; it has the effect of BS_PUT 1, b (which
R133 marks as derived). -/
def Obligations.BsPutbitAppendsOneBit : Prop :=
  (∀ (s : State) (b : Bool), s.bs.length < s.params.bsBits →
    exec (.bsPutbit b) s = .next { s with bs := s.bs ++ [b], err := none, errInfo := 0#32 }) ∧
  (∀ (s : State) (b : Bool), s.params.bsBits ≤ s.bs.length →
    exec (.bsPutbit b) s = .next (s.failed .rangeError (s.bs.length + 1))) ∧
  (∀ (s : State) (b : Bool), exec (.bsPutbit b) s = exec (.bsPut 1 (if b then 1#32 else 0#32)) s) ∧
  UnusedBitsRaise 0x12#8 0xFE#8 0xFFFF#16 0xFFFFFFFF#32

/-- R134, R135: BS_LEN returns the stream's length and BS_GET the indexed bit; an index at or past the length raises
IndexError. -/
def Obligations.StreamReads : Prop :=
  (∀ s : State, exec .bsLen s = .next { s with result := BitVec.ofNat 32 s.bs.length, err := none, errInfo := 0#32 }) ∧
  (∀ (s : State) (i : Nat) (h : i < s.bs.length),
    exec (.bsGet i) s = .next { s with result := if s.bs[i] then 1#32 else 0#32, err := none, errInfo := 0#32 }) ∧
  (∀ (s : State) (i : Nat), s.bs.length ≤ i → exec (.bsGet i) s = .next (s.failed .indexError i)) ∧
  UnusedBitsRaise 0x13#8 0xFF#8 0xFFFF#16 0xFFFFFFFF#32 ∧ UnusedBitsRaise 0x14#8 0xFF#8 0xFFFF#16 0x00000000#32

/-- R136 with the bit order of 20_memory.md R71: bit 8k + j of the stream is bit 7 − j of the k-th byte stored; no other
byte of CW changes; the stream's length is checked before the destination. -/
def Obligations.BsStoreWritesStreamBytes : Prop :=
  (∀ (s : State) (dst n : Nat), 8 * n ≤ s.bs.length → dst + n ≤ s.params.cwBytes →
    ∃ t, exec (.bsStore dst n) s = .next t ∧ t = { s with cw := t.cw, err := none, errInfo := 0#32 } ∧
      (∀ k j, k < n → j < 8 → s.bs[8 * k + j]? = some ((t.cwByte (dst + k)).getLsbD (7 - j))) ∧
      ∀ a, a < dst ∨ dst + n ≤ a → t.cwByte a = s.cwByte a) ∧
  (∀ (s : State) (dst n : Nat), s.bs.length < 8 * n →
    exec (.bsStore dst n) s = .next (s.failed .indexError (8 * n))) ∧
  (∀ (s : State) (dst n : Nat), 8 * n ≤ s.bs.length → s.params.cwBytes < dst + n →
    exec (.bsStore dst n) s = .next (s.failed .rangeError (dst + n))) ∧
  UnusedBitsRaise 0x15#8 0xFF#8 0x0000#16 0xFFFF0000#32

/-- R137 (c): BS_PUT 8, b at a byte boundary 8k followed by BS_STORE 0, k+1 gives CW[k] = b (R71: the two orders are
inverse). -/
def Obligations.PutThenStoreGivesTheByteBack : Prop :=
  ∀ (s : State) (b : Byte) (k : Nat), s.bs.length = 8 * k → 8 * k + 8 ≤ s.params.bsBits → k + 1 ≤ s.params.cwBytes →
    ∃ t u, exec (.bsPut 8 (b.zeroExtend 32)) s = .next t ∧ exec (.bsStore 0 (k + 1)) t = .next u ∧ u.err = none ∧
      u.cwByte k = b

/-! ## The field (42_galois.md) -/

/-- R150, R151: the exponent table follows its recurrence from 1, and the logarithm of a non-zero byte is the unique
index in 0..254 that the exponent table maps to it; zero has none. -/
def Obligations.FieldTablesAreExpAndLog : Prop :=
  gfExp 0 = 0x01#8 ∧
  (∀ i, i < 255 →
    (gfExp (i + 1)).toNat =
      if (gfExp i).toNat.testBit 7 then ((gfExp i).toNat <<< 1) ^^^ 0x11D else (gfExp i).toNat <<< 1) ∧
  gfLog? 0#8 = none ∧
  ∀ a : Byte, a ≠ 0#8 →
    ∃ k, k ≤ 254 ∧ gfLog? a = some k ∧ gfExp k = a ∧ ∀ j, j ≤ 254 → gfExp j = a → j = k

/-- R156 (a) to (e): commutative, zero, the table inverses, associative, distributive over xor, identity, inverses, and
equal to carry-less multiplication modulo 0x11D. The spec states (a) to (c) and marks (d) and (e) as derived. -/
def Obligations.FieldLaws : Prop :=
  (∀ a b : Byte, gfMul a b = gfMul b a) ∧ (∀ a : Byte, gfMul a 0#8 = 0#8) ∧
  (∀ a : Byte, a ≠ 0#8 → ∃ k, gfLog? a = some k ∧ gfExp k = a) ∧
  (∀ i, i ≤ 254 → gfLog? (gfExp i) = some i) ∧
  (∀ a b c : Byte, gfMul (gfMul a b) c = gfMul a (gfMul b c)) ∧
  (∀ a b c : Byte, gfMul (a ^^^ b) c = gfMul a c ^^^ gfMul b c) ∧
  (∀ a : Byte, gfMul a 0x01#8 = a) ∧
  (∀ a : Byte, a ≠ 0#8 → ∃ k, gfLog? a = some k ∧ gfMul a (gfExp ((255 - k) % 255)) = 0x01#8) ∧
  (∀ a b : Byte, (gfMul a b).toNat = reduceModulo (carrylessProduct a.toNat b.toNat))

/-- R153, R154, R155: GF_MUL, GF_EXP and GF_LOG write the product, the table entries, zero-extended, and nothing else;
the logarithm of zero raises DomainError with ERR_INFO 0. The product of R152 is stated here as the carry-less product
modulo 0x11D: that is R156 (e), which the spec marks as derived. -/
def Obligations.FieldCommandsReturnFieldValues : Prop :=
  (∀ (s : State) (a b : Byte),
    exec (.gfMul a b) s = .next { s with
      result := BitVec.ofNat 32 (reduceModulo (carrylessProduct a.toNat b.toNat)), err := none, errInfo := 0#32 }) ∧
  (∀ (s : State) (i : Nat), i ≤ 255 →
    exec (.gfExp i) s = .next { s with result := (gfExp i).zeroExtend 32, err := none, errInfo := 0#32 }) ∧
  (∀ (s : State) (a : Byte) (k : Nat), gfExp k = a → k ≤ 254 →
    exec (.gfLog a) s = .next { s with result := BitVec.ofNat 32 k, err := none, errInfo := 0#32 }) ∧
  (∀ s : State, exec (.gfLog 0#8) s = .next (s.failed .domainError 0)) ∧
  UnusedBitsRaise 0x20#8 0x00#8 0xFF00#16 0xFFFFFFFF#32 ∧ UnusedBitsRaise 0x21#8 0x00#8 0xFFFF#16 0xFFFFFFFF#32 ∧
  UnusedBitsRaise 0x22#8 0x00#8 0xFFFF#16 0xFFFFFFFF#32

/-! ## Reed-Solomon (43_reed_solomon.md) -/

/-- R170, R171, R177 (e): gen(0) = [1], gen(n + 1) multiplies by (x + α^n) coefficient by coefficient; gen(n) has n + 1
coefficients and is monic (which R177 marks as derived), and α^0 … α^(n−1) are its roots (an inference from R170). -/
def Obligations.GeneratorIsTheProduct : Prop :=
  genPoly 0 = [0x01#8] ∧ (∀ n, genPoly (n + 1) = mulLinear (genPoly n) (gfExp n)) ∧
  (∀ (p : List Byte) (r : Byte), (mulLinear p r).length = p.length + 1 ∧
    ∀ k, k ≤ p.length →
      (mulLinear p r)[k]? =
        some ((if k < p.length then p.getD k 0#8 else 0#8) ^^^
          (if 1 ≤ k then gfMul (p.getD (k - 1) 0#8) r else 0#8))) ∧
  (∀ n, (genPoly n).length = n + 1 ∧ (genPoly n)[0]? = some 0x01#8) ∧
  ∀ n i, i < n → polyValue (genPoly n) (gfExp i) = 0#8

/-- R173, R174: RS_GEN writes GEN[0..n] and GEN_DEG; GEN_RD returns a coefficient up to the degree and raises IndexError
above it. -/
def Obligations.GeneratorBufferCommands : Prop :=
  (∀ (s : State) (n : Nat), n ≤ Config.genMax →
    ∃ t, exec (.rsGen n) s = .next t ∧
      t = { s with gen := t.gen, genDeg := t.genDeg, err := none, errInfo := 0#32 } ∧
      t.genDeg.toNat = n ∧ (∀ k, k ≤ n → (genPoly n)[k]? = some (t.genByte k)) ∧
      ∀ k, n < k → t.genByte k = s.genByte k) ∧
  (∀ (s : State) (k : Nat), k ≤ s.genDeg.toNat →
    exec (.genRd k) s = .next { s with result := (s.genByte k).zeroExtend 32, err := none, errInfo := 0#32 }) ∧
  (∀ (s : State) (k : Nat), s.genDeg.toNat < k → exec (.genRd k) s = .next (s.failed .indexError k)) ∧
  UnusedBitsRaise 0x30#8 0x00#8 0xFFFF#16 0xFFFFFFFF#32 ∧ UnusedBitsRaise 0x31#8 0x00#8 0xFFFF#16 0xFFFFFFFF#32

/-- R172: the model's division is the spec's loop on the whole buffer. -/
def Obligations.RemainderIsTheSpecLoop : Prop := ∀ (data : List Byte) (n : Nat), rsRem data n = rsRemLiteral data n

/-- R175, R176: RS_ENC writes the remainder of its source, as it was before the command, at the destination, and the
generator into GEN; no other byte changes; either range past CW raises RangeError, the source's first. -/
def Obligations.RsEncWritesTheRemainder : Prop :=
  (∀ (s : State) (n src len dst : Nat), n ≤ Config.genMax → src + len ≤ s.params.cwBytes → dst + n ≤ s.params.cwBytes →
    ∃ t, exec (.rsEnc n src len dst) s = .next t ∧
      t = { s with gen := t.gen, genDeg := t.genDeg, cw := t.cw, err := none, errInfo := 0#32 } ∧
      (∀ k, k < n →
        (rsRemLiteral ((List.range len).map (fun i => s.cwByte (src + i))) n)[k]? = some (t.cwByte (dst + k))) ∧
      (∀ a, a < dst ∨ dst + n ≤ a → t.cwByte a = s.cwByte a) ∧
      t.genDeg.toNat = n ∧ (∀ k, k ≤ n → (genPoly n)[k]? = some (t.genByte k)) ∧
      ∀ k, n < k → t.genByte k = s.genByte k) ∧
  (∀ (s : State) (n src len dst : Nat), s.params.cwBytes < src + len →
    exec (.rsEnc n src len dst) s = .next (s.failed .rangeError (src + len))) ∧
  (∀ (s : State) (n src len dst : Nat), src + len ≤ s.params.cwBytes → s.params.cwBytes < dst + n →
    exec (.rsEnc n src len dst) s = .next (s.failed .rangeError (dst + n)))

/-- R177 (d): the remainder is linear in the data; and it has length n (R172). -/
def Obligations.RemainderIsLinear : Prop :=
  (∀ (data : List Byte) (n : Nat), (rsRem data n).length = n) ∧
  ∀ (d1 d2 : List Byte) (n : Nat), d1.length = d2.length →
    rsRem (List.zipWith (fun x y => x ^^^ y) d1 d2) n =
      List.zipWith (fun x y => x ^^^ y) (rsRem d1 n) (rsRem d2 n)

/-- R177 (c): every codeword the device produces evaluates to 0 at α^0 … α^(n−1): all its syndromes are zero. -/
def Obligations.CodewordSyndromesAreZero : Prop :=
  ∀ (data : List Byte) (n i : Nat), n ≤ Config.genMax → i < n → polyValue (data ++ rsRem data n) (gfExp i) = 0#8

/-! ## The format coder (44_format_bch.md) -/

/-- R191, R192: FMT_ENC returns the code of the table; R192's laws: the top five bits name d, the code without its mask
reduces to 0 modulo 0x537, the codes are distinct, and the remainder is linear. R192 marks its table and its laws as
derived. -/
def Obligations.FormatCodeTableAndLaws : Prop :=
  (∀ (s : State) (d : BitVec 5),
    exec (.fmtEnc d) s = .next { s with
      result := BitVec.ofNat 32
        ([0x5412, 0x5125, 0x5E7C, 0x5B4B, 0x45F9, 0x40CE, 0x4F97, 0x4AA0, 0x77C4, 0x72F3, 0x7DAA, 0x789D, 0x662F,
          0x6318, 0x6C41, 0x6976, 0x1689, 0x13BE, 0x1CE7, 0x19D0, 0x0762, 0x0255, 0x0D0C, 0x083B, 0x355F, 0x3068,
          0x3F31, 0x3A06, 0x24B4, 0x2183, 0x2EDA, 0x2BED].getD d.toNat 0)
      err := none, errInfo := 0#32 }) ∧
  (∀ d, d < 32 → (bchFormat d ^^^ 0x5412) >>> 10 = d ∧ bchReduce 5 (bchFormat d ^^^ 0x5412) = 0) ∧
  (∀ d e, d < 32 → e < 32 → bchFormat d = bchFormat e → d = e) ∧
  (∀ d e, d < 32 → e < 32 →
    (bchFormat (d ^^^ e) ^^^ 0x5412) % 1024 =
      ((bchFormat d ^^^ 0x5412) % 1024) ^^^ ((bchFormat e ^^^ 0x5412) % 1024)) ∧
  UnusedBitsRaise 0x40#8 0xE0#8 0xFFFF#16 0xFFFFFFFF#32

/-! ## The matrix builder (45_matrix.md) -/

/-- R211, R212: MASK_EVAL returns 1 where the pattern's formula flips and 0 elsewhere, for every row and column; a
pattern over 7 raises InvalidMaskPattern. -/
def Obligations.MaskEvalComputesTheFormulas : Prop :=
  (∀ (s : State) (i j p : Nat), p ≤ 7 →
    exec (.maskEval p i j) s = .next { s with
      result :=
        if (p = 0 ∧ (i + j) % 2 = 0) ∨ (p = 1 ∧ i % 2 = 0) ∨ (p = 2 ∧ j % 3 = 0) ∨ (p = 3 ∧ (i + j) % 3 = 0) ∨
          (p = 4 ∧ (i / 2 + j / 3) % 2 = 0) ∨ (p = 5 ∧ (i * j) % 2 + (i * j) % 3 = 0) ∨
          (p = 6 ∧ ((i * j) % 2 + (i * j) % 3) % 2 = 0) ∨ (p = 7 ∧ ((i * j) % 3 + (i + j) % 2) % 2 = 0)
        then 1#32 else 0#32
      err := none, errInfo := 0#32 }) ∧
  (∀ (s : State) (i j p : Nat), 7 < p → exec (.maskEval p i j) s = .next (s.failed .invalidMaskPattern p)) ∧
  UnusedBitsRaise 0x50#8 0x00#8 0x0000#16 0xFFFF0000#32

/-- R200: each build command requires its phase, raises SequenceError with the current PHASE otherwise, and moves to the
next; MX_ALLOC needs a configuration instead; no command but MX_ALLOC and CFG_SET leads back to an earlier phase. -/
def Obligations.BuildCommandsFollowThePhaseOrder : Prop :=
  (∀ s : State, s.cfgValid = false → exec .mxAlloc s = .next (s.failed .unsupportedConfiguration 0)) ∧
  (∀ s : State, s.cfgValid = true → ∃ t, exec .mxAlloc s = .next t ∧ t.err = none ∧ t.phase.code = 1#3) ∧
  (∀ (s : State) (src count : Nat),
    ∀ row ∈ [(Instr.mxFinder, 1#3), (.mxAlign, 2#3), (.mxTiming, 3#3), (.mxFormat, 4#3), (.mxPlace src count, 5#3)],
      (s.phase.code ≠ row.2 → exec row.1 s = .next (s.failed .sequenceError s.phase.code.toNat)) ∧
      ∀ t, exec row.1 s = .next t → t.err = none → s.phase.code = row.2 ∧ t.phase.code = row.2 + 1#3) ∧
  ∀ (i : Instr) (s t : State), exec i s = .next t → t.phase.code.toNat < s.phase.code.toNat →
    i = .mxAlloc ∨ ∃ ecl ver, i = .cfgSet ecl ver

/-- R201: MX_ALLOC gives N × N UNSET cells in every phase, once a configuration is set. -/
def Obligations.MxAllocGivesAFreshGrid : Prop :=
  (∀ s : State, s.cfgValid = true →
    ∃ t, exec .mxAlloc s = .next t ∧ t = { s with grid := t.grid, phase := .allocated, err := none, errInfo := 0#32 } ∧
      t.grid.length = s.sideN * s.sideN ∧ ∀ cell ∈ t.grid, cell = .unset) ∧
  (∀ s : State, s.cfgValid = false → exec .mxAlloc s = .next (s.failed .unsupportedConfiguration 0)) ∧
  UnusedBitsRaise 0x51#8 0xFF#8 0xFFFF#16 0xFFFFFFFF#32

/-- R202, R203: MX_FINDER sets exactly the cells of the three finder patterns and their separators, in the picture of
R202 (offsets −1 to 7, # dark), and changes no cell already set. -/
def Obligations.MxFinderStampsTheThreeCorners : Prop :=
  ((List.range 9).map fun r =>
      String.ofList ((List.range 9).map fun c => if finderDark ((r : Int) - 1) ((c : Int) - 1) then '#' else '.')) =
    [".........", ".#######.", ".#.....#.", ".#.###.#.", ".#.###.#.", ".#.###.#.", ".#.....#.", ".#######.", "........."] ∧
  (∀ s : State, s.Inv → s.phase = .allocated →
    ∃ t, exec .mxFinder s = .next t ∧
      t = { s with grid := t.grid, phase := .finderDone, err := none, errInfo := 0#32 } ∧
      ∀ r c, r < s.sideN → c < s.sideN →
        cellAt s.sideN t.grid r c =
          if cellAt s.sideN s.grid r c ≠ .unset then cellAt s.sideN s.grid r c
          else if r ≤ 7 ∧ c ≤ 7 then GridCell.ofBit (finderDark r c)
          else if r ≤ 7 ∧ s.sideN ≤ c + 8 then GridCell.ofBit (finderDark r ((c : Int) - ((s.sideN : Int) - 7)))
          else if s.sideN ≤ r + 8 ∧ c ≤ 7 then GridCell.ofBit (finderDark ((r : Int) - ((s.sideN : Int) - 7)) c)
          else .unset) ∧
  (∀ s : State, s.phase ≠ .allocated → exec .mxFinder s = .next (s.failed .sequenceError s.phase.code.toNat)) ∧
  UnusedBitsRaise 0x52#8 0xFF#8 0xFFFF#16 0xFFFFFFFF#32

/-- R204, R205: MX_ALIGN completes for every table. It takes the pairs of the table's coordinates one after another, the
row coordinate outermost, from grid to grid (`g`): a center outside the grid, or set by then (by an earlier pattern of the
same command too), changes nothing; around any other, every cell still UNSET in the 5 × 5 range takes the pattern. So it
changes no cell already set; every cell it sets belongs to the pattern of a center that lay in the grid and was UNSET
before the command; every center in the grid ends set; and where distinct coordinates are at least 5 apart, every UNSET cell
around a free center takes that center's pattern. -/
def Obligations.MxAlignStampsAroundFreeCenters : Prop :=
  (∀ (s : State) (coords : List Nat), s.Inv → s.phase = .finderDone → coords = alignAt s.tables s.cfgVersion.toNat →
    ∃ t, exec .mxAlign s = .next t ∧
      t = { s with grid := t.grid, phase := .alignDone, err := none, errInfo := 0#32 } ∧
      (∃ g : Nat → List GridCell, g 0 = s.grid ∧ g (coords.length * coords.length) = t.grid ∧
        ∀ k a b, k < coords.length * coords.length → coords[k / coords.length]? = some a →
          coords[k % coords.length]? = some b → ∀ r c, r < s.sideN → c < s.sideN →
          cellAt s.sideN (g (k + 1)) r c =
            if s.sideN ≤ a ∨ s.sideN ≤ b ∨ cellAt s.sideN (g k) a b ≠ .unset then cellAt s.sideN (g k) r c
            else if cellAt s.sideN (g k) r c ≠ .unset then cellAt s.sideN (g k) r c
            else if ((r : Int) - a).natAbs ≤ 2 ∧ ((c : Int) - b).natAbs ≤ 2 then
              GridCell.ofBit (alignDark ((r : Int) - a) ((c : Int) - b))
            else .unset) ∧
      (∀ r c, r < s.sideN → c < s.sideN →
        (cellAt s.sideN s.grid r c ≠ .unset → cellAt s.sideN t.grid r c = cellAt s.sideN s.grid r c) ∧
        (cellAt s.sideN s.grid r c = .unset → cellAt s.sideN t.grid r c ≠ .unset →
          ∃ a ∈ coords, ∃ b ∈ coords,
            a < s.sideN ∧ b < s.sideN ∧ cellAt s.sideN s.grid a b = .unset ∧
            ((r : Int) - a).natAbs ≤ 2 ∧ ((c : Int) - b).natAbs ≤ 2 ∧
            cellAt s.sideN t.grid r c = GridCell.ofBit (alignDark ((r : Int) - a) ((c : Int) - b)))) ∧
      (∀ a ∈ coords, ∀ b ∈ coords, a < s.sideN → b < s.sideN → cellAt s.sideN t.grid a b ≠ .unset) ∧
      ((∀ a ∈ coords, ∀ b ∈ coords, a < b → a + 5 ≤ b) →
        ∀ a ∈ coords, ∀ b ∈ coords, a < s.sideN → b < s.sideN → cellAt s.sideN s.grid a b = .unset →
          ∀ r c, r < s.sideN → c < s.sideN → ((r : Int) - a).natAbs ≤ 2 → ((c : Int) - b).natAbs ≤ 2 →
            cellAt s.sideN s.grid r c = .unset →
            cellAt s.sideN t.grid r c = GridCell.ofBit (alignDark ((r : Int) - a) ((c : Int) - b)))) ∧
  (∀ s : State, s.phase ≠ .finderDone → exec .mxAlign s = .next (s.failed .sequenceError s.phase.code.toNat)) ∧
  UnusedBitsRaise 0x53#8 0xFF#8 0xFFFF#16 0xFFFFFFFF#32

/-- R206, R207: MX_TIMING sets row 6 and column 6 from index 8 to N − 9, dark at even indexes, where the cells are still
UNSET, and changes nothing else. -/
def Obligations.MxTimingAlternatesByParity : Prop :=
  (∀ s : State, s.Inv → s.phase = .alignDone →
    ∃ t, exec .mxTiming s = .next t ∧
      t = { s with grid := t.grid, phase := .timingDone, err := none, errInfo := 0#32 } ∧
      ∀ r c, r < s.sideN → c < s.sideN →
        cellAt s.sideN t.grid r c =
          if cellAt s.sideN s.grid r c ≠ .unset then cellAt s.sideN s.grid r c
          else if r = 6 ∧ 8 ≤ c ∧ c + 9 ≤ s.sideN then GridCell.ofBit (decide (c % 2 = 0))
          else if c = 6 ∧ 8 ≤ r ∧ r + 9 ≤ s.sideN then GridCell.ofBit (decide (r % 2 = 0))
          else .unset) ∧
  (∀ s : State, s.phase ≠ .alignDone → exec .mxTiming s = .next (s.failed .sequenceError s.phase.code.toNat)) ∧
  UnusedBitsRaise 0x54#8 0xFF#8 0xFFFF#16 0xFFFFFFFF#32

/-- R208, R209, R210, R214: MX_FORMAT latches BUILD_MASK, places each bit of the format code in its cell of column 8 and
its cell of row 8 and sets the dark module, in cells still UNSET, and changes no other cell; CFG_MASK over 7 raises
InvalidMaskPattern, after the phase check. -/
def Obligations.MxFormatPlacesBothCopies : Prop :=
  (∀ s : State, s.Inv → s.phase = .timingDone → s.cfgMask.toNat ≤ 7 →
    ∃ t, exec .mxFormat s = .next t ∧
      t = { s with grid := t.grid, buildMask := t.buildMask, phase := .formatDone, err := none, errInfo := 0#32 } ∧
      t.buildMask.toNat = s.cfgMask.toNat ∧
      (∀ r c, r < s.sideN → c < s.sideN → cellAt s.sideN s.grid r c ≠ .unset →
        cellAt s.sideN t.grid r c = cellAt s.sideN s.grid r c) ∧
      (∀ i, i < 15 → ∀ r, r = (if i ≤ 5 then i else if i ≤ 7 then i + 1 else s.sideN - 15 + i) →
        cellAt s.sideN s.grid r 8 = .unset →
        cellAt s.sideN t.grid r 8 =
          GridCell.ofBit ((bchFormat (s.cfgEcl.toNat * 8 + s.cfgMask.toNat)).testBit i)) ∧
      (∀ i, i < 15 → ∀ c, c = (if i ≤ 7 then s.sideN - 1 - i else if i = 8 then 7 else 14 - i) →
        cellAt s.sideN s.grid 8 c = .unset →
        cellAt s.sideN t.grid 8 c =
          GridCell.ofBit ((bchFormat (s.cfgEcl.toNat * 8 + s.cfgMask.toNat)).testBit i)) ∧
      (cellAt s.sideN s.grid (s.sideN - 8) 8 = .unset → cellAt s.sideN t.grid (s.sideN - 8) 8 = .dark) ∧
      ∀ r c, r < s.sideN → c < s.sideN →
        ¬(c = 8 ∧ (r ≤ 5 ∨ r = 7 ∨ r = 8 ∨ s.sideN ≤ r + 8)) → ¬(r = 8 ∧ (s.sideN ≤ c + 8 ∨ c = 7 ∨ c ≤ 5)) →
        cellAt s.sideN t.grid r c = cellAt s.sideN s.grid r c) ∧
  (∀ s : State, s.phase = .timingDone → 7 < s.cfgMask.toNat →
    exec .mxFormat s = .next (s.failed .invalidMaskPattern s.cfgMask.toNat)) ∧
  (∀ s : State, s.phase ≠ .timingDone → exec .mxFormat s = .next (s.failed .sequenceError s.phase.code.toNat)) ∧
  UnusedBitsRaise 0x55#8 0xFF#8 0xFFFF#16 0xFFFFFFFF#32

/-- R216: at every odd side from 9 on, the traversal's order, pair by pair: the p-th pair stands at columns N − 1 − 2p
and the one left of it, one further left from column 6 on; its rows run upward for even p and downward for odd p; the right
column comes first. So it has N·(N−1) entries, visits no cell twice and visits exactly the cells outside column 6 (which
R216 marks as derived). -/
def Obligations.ZigzagVisitsEveryDataColumnCellOnce : Prop :=
  ∀ N, 9 ≤ N → N % 2 = 1 →
    (∀ p j row col, p < (N - 1) / 2 → j < N → row = (if p % 2 = 0 then N - 1 - j else j) →
      col = (if 6 < N - 1 - 2 * p then N - 1 - 2 * p else N - 2 - 2 * p) →
      (zigzag N)[2 * N * p + 2 * j]? = some (row, col) ∧
      (zigzag N)[2 * N * p + 2 * j + 1]? = some (row, col - 1)) ∧
    (zigzag N).length = N * (N - 1) ∧ (zigzag N).Nodup ∧
    ∀ r c, (r, c) ∈ zigzag N ↔ r < N ∧ c < N ∧ c ≠ 6

/-- R213, R215, R217: from a state that meets the invariant MX_PLACE completes: GridIncomplete cannot arise. The k-th
UNSET cell of the traversal takes bit k of the codewords, MSB first, or `false` once they are consumed, xor the mask;
cells already set keep their values; no cell is left UNSET (which R217 marks as derived); the counters count cells and
bits. -/
def Obligations.MxPlaceFillsTheGrid : Prop :=
  (∀ (s : State) (src count : Nat), s.Inv → s.phase = .formatDone → src + count ≤ s.params.cwBytes →
    ∃ t, exec (.mxPlace src count) s = .next t ∧
      t = { s with
        grid := t.grid, placeCells := t.placeCells, placeBits := t.placeBits, phase := .done, err := none,
        errInfo := 0#32 } ∧
      (∀ r c, r < s.sideN → c < s.sideN → cellAt s.sideN t.grid r c ≠ .unset ∧
        (cellAt s.sideN s.grid r c ≠ .unset → cellAt s.sideN t.grid r c = cellAt s.sideN s.grid r c)) ∧
      (∀ k r c, ((zigzag s.sideN).filter (fun p => cellAt s.sideN s.grid p.1 p.2 = .unset))[k]? = some (r, c) →
        cellAt s.sideN t.grid r c =
          GridCell.ofBit
            ((if k < 8 * count then (s.cwByte (src + k / 8)).getLsbD (7 - k % 8) else false) ^^
              maskFlip s.buildMask.toNat r c)) ∧
      t.placeCells.toNat = s.grid.count .unset ∧ t.placeBits.toNat = min (s.grid.count .unset) (8 * count)) ∧
  (∀ (s : State) (src count : Nat), s.phase = .formatDone → s.params.cwBytes < src + count →
    exec (.mxPlace src count) s = .next (s.failed .rangeError (src + count))) ∧
  (∀ (s : State) (src count : Nat), s.phase ≠ .formatDone →
    exec (.mxPlace src count) s = .next (s.failed .sequenceError s.phase.code.toNat)) ∧
  UnusedBitsRaise 0x56#8 0xFF#8 0x0000#16 0xFFFF0000#32

/-- R226, R227, R228: MX_READ returns the code of a cell in any phase with a grid; MX_ISDARK and MX_SIDE answer only for
the finished grid; SequenceError comes before IndexError. -/
def Obligations.GridReads : Prop :=
  (∀ (s : State) (r c : Nat), s.phase ≠ .none → r < s.sideN → c < s.sideN →
    exec (.mxRead r c) s = .next { s with
      result :=
        match cellAt s.sideN s.grid r c with
        | .unset => 0#32
        | .light => 1#32
        | .dark => 2#32
      err := none, errInfo := 0#32 }) ∧
  (∀ (s : State) (r c : Nat), s.phase = .done → r < s.sideN → c < s.sideN →
    exec (.mxIsdark r c) s = .next { s with
      result := if cellAt s.sideN s.grid r c = .dark then 1#32 else 0#32, err := none, errInfo := 0#32 }) ∧
  (∀ s : State, s.phase = .done →
    exec .mxSide s = .next { s with result := s.side.zeroExtend 32, err := none, errInfo := 0#32 }) ∧
  (∀ (s : State) (r c : Nat), s.phase = .none → exec (.mxRead r c) s = .next (s.failed .sequenceError 0)) ∧
  (∀ (s : State) (r c : Nat), s.phase ≠ .done →
    exec (.mxIsdark r c) s = .next (s.failed .sequenceError s.phase.code.toNat) ∧
    exec .mxSide s = .next (s.failed .sequenceError s.phase.code.toNat)) ∧
  (∀ (s : State) (r c : Nat), s.sideN ≤ r ∨ s.sideN ≤ c →
    (s.phase ≠ .none → exec (.mxRead r c) s = .next (s.failed .indexError ((r <<< 16) ||| c))) ∧
    (s.phase = .done → exec (.mxIsdark r c) s = .next (s.failed .indexError ((r <<< 16) ||| c)))) ∧
  UnusedBitsRaise 0x57#8 0xFF#8 0x0000#16 0xFFFF0000#32 ∧ UnusedBitsRaise 0x58#8 0xFF#8 0x0000#16 0xFFFF0000#32 ∧
  UnusedBitsRaise 0x59#8 0xFF#8 0xFFFF#16 0xFFFFFFFF#32

/-! ## Assembly (46_assembly.md) -/

/-- R244, R245, R247 (c): ASSEMBLE leaves a stream of 8·D bits, the data codewords it packs into and their remainder
behind them, and gen(E) in GEN; its result is T; no other byte of CW and no other register changes. It fails without a
configuration, then when L exceeds 8·D. -/
def Obligations.AssembleBuildsTheCodewordSequence : Prop :=
  (∀ s : State, s.Inv → s.cfgValid = true →
    4 + s.params.lenWidth s.cfgVersion.toNat + 8 * s.plLen.toNat ≤ 8 * s.capData.toNat →
    ∃ t, exec .assemble s = .next t ∧
      t = { s with
        bs := t.bs, cw := t.cw, gen := t.gen, genDeg := t.genDeg, result := s.capTotal, err := none,
        errInfo := 0#32 } ∧
      t.bs.length = 8 * s.capData.toNat ∧
      (∀ k j, k < s.capData.toNat → j < 8 → t.bs[8 * k + j]? = some ((t.cwByte k).getLsbD (7 - j))) ∧
      t.cwBytes s.capData.toNat s.capEc.toNat = rsRemLiteral (t.cwBytes 0 s.capData.toNat) s.capEc.toNat ∧
      (∀ a, s.capTotal.toNat ≤ a → t.cwByte a = s.cwByte a) ∧
      t.genDeg.toNat = s.capEc.toNat ∧
      (∀ k, k ≤ s.capEc.toNat → (genPoly s.capEc.toNat)[k]? = some (t.genByte k)) ∧
      ∀ k, s.capEc.toNat < k → t.genByte k = s.genByte k) ∧
  (∀ s : State, s.cfgValid = false → exec .assemble s = .next (s.failed .unsupportedConfiguration 0)) ∧
  (∀ s : State, s.cfgValid = true →
    8 * s.capData.toNat < 4 + s.params.lenWidth s.cfgVersion.toNat + 8 * s.plLen.toNat →
    exec .assemble s =
      .next (s.failed .payloadTooLarge (4 + s.params.lenWidth s.cfgVersion.toNat + 8 * s.plLen.toNat))) ∧
  UnusedBitsRaise 0x60#8 0xFF#8 0xFFFF#16 0xFFFFFFFF#32

/-- R240, R241, R242, R247 (a), (b), (d): what a successful ASSEMBLE writes, bit by bit, for every mode indicator and
length width: the mode indicator, the low w bits of PL_LEN, the payload, zeros (the terminator where it has room, and the
padding to a byte), and from byte P on the pad bytes 0xEC, 0x11 alternately to the end. P is the index of R247 (b). -/
def Obligations.AssembledStreamLayout : Prop :=
  ∀ (s : State) (w n D P : Nat), s.Inv → s.cfgValid = true →
    w = s.params.lenWidth s.cfgVersion.toNat → n = s.plLen.toNat → D = s.capData.toNat → 4 + w + 8 * n ≤ 8 * D →
    P = (4 + w + 8 * n + (if 4 + w + 8 * n + 4 ≤ 8 * D then 4 else 0) + 7) / 8 →
    ∃ t, exec .assemble s = .next t ∧ t.err = none ∧ t.bs.length = 8 * D ∧
      (∀ i, i < 4 → t.bs[i]? = some (s.params.modeIndicator.getLsbD (3 - i))) ∧
      (∀ i, i < w → t.bs[4 + i]? = some (n.testBit (w - 1 - i))) ∧
      (∀ k j, k < n → j < 8 → t.bs[4 + w + 8 * k + j]? = some ((s.plByte k).getLsbD (7 - j))) ∧
      (∀ i, 4 + w + 8 * n ≤ i → i < 8 * P → t.bs[i]? = some false) ∧
      P ≤ D ∧ ∀ k, P ≤ k → k < D → t.cwByte k = if (k - P) % 2 = 0 then 0xEC#8 else 0x11#8

/-- R246: with a configuration, a payload that fits and a mask pattern, ENCODE completes from every phase, and it is the
sequence ASSEMBLE, MX_ALLOC, MX_FINDER, MX_ALIGN, MX_TIMING, MX_FORMAT, MX_PLACE 0, T, each of which completes; its
result is SIDE. Its errors come in the rule's order and leave the state as it was. -/
def Obligations.EncodeIsTheBuildSequence : Prop :=
  (∀ s : State, s.Inv → s.cfgValid = true →
    4 + s.params.lenWidth s.cfgVersion.toNat + 8 * s.plLen.toNat ≤ 8 * s.capData.toNat → s.cfgMask.toNat ≤ 7 →
    ∃ t a b c d e f g,
      exec .encode s = .next t ∧
      exec .assemble s = .next a ∧ exec .mxAlloc a = .next b ∧ exec .mxFinder b = .next c ∧
      exec .mxAlign c = .next d ∧ exec .mxTiming d = .next e ∧ exec .mxFormat e = .next f ∧
      exec (.mxPlace 0 s.capTotal.toNat) f = .next g ∧ t = { g with result := s.side.zeroExtend 32 } ∧
      a.err = none ∧ b.err = none ∧ c.err = none ∧ d.err = none ∧ e.err = none ∧ f.err = none ∧ g.err = none ∧
      t.phase = .done ∧ ∀ r c, r < s.sideN → c < s.sideN → cellAt s.sideN t.grid r c ≠ .unset) ∧
  (∀ s : State, s.cfgValid = false → exec .encode s = .next (s.failed .unsupportedConfiguration 0)) ∧
  (∀ s : State, s.cfgValid = true →
    8 * s.capData.toNat < 4 + s.params.lenWidth s.cfgVersion.toNat + 8 * s.plLen.toNat →
    exec .encode s =
      .next (s.failed .payloadTooLarge (4 + s.params.lenWidth s.cfgVersion.toNat + 8 * s.plLen.toNat))) ∧
  (∀ s : State, s.Inv → s.cfgValid = true →
    4 + s.params.lenWidth s.cfgVersion.toNat + 8 * s.plLen.toNat ≤ 8 * s.capData.toNat → 7 < s.cfgMask.toNat →
    exec .encode s = .next (s.failed .invalidMaskPattern s.cfgMask.toNat)) ∧
  UnusedBitsRaise 0x61#8 0xFF#8 0xFFFF#16 0xFFFFFFFF#32

/-- 45_matrix.md R219 (b): a second ENCODE with nothing changed in between gives the same grid and the same codewords. -/
def Obligations.EncodeIsIdempotent : Prop :=
  ∀ s t u : State, s.Inv → exec .encode s = .next t → t.err = none → exec .encode t = .next u →
    u.err = none ∧ u.grid = t.grid ∧ u.bs = t.bs ∧ ∀ a, u.cwByte a = t.cwByte a

/-! ## The assembler (30_encoding.md R87, R88) -/

/-- R87: the assembler's command is of the row its mnemonic names, its operands fit their sub-fields, and its word decodes
to it; and for every command whose operands fit, the mnemonic of its row with the operands in the order of R82 and R87
gives that command. -/
def Obligations.AssembledCommandDecodesToItself : Prop :=
  (∀ (mnemonic : List Char) (operands : List Nat) (i : Instr), commandOf mnemonic operands = some i →
    WellFormed i ∧ decode (encode i) = .ok i ∧ operands = syntaxOperands i ∧
      ∃ row ∈ opTable, row.mnemonic.toList = mnemonic ∧ row.op = opcodeOf i) ∧
  ∀ i : Instr, WellFormed i → ∀ row ∈ opTable, row.op = opcodeOf i →
    commandOf row.mnemonic.toList (syntaxOperands i) = some i

end
end

