-- ==== Sys2Proof/Laws/State.lean ====
section
/-! SUPPORT. One lemma per field per named update of the state, true by rfl, so that no later proof unfolds a record
update. -/

namespace Sys2Proof.Machine

variable (s : State)

/-! ## `State.succeed` -/

@[simp] theorem State.succeed_err : s.succeed.err = none := rfl
@[simp] theorem State.succeed_sticky : s.succeed.sticky = s.sticky := rfl
@[simp] theorem State.succeed_cfgValid : s.succeed.cfgValid = s.cfgValid := rfl
@[simp] theorem State.succeed_phase : s.succeed.phase = s.phase := rfl
@[simp] theorem State.succeed_result : s.succeed.result = s.result := rfl
@[simp] theorem State.succeed_errInfo : s.succeed.errInfo = 0#32 := rfl
@[simp] theorem State.succeed_cfgVersion : s.succeed.cfgVersion = s.cfgVersion := rfl
@[simp] theorem State.succeed_cfgEcl : s.succeed.cfgEcl = s.cfgEcl := rfl
@[simp] theorem State.succeed_cfgMask : s.succeed.cfgMask = s.cfgMask := rfl
@[simp] theorem State.succeed_capTotal : s.succeed.capTotal = s.capTotal := rfl
@[simp] theorem State.succeed_capEc : s.succeed.capEc = s.capEc := rfl
@[simp] theorem State.succeed_capBlocks : s.succeed.capBlocks = s.capBlocks := rfl
@[simp] theorem State.succeed_capData : s.succeed.capData = s.capData := rfl
@[simp] theorem State.succeed_side : s.succeed.side = s.side := rfl
@[simp] theorem State.succeed_plLen : s.succeed.plLen = s.plLen := rfl
@[simp] theorem State.succeed_genDeg : s.succeed.genDeg = s.genDeg := rfl
@[simp] theorem State.succeed_buildMask : s.succeed.buildMask = s.buildMask := rfl
@[simp] theorem State.succeed_placeCells : s.succeed.placeCells = s.placeCells := rfl
@[simp] theorem State.succeed_placeBits : s.succeed.placeBits = s.placeBits := rfl
@[simp] theorem State.succeed_bs : s.succeed.bs = s.bs := rfl
@[simp] theorem State.succeed_gen : s.succeed.gen = s.gen := rfl
@[simp] theorem State.succeed_cw : s.succeed.cw = s.cw := rfl
@[simp] theorem State.succeed_pl : s.succeed.pl = s.pl := rfl
@[simp] theorem State.succeed_grid : s.succeed.grid = s.grid := rfl
@[simp] theorem State.succeed_port : s.succeed.port = s.port := rfl
@[simp] theorem State.succeed_tables : s.succeed.tables = s.tables := rfl
@[simp] theorem State.succeed_params : s.succeed.params = s.params := rfl
@[simp] theorem State.succeed_draw : s.succeed.draw = s.draw := rfl

/-! ## `State.raise` -/

@[simp] theorem State.raise_err (e : Raise) : (s.raise e).err = some e.kind := rfl
@[simp] theorem State.raise_sticky (e : Raise) : (s.raise e).sticky = true := rfl
@[simp] theorem State.raise_cfgValid (e : Raise) : (s.raise e).cfgValid = s.cfgValid := rfl
@[simp] theorem State.raise_phase (e : Raise) : (s.raise e).phase = s.phase := rfl
@[simp] theorem State.raise_result (e : Raise) : (s.raise e).result = s.result := rfl
@[simp] theorem State.raise_errInfo (e : Raise) : (s.raise e).errInfo = BitVec.ofNat 32 e.info := rfl
@[simp] theorem State.raise_cfgVersion (e : Raise) : (s.raise e).cfgVersion = s.cfgVersion := rfl
@[simp] theorem State.raise_cfgEcl (e : Raise) : (s.raise e).cfgEcl = s.cfgEcl := rfl
@[simp] theorem State.raise_cfgMask (e : Raise) : (s.raise e).cfgMask = s.cfgMask := rfl
@[simp] theorem State.raise_capTotal (e : Raise) : (s.raise e).capTotal = s.capTotal := rfl
@[simp] theorem State.raise_capEc (e : Raise) : (s.raise e).capEc = s.capEc := rfl
@[simp] theorem State.raise_capBlocks (e : Raise) : (s.raise e).capBlocks = s.capBlocks := rfl
@[simp] theorem State.raise_capData (e : Raise) : (s.raise e).capData = s.capData := rfl
@[simp] theorem State.raise_side (e : Raise) : (s.raise e).side = s.side := rfl
@[simp] theorem State.raise_plLen (e : Raise) : (s.raise e).plLen = s.plLen := rfl
@[simp] theorem State.raise_genDeg (e : Raise) : (s.raise e).genDeg = s.genDeg := rfl
@[simp] theorem State.raise_buildMask (e : Raise) : (s.raise e).buildMask = s.buildMask := rfl
@[simp] theorem State.raise_placeCells (e : Raise) : (s.raise e).placeCells = s.placeCells := rfl
@[simp] theorem State.raise_placeBits (e : Raise) : (s.raise e).placeBits = s.placeBits := rfl
@[simp] theorem State.raise_bs (e : Raise) : (s.raise e).bs = s.bs := rfl
@[simp] theorem State.raise_gen (e : Raise) : (s.raise e).gen = s.gen := rfl
@[simp] theorem State.raise_cw (e : Raise) : (s.raise e).cw = s.cw := rfl
@[simp] theorem State.raise_pl (e : Raise) : (s.raise e).pl = s.pl := rfl
@[simp] theorem State.raise_grid (e : Raise) : (s.raise e).grid = s.grid := rfl
@[simp] theorem State.raise_port (e : Raise) : (s.raise e).port = s.port := rfl
@[simp] theorem State.raise_tables (e : Raise) : (s.raise e).tables = s.tables := rfl
@[simp] theorem State.raise_params (e : Raise) : (s.raise e).params = s.params := rfl
@[simp] theorem State.raise_draw (e : Raise) : (s.raise e).draw = s.draw := rfl

/-! ## `State.failed` -/

@[simp] theorem State.failed_err (e : ErrorKind) (x : Nat) : (s.failed e x).err = some e := rfl
@[simp] theorem State.failed_sticky (e : ErrorKind) (x : Nat) : (s.failed e x).sticky = true := rfl
@[simp] theorem State.failed_cfgValid (e : ErrorKind) (x : Nat) : (s.failed e x).cfgValid = s.cfgValid := rfl
@[simp] theorem State.failed_phase (e : ErrorKind) (x : Nat) : (s.failed e x).phase = s.phase := rfl
@[simp] theorem State.failed_result (e : ErrorKind) (x : Nat) : (s.failed e x).result = s.result := rfl
@[simp] theorem State.failed_errInfo (e : ErrorKind) (x : Nat) : (s.failed e x).errInfo = BitVec.ofNat 32 x := rfl
@[simp] theorem State.failed_cfgVersion (e : ErrorKind) (x : Nat) : (s.failed e x).cfgVersion = s.cfgVersion := rfl
@[simp] theorem State.failed_cfgEcl (e : ErrorKind) (x : Nat) : (s.failed e x).cfgEcl = s.cfgEcl := rfl
@[simp] theorem State.failed_cfgMask (e : ErrorKind) (x : Nat) : (s.failed e x).cfgMask = s.cfgMask := rfl
@[simp] theorem State.failed_capTotal (e : ErrorKind) (x : Nat) : (s.failed e x).capTotal = s.capTotal := rfl
@[simp] theorem State.failed_capEc (e : ErrorKind) (x : Nat) : (s.failed e x).capEc = s.capEc := rfl
@[simp] theorem State.failed_capBlocks (e : ErrorKind) (x : Nat) : (s.failed e x).capBlocks = s.capBlocks := rfl
@[simp] theorem State.failed_capData (e : ErrorKind) (x : Nat) : (s.failed e x).capData = s.capData := rfl
@[simp] theorem State.failed_side (e : ErrorKind) (x : Nat) : (s.failed e x).side = s.side := rfl
@[simp] theorem State.failed_plLen (e : ErrorKind) (x : Nat) : (s.failed e x).plLen = s.plLen := rfl
@[simp] theorem State.failed_genDeg (e : ErrorKind) (x : Nat) : (s.failed e x).genDeg = s.genDeg := rfl
@[simp] theorem State.failed_buildMask (e : ErrorKind) (x : Nat) : (s.failed e x).buildMask = s.buildMask := rfl
@[simp] theorem State.failed_placeCells (e : ErrorKind) (x : Nat) : (s.failed e x).placeCells = s.placeCells := rfl
@[simp] theorem State.failed_placeBits (e : ErrorKind) (x : Nat) : (s.failed e x).placeBits = s.placeBits := rfl
@[simp] theorem State.failed_bs (e : ErrorKind) (x : Nat) : (s.failed e x).bs = s.bs := rfl
@[simp] theorem State.failed_gen (e : ErrorKind) (x : Nat) : (s.failed e x).gen = s.gen := rfl
@[simp] theorem State.failed_cw (e : ErrorKind) (x : Nat) : (s.failed e x).cw = s.cw := rfl
@[simp] theorem State.failed_pl (e : ErrorKind) (x : Nat) : (s.failed e x).pl = s.pl := rfl
@[simp] theorem State.failed_grid (e : ErrorKind) (x : Nat) : (s.failed e x).grid = s.grid := rfl
@[simp] theorem State.failed_port (e : ErrorKind) (x : Nat) : (s.failed e x).port = s.port := rfl
@[simp] theorem State.failed_tables (e : ErrorKind) (x : Nat) : (s.failed e x).tables = s.tables := rfl
@[simp] theorem State.failed_params (e : ErrorKind) (x : Nat) : (s.failed e x).params = s.params := rfl
@[simp] theorem State.failed_draw (e : ErrorKind) (x : Nat) : (s.failed e x).draw = s.draw := rfl

/-! ## `State.setResult` -/

@[simp] theorem State.setResult_err (v : Word) : (s.setResult v).err = s.err := rfl
@[simp] theorem State.setResult_sticky (v : Word) : (s.setResult v).sticky = s.sticky := rfl
@[simp] theorem State.setResult_cfgValid (v : Word) : (s.setResult v).cfgValid = s.cfgValid := rfl
@[simp] theorem State.setResult_phase (v : Word) : (s.setResult v).phase = s.phase := rfl
@[simp] theorem State.setResult_result (v : Word) : (s.setResult v).result = v := rfl
@[simp] theorem State.setResult_errInfo (v : Word) : (s.setResult v).errInfo = s.errInfo := rfl
@[simp] theorem State.setResult_cfgVersion (v : Word) : (s.setResult v).cfgVersion = s.cfgVersion := rfl
@[simp] theorem State.setResult_cfgEcl (v : Word) : (s.setResult v).cfgEcl = s.cfgEcl := rfl
@[simp] theorem State.setResult_cfgMask (v : Word) : (s.setResult v).cfgMask = s.cfgMask := rfl
@[simp] theorem State.setResult_capTotal (v : Word) : (s.setResult v).capTotal = s.capTotal := rfl
@[simp] theorem State.setResult_capEc (v : Word) : (s.setResult v).capEc = s.capEc := rfl
@[simp] theorem State.setResult_capBlocks (v : Word) : (s.setResult v).capBlocks = s.capBlocks := rfl
@[simp] theorem State.setResult_capData (v : Word) : (s.setResult v).capData = s.capData := rfl
@[simp] theorem State.setResult_side (v : Word) : (s.setResult v).side = s.side := rfl
@[simp] theorem State.setResult_plLen (v : Word) : (s.setResult v).plLen = s.plLen := rfl
@[simp] theorem State.setResult_genDeg (v : Word) : (s.setResult v).genDeg = s.genDeg := rfl
@[simp] theorem State.setResult_buildMask (v : Word) : (s.setResult v).buildMask = s.buildMask := rfl
@[simp] theorem State.setResult_placeCells (v : Word) : (s.setResult v).placeCells = s.placeCells := rfl
@[simp] theorem State.setResult_placeBits (v : Word) : (s.setResult v).placeBits = s.placeBits := rfl
@[simp] theorem State.setResult_bs (v : Word) : (s.setResult v).bs = s.bs := rfl
@[simp] theorem State.setResult_gen (v : Word) : (s.setResult v).gen = s.gen := rfl
@[simp] theorem State.setResult_cw (v : Word) : (s.setResult v).cw = s.cw := rfl
@[simp] theorem State.setResult_pl (v : Word) : (s.setResult v).pl = s.pl := rfl
@[simp] theorem State.setResult_grid (v : Word) : (s.setResult v).grid = s.grid := rfl
@[simp] theorem State.setResult_port (v : Word) : (s.setResult v).port = s.port := rfl
@[simp] theorem State.setResult_tables (v : Word) : (s.setResult v).tables = s.tables := rfl
@[simp] theorem State.setResult_params (v : Word) : (s.setResult v).params = s.params := rfl
@[simp] theorem State.setResult_draw (v : Word) : (s.setResult v).draw = s.draw := rfl

/-! ## `State.loadGenerator` -/

@[simp] theorem State.loadGenerator_err (n : Nat) : (s.loadGenerator n).err = s.err := rfl
@[simp] theorem State.loadGenerator_sticky (n : Nat) : (s.loadGenerator n).sticky = s.sticky := rfl
@[simp] theorem State.loadGenerator_cfgValid (n : Nat) : (s.loadGenerator n).cfgValid = s.cfgValid := rfl
@[simp] theorem State.loadGenerator_phase (n : Nat) : (s.loadGenerator n).phase = s.phase := rfl
@[simp] theorem State.loadGenerator_result (n : Nat) : (s.loadGenerator n).result = s.result := rfl
@[simp] theorem State.loadGenerator_errInfo (n : Nat) : (s.loadGenerator n).errInfo = s.errInfo := rfl
@[simp] theorem State.loadGenerator_cfgVersion (n : Nat) : (s.loadGenerator n).cfgVersion = s.cfgVersion := rfl
@[simp] theorem State.loadGenerator_cfgEcl (n : Nat) : (s.loadGenerator n).cfgEcl = s.cfgEcl := rfl
@[simp] theorem State.loadGenerator_cfgMask (n : Nat) : (s.loadGenerator n).cfgMask = s.cfgMask := rfl
@[simp] theorem State.loadGenerator_capTotal (n : Nat) : (s.loadGenerator n).capTotal = s.capTotal := rfl
@[simp] theorem State.loadGenerator_capEc (n : Nat) : (s.loadGenerator n).capEc = s.capEc := rfl
@[simp] theorem State.loadGenerator_capBlocks (n : Nat) : (s.loadGenerator n).capBlocks = s.capBlocks := rfl
@[simp] theorem State.loadGenerator_capData (n : Nat) : (s.loadGenerator n).capData = s.capData := rfl
@[simp] theorem State.loadGenerator_side (n : Nat) : (s.loadGenerator n).side = s.side := rfl
@[simp] theorem State.loadGenerator_plLen (n : Nat) : (s.loadGenerator n).plLen = s.plLen := rfl
@[simp] theorem State.loadGenerator_genDeg (n : Nat) : (s.loadGenerator n).genDeg = BitVec.ofNat 8 n := rfl
@[simp] theorem State.loadGenerator_buildMask (n : Nat) : (s.loadGenerator n).buildMask = s.buildMask := rfl
@[simp] theorem State.loadGenerator_placeCells (n : Nat) : (s.loadGenerator n).placeCells = s.placeCells := rfl
@[simp] theorem State.loadGenerator_placeBits (n : Nat) : (s.loadGenerator n).placeBits = s.placeBits := rfl
@[simp] theorem State.loadGenerator_bs (n : Nat) : (s.loadGenerator n).bs = s.bs := rfl
@[simp] theorem State.loadGenerator_gen (n : Nat) : (s.loadGenerator n).gen = s.gen.writeBytes 0 (genPoly n) := rfl
@[simp] theorem State.loadGenerator_cw (n : Nat) : (s.loadGenerator n).cw = s.cw := rfl
@[simp] theorem State.loadGenerator_pl (n : Nat) : (s.loadGenerator n).pl = s.pl := rfl
@[simp] theorem State.loadGenerator_grid (n : Nat) : (s.loadGenerator n).grid = s.grid := rfl
@[simp] theorem State.loadGenerator_port (n : Nat) : (s.loadGenerator n).port = s.port := rfl
@[simp] theorem State.loadGenerator_tables (n : Nat) : (s.loadGenerator n).tables = s.tables := rfl
@[simp] theorem State.loadGenerator_params (n : Nat) : (s.loadGenerator n).params = s.params := rfl
@[simp] theorem State.loadGenerator_draw (n : Nat) : (s.loadGenerator n).draw = s.draw := rfl

/-! ## `State.configure` -/

@[simp] theorem State.configure_err (v : Nat) (l : BitVec 2) (e : CapEntry) : (s.configure v l e).err = s.err := rfl
@[simp] theorem State.configure_sticky (v : Nat) (l : BitVec 2) (e : CapEntry) : (s.configure v l e).sticky = s.sticky := rfl
@[simp] theorem State.configure_cfgValid (v : Nat) (l : BitVec 2) (e : CapEntry) : (s.configure v l e).cfgValid = true := rfl
@[simp] theorem State.configure_phase (v : Nat) (l : BitVec 2) (e : CapEntry) : (s.configure v l e).phase = .none := rfl
@[simp] theorem State.configure_result (v : Nat) (l : BitVec 2) (e : CapEntry) : (s.configure v l e).result = s.result := rfl
@[simp] theorem State.configure_errInfo (v : Nat) (l : BitVec 2) (e : CapEntry) : (s.configure v l e).errInfo = s.errInfo := rfl
@[simp] theorem State.configure_cfgVersion (v : Nat) (l : BitVec 2) (e : CapEntry) : (s.configure v l e).cfgVersion = BitVec.ofNat 8 v := rfl
@[simp] theorem State.configure_cfgEcl (v : Nat) (l : BitVec 2) (e : CapEntry) : (s.configure v l e).cfgEcl = l := rfl
@[simp] theorem State.configure_cfgMask (v : Nat) (l : BitVec 2) (e : CapEntry) : (s.configure v l e).cfgMask = s.cfgMask := rfl
@[simp] theorem State.configure_capTotal (v : Nat) (l : BitVec 2) (e : CapEntry) : (s.configure v l e).capTotal = BitVec.ofNat 32 e.total := rfl
@[simp] theorem State.configure_capEc (v : Nat) (l : BitVec 2) (e : CapEntry) : (s.configure v l e).capEc = BitVec.ofNat 32 e.ec := rfl
@[simp] theorem State.configure_capBlocks (v : Nat) (l : BitVec 2) (e : CapEntry) : (s.configure v l e).capBlocks = BitVec.ofNat 32 e.blocks := rfl
@[simp] theorem State.configure_capData (v : Nat) (l : BitVec 2) (e : CapEntry) : (s.configure v l e).capData = BitVec.ofNat 32 (e.total - e.ec) := rfl
@[simp] theorem State.configure_side (v : Nat) (l : BitVec 2) (e : CapEntry) : (s.configure v l e).side = BitVec.ofNat 8 (4 * v + 17) := rfl
@[simp] theorem State.configure_plLen (v : Nat) (l : BitVec 2) (e : CapEntry) : (s.configure v l e).plLen = s.plLen := rfl
@[simp] theorem State.configure_genDeg (v : Nat) (l : BitVec 2) (e : CapEntry) : (s.configure v l e).genDeg = s.genDeg := rfl
@[simp] theorem State.configure_buildMask (v : Nat) (l : BitVec 2) (e : CapEntry) : (s.configure v l e).buildMask = s.buildMask := rfl
@[simp] theorem State.configure_placeCells (v : Nat) (l : BitVec 2) (e : CapEntry) : (s.configure v l e).placeCells = s.placeCells := rfl
@[simp] theorem State.configure_placeBits (v : Nat) (l : BitVec 2) (e : CapEntry) : (s.configure v l e).placeBits = s.placeBits := rfl
@[simp] theorem State.configure_bs (v : Nat) (l : BitVec 2) (e : CapEntry) : (s.configure v l e).bs = s.bs := rfl
@[simp] theorem State.configure_gen (v : Nat) (l : BitVec 2) (e : CapEntry) : (s.configure v l e).gen = s.gen := rfl
@[simp] theorem State.configure_cw (v : Nat) (l : BitVec 2) (e : CapEntry) : (s.configure v l e).cw = s.cw := rfl
@[simp] theorem State.configure_pl (v : Nat) (l : BitVec 2) (e : CapEntry) : (s.configure v l e).pl = s.pl := rfl
@[simp] theorem State.configure_grid (v : Nat) (l : BitVec 2) (e : CapEntry) : (s.configure v l e).grid = [] := rfl
@[simp] theorem State.configure_port (v : Nat) (l : BitVec 2) (e : CapEntry) : (s.configure v l e).port = s.port := rfl
@[simp] theorem State.configure_tables (v : Nat) (l : BitVec 2) (e : CapEntry) : (s.configure v l e).tables = s.tables := rfl
@[simp] theorem State.configure_params (v : Nat) (l : BitVec 2) (e : CapEntry) : (s.configure v l e).params = s.params := rfl
@[simp] theorem State.configure_draw (v : Nat) (l : BitVec 2) (e : CapEntry) : (s.configure v l e).draw = s.draw := rfl

/-! ## `State.stampFinder` -/

@[simp] theorem State.stampFinder_err : s.stampFinder.err = s.err := rfl
@[simp] theorem State.stampFinder_sticky : s.stampFinder.sticky = s.sticky := rfl
@[simp] theorem State.stampFinder_cfgValid : s.stampFinder.cfgValid = s.cfgValid := rfl
@[simp] theorem State.stampFinder_phase : s.stampFinder.phase = .finderDone := rfl
@[simp] theorem State.stampFinder_result : s.stampFinder.result = s.result := rfl
@[simp] theorem State.stampFinder_errInfo : s.stampFinder.errInfo = s.errInfo := rfl
@[simp] theorem State.stampFinder_cfgVersion : s.stampFinder.cfgVersion = s.cfgVersion := rfl
@[simp] theorem State.stampFinder_cfgEcl : s.stampFinder.cfgEcl = s.cfgEcl := rfl
@[simp] theorem State.stampFinder_cfgMask : s.stampFinder.cfgMask = s.cfgMask := rfl
@[simp] theorem State.stampFinder_capTotal : s.stampFinder.capTotal = s.capTotal := rfl
@[simp] theorem State.stampFinder_capEc : s.stampFinder.capEc = s.capEc := rfl
@[simp] theorem State.stampFinder_capBlocks : s.stampFinder.capBlocks = s.capBlocks := rfl
@[simp] theorem State.stampFinder_capData : s.stampFinder.capData = s.capData := rfl
@[simp] theorem State.stampFinder_side : s.stampFinder.side = s.side := rfl
@[simp] theorem State.stampFinder_plLen : s.stampFinder.plLen = s.plLen := rfl
@[simp] theorem State.stampFinder_genDeg : s.stampFinder.genDeg = s.genDeg := rfl
@[simp] theorem State.stampFinder_buildMask : s.stampFinder.buildMask = s.buildMask := rfl
@[simp] theorem State.stampFinder_placeCells : s.stampFinder.placeCells = s.placeCells := rfl
@[simp] theorem State.stampFinder_placeBits : s.stampFinder.placeBits = s.placeBits := rfl
@[simp] theorem State.stampFinder_bs : s.stampFinder.bs = s.bs := rfl
@[simp] theorem State.stampFinder_gen : s.stampFinder.gen = s.gen := rfl
@[simp] theorem State.stampFinder_cw : s.stampFinder.cw = s.cw := rfl
@[simp] theorem State.stampFinder_pl : s.stampFinder.pl = s.pl := rfl
@[simp] theorem State.stampFinder_grid : s.stampFinder.grid = stampAll s.sideN s.grid (finderStamps s.sideN) := by rw [State.stampFinder]
@[simp] theorem State.stampFinder_port : s.stampFinder.port = s.port := rfl
@[simp] theorem State.stampFinder_tables : s.stampFinder.tables = s.tables := rfl
@[simp] theorem State.stampFinder_params : s.stampFinder.params = s.params := rfl
@[simp] theorem State.stampFinder_draw : s.stampFinder.draw = s.draw := rfl

/-! ## `State.stampAlign` -/

@[simp] theorem State.stampAlign_err : s.stampAlign.err = s.err := rfl
@[simp] theorem State.stampAlign_sticky : s.stampAlign.sticky = s.sticky := rfl
@[simp] theorem State.stampAlign_cfgValid : s.stampAlign.cfgValid = s.cfgValid := rfl
@[simp] theorem State.stampAlign_phase : s.stampAlign.phase = .alignDone := rfl
@[simp] theorem State.stampAlign_result : s.stampAlign.result = s.result := rfl
@[simp] theorem State.stampAlign_errInfo : s.stampAlign.errInfo = s.errInfo := rfl
@[simp] theorem State.stampAlign_cfgVersion : s.stampAlign.cfgVersion = s.cfgVersion := rfl
@[simp] theorem State.stampAlign_cfgEcl : s.stampAlign.cfgEcl = s.cfgEcl := rfl
@[simp] theorem State.stampAlign_cfgMask : s.stampAlign.cfgMask = s.cfgMask := rfl
@[simp] theorem State.stampAlign_capTotal : s.stampAlign.capTotal = s.capTotal := rfl
@[simp] theorem State.stampAlign_capEc : s.stampAlign.capEc = s.capEc := rfl
@[simp] theorem State.stampAlign_capBlocks : s.stampAlign.capBlocks = s.capBlocks := rfl
@[simp] theorem State.stampAlign_capData : s.stampAlign.capData = s.capData := rfl
@[simp] theorem State.stampAlign_side : s.stampAlign.side = s.side := rfl
@[simp] theorem State.stampAlign_plLen : s.stampAlign.plLen = s.plLen := rfl
@[simp] theorem State.stampAlign_genDeg : s.stampAlign.genDeg = s.genDeg := rfl
@[simp] theorem State.stampAlign_buildMask : s.stampAlign.buildMask = s.buildMask := rfl
@[simp] theorem State.stampAlign_placeCells : s.stampAlign.placeCells = s.placeCells := rfl
@[simp] theorem State.stampAlign_placeBits : s.stampAlign.placeBits = s.placeBits := rfl
@[simp] theorem State.stampAlign_bs : s.stampAlign.bs = s.bs := rfl
@[simp] theorem State.stampAlign_gen : s.stampAlign.gen = s.gen := rfl
@[simp] theorem State.stampAlign_cw : s.stampAlign.cw = s.cw := rfl
@[simp] theorem State.stampAlign_pl : s.stampAlign.pl = s.pl := rfl
@[simp] theorem State.stampAlign_grid : s.stampAlign.grid =
    (alignCenters (alignAt s.tables s.cfgVersion.toNat)).foldl (alignCenter s.sideN) s.grid := by rw [State.stampAlign]
@[simp] theorem State.stampAlign_port : s.stampAlign.port = s.port := rfl
@[simp] theorem State.stampAlign_tables : s.stampAlign.tables = s.tables := rfl
@[simp] theorem State.stampAlign_params : s.stampAlign.params = s.params := rfl
@[simp] theorem State.stampAlign_draw : s.stampAlign.draw = s.draw := rfl

/-! ## `State.stampTiming` -/

@[simp] theorem State.stampTiming_err : s.stampTiming.err = s.err := rfl
@[simp] theorem State.stampTiming_sticky : s.stampTiming.sticky = s.sticky := rfl
@[simp] theorem State.stampTiming_cfgValid : s.stampTiming.cfgValid = s.cfgValid := rfl
@[simp] theorem State.stampTiming_phase : s.stampTiming.phase = .timingDone := rfl
@[simp] theorem State.stampTiming_result : s.stampTiming.result = s.result := rfl
@[simp] theorem State.stampTiming_errInfo : s.stampTiming.errInfo = s.errInfo := rfl
@[simp] theorem State.stampTiming_cfgVersion : s.stampTiming.cfgVersion = s.cfgVersion := rfl
@[simp] theorem State.stampTiming_cfgEcl : s.stampTiming.cfgEcl = s.cfgEcl := rfl
@[simp] theorem State.stampTiming_cfgMask : s.stampTiming.cfgMask = s.cfgMask := rfl
@[simp] theorem State.stampTiming_capTotal : s.stampTiming.capTotal = s.capTotal := rfl
@[simp] theorem State.stampTiming_capEc : s.stampTiming.capEc = s.capEc := rfl
@[simp] theorem State.stampTiming_capBlocks : s.stampTiming.capBlocks = s.capBlocks := rfl
@[simp] theorem State.stampTiming_capData : s.stampTiming.capData = s.capData := rfl
@[simp] theorem State.stampTiming_side : s.stampTiming.side = s.side := rfl
@[simp] theorem State.stampTiming_plLen : s.stampTiming.plLen = s.plLen := rfl
@[simp] theorem State.stampTiming_genDeg : s.stampTiming.genDeg = s.genDeg := rfl
@[simp] theorem State.stampTiming_buildMask : s.stampTiming.buildMask = s.buildMask := rfl
@[simp] theorem State.stampTiming_placeCells : s.stampTiming.placeCells = s.placeCells := rfl
@[simp] theorem State.stampTiming_placeBits : s.stampTiming.placeBits = s.placeBits := rfl
@[simp] theorem State.stampTiming_bs : s.stampTiming.bs = s.bs := rfl
@[simp] theorem State.stampTiming_gen : s.stampTiming.gen = s.gen := rfl
@[simp] theorem State.stampTiming_cw : s.stampTiming.cw = s.cw := rfl
@[simp] theorem State.stampTiming_pl : s.stampTiming.pl = s.pl := rfl
@[simp] theorem State.stampTiming_grid : s.stampTiming.grid = stampAll s.sideN s.grid (timingStamps s.sideN) := by rw [State.stampTiming]
@[simp] theorem State.stampTiming_port : s.stampTiming.port = s.port := rfl
@[simp] theorem State.stampTiming_tables : s.stampTiming.tables = s.tables := rfl
@[simp] theorem State.stampTiming_params : s.stampTiming.params = s.params := rfl
@[simp] theorem State.stampTiming_draw : s.stampTiming.draw = s.draw := rfl

/-! ## Views -/

@[simp] theorem State.succeed_cwByte (a : Nat) : s.succeed.cwByte a = s.cwByte a := rfl
@[simp] theorem State.succeed_plByte (a : Nat) : s.succeed.plByte a = s.plByte a := rfl
@[simp] theorem State.succeed_genByte (k : Nat) : s.succeed.genByte k = s.genByte k := rfl
@[simp] theorem State.succeed_sideN : s.succeed.sideN = s.sideN := rfl
@[simp] theorem State.raise_cwByte (e : Raise) (a : Nat) : (s.raise e).cwByte a = s.cwByte a := rfl
@[simp] theorem State.raise_plByte (e : Raise) (a : Nat) : (s.raise e).plByte a = s.plByte a := rfl
@[simp] theorem State.raise_genByte (e : Raise) (k : Nat) : (s.raise e).genByte k = s.genByte k := rfl
@[simp] theorem State.raise_sideN (e : Raise) : (s.raise e).sideN = s.sideN := rfl
@[simp] theorem State.setResult_cwByte (v : Word) (a : Nat) : (s.setResult v).cwByte a = s.cwByte a := rfl
@[simp] theorem State.setResult_sideN (v : Word) : (s.setResult v).sideN = s.sideN := rfl
@[simp] theorem State.loadGenerator_cwByte (n a : Nat) : (s.loadGenerator n).cwByte a = s.cwByte a := rfl
@[simp] theorem State.loadGenerator_sideN (n : Nat) : (s.loadGenerator n).sideN = s.sideN := rfl
@[simp] theorem State.stampFinder_sideN : s.stampFinder.sideN = s.sideN := rfl
@[simp] theorem State.stampAlign_sideN : s.stampAlign.sideN = s.sideN := rfl
@[simp] theorem State.stampTiming_sideN : s.stampTiming.sideN = s.sideN := rfl

/-- STATUS.READY stands at bit 6 and reads 1 exactly when PHASE = 6 (10_state.md R25, R29). -/
theorem State.status_ready : s.status.getLsbD 6 = true ↔ s.phase.code.toNat = 6 := by
  have key : ∀ (p : BitVec 3) (r v k : Bool) (e : BitVec 4),
      (0#21 ++ p ++ 0#1 ++ BitVec.ofBool r ++ BitVec.ofBool v ++ BitVec.ofBool k ++ e).getLsbD 6 = r := by
    decide +kernel
  rw [State.status, key, State.ready]
  cases s.phase <;> decide

/-- Raising an error is exactly the failure claims speak of (60_exceptions.md R273). -/
theorem State.raise_eq_failed (e : Raise) : s.raise e = s.failed e.kind e.info := rfl

end Sys2Proof.Machine
end

