-- ==== Sys2Proof/Laws/Outcome.lean ====
section
/-! SUPPORT. What a command can end in: the lemmas of `complete`, `requirePhase` and the sequencing of a command's
parts. -/

namespace Sys2Proof.Machine

@[simp] theorem complete_ok (s t : State) : complete s (.ok t) = .next t.succeed := rfl

@[simp] theorem complete_error (s : State) (e : Raise) : complete s (.error e) = .next (s.failed e.kind e.info) := rfl

@[simp] theorem rejectWord_eq (op : Byte) (s : State) :
    rejectWord op s = .next (s.failed .illegalCommand op.toNat) := rfl

/-- A part that succeeds hands its value on. -/
@[simp] theorem except_bind_ok {α β : Type} (a : α) (f : α → Except Raise β) : ((Except.ok a : Except Raise α) >>= f) = f a :=
  rfl

/-- A part that raises an error ends the command. -/
@[simp] theorem except_bind_error {α β : Type} (e : Raise) (f : α → Except Raise β) :
    ((Except.error e : Except Raise α) >>= f) = .error e := rfl

/-- A sequence succeeds when both parts do. -/
theorem except_bind_eq_ok {α β : Type} {x : Except Raise α} {f : α → Except Raise β} {b : β} :
    (x >>= f) = .ok b ↔ ∃ a, x = .ok a ∧ f a = .ok b := by
  cases x <;> simp

/-- Everything a command can do: succeed in a new state, or fail with the state unchanged but for the report. -/
theorem complete_eq_next {s t : State} {r : Except Raise State} :
    complete s r = .next t ↔ (∃ u, r = .ok u ∧ t = u.succeed) ∨ (∃ e, r = .error e ∧ t = s.failed e.kind e.info) := by
  cases r with
  | ok u => simp [eq_comm]
  | error e => simp [eq_comm]

/-- Every command answers a next state. -/
theorem complete_answers (s : State) (r : Except Raise State) : ∃ t, complete s r = .next t := by
  cases r with
  | ok u => exact ⟨_, rfl⟩
  | error e => exact ⟨_, rfl⟩

theorem requirePhase_of_eq {s : State} {p : Phase} (h : s.phase = p) : requirePhase s p = .ok () := if_pos h

theorem requirePhase_of_ne {s : State} {p : Phase} (h : s.phase ≠ p) :
    requirePhase s p = .error ⟨.sequenceError, s.phase.code.toNat⟩ := if_neg h

theorem requirePhase_eq_ok {s : State} {p : Phase} {u : Unit} : requirePhase s p = .ok u ↔ s.phase = p := by
  unfold requirePhase; split <;> simp_all

/-- The response of a failed command is its code and RESULT as it was (10_state.md R21). -/
@[simp] theorem State.failed_response (s : State) (e : ErrorKind) (x : Nat) :
    (s.failed e x).response = ⟨e.code, s.result⟩ := rfl

@[simp] theorem Phase.code_inj {p q : Phase} : p.code = q.code ↔ p = q := by
  cases p <;> cases q <;> decide

end Sys2Proof.Machine
end

