-- ==== Sys2Proof/Laws/Packer.lean ====
section
/-! SUPPORT. Bit order and the packer: what appending does, once; the two bit orders of 20_memory.md R70 and R71 are
inverse. -/

namespace Sys2Proof.Machine

/-! ## Bits of a value, most significant first (R70) -/

@[simp] theorem bitsMsb_length (v w : Nat) : (bitsMsb v w).length = w := by simp [bitsMsb]

theorem bitsMsb_getElem? (v : Nat) {w i : Nat} (h : i < w) : (bitsMsb v w)[i]? = some (v.testBit (w - 1 - i)) := by
  simp [bitsMsb, h]

@[simp] theorem bitsMsb_zero_width (v : Nat) : bitsMsb v 0 = [] := rfl

/-! ## Appending (41_packer.md R131) -/

theorem appendBits_of_fits {cap : Nat} {bs : List Bool} {v w : Nat} (h : bs.length + w ≤ cap) :
    appendBits cap bs v w = .ok (bs ++ bitsMsb v w) := if_neg (by omega)

theorem appendBits_of_full {cap : Nat} {bs : List Bool} {v w : Nat} (h : cap < bs.length + w) :
    appendBits cap bs v w = .error ⟨.rangeError, bs.length + w⟩ := if_pos h

/-- Everything an append that succeeds does. -/
theorem appendBits_eq_ok {cap : Nat} {bs bs' : List Bool} {v w : Nat} :
    appendBits cap bs v w = .ok bs' ↔ bs.length + w ≤ cap ∧ bs' = bs ++ bitsMsb v w := by
  by_cases h : bs.length + w ≤ cap
  · rw [appendBits_of_fits h]; simp [h, eq_comm]
  · rw [appendBits_of_full (by omega)]; simp [h]

/-- Appending keeps the stream within its capacity. -/
theorem appendBits_length_le {cap : Nat} {bs bs' : List Bool} {v w : Nat} (h : appendBits cap bs v w = .ok bs') :
    bs'.length = bs.length + w ∧ bs'.length ≤ cap := by
  obtain ⟨h1, rfl⟩ := appendBits_eq_ok.mp h
  simp [h1]

/-! ## Bytes of the stream (R71) -/

/-- Bit 8k + j of the stream is bit 7 − j of byte k. -/
theorem streamByte_getLsbD (bs : List Bool) (k : Nat) {j : Nat} (h : j < 8) :
    (streamByte bs k).getLsbD (7 - j) = bs.getD (8 * k + j) false := by
  have key : ∀ b0 b1 b2 b3 b4 b5 b6 b7 : Bool, ∀ j : Fin 8,
      (BitVec.ofNat 8 (0 + b0.toNat * 2 ^ 7 + b1.toNat * 2 ^ 6 + b2.toNat * 2 ^ 5 + b3.toNat * 2 ^ 4 + b4.toNat * 2 ^ 3 +
        b5.toNat * 2 ^ 2 + b6.toNat * 2 ^ 1 + b7.toNat * 2 ^ 0)).getLsbD (7 - j.val) =
      [b0, b1, b2, b3, b4, b5, b6, b7].getD j.val false := by decide +kernel
  have h1 := key (bs.getD (8 * k + 0) false) (bs.getD (8 * k + 1) false) (bs.getD (8 * k + 2) false)
    (bs.getD (8 * k + 3) false) (bs.getD (8 * k + 4) false) (bs.getD (8 * k + 5) false) (bs.getD (8 * k + 6) false)
    (bs.getD (8 * k + 7) false) ⟨j, h⟩
  refine (Eq.trans ?_ h1).trans ?_
  · rfl
  · match j, h with
    | 0, _ | 1, _ | 2, _ | 3, _ | 4, _ | 5, _ | 6, _ | 7, _ => rfl

@[simp] theorem streamBytes_length (bs : List Bool) (n : Nat) : (streamBytes bs n).length = n := by simp [streamBytes]

theorem streamBytes_getElem? (bs : List Bool) {n k : Nat} (h : k < n) : (streamBytes bs n)[k]? = some (streamByte bs k) := by
  simp [streamBytes, h]

@[simp] theorem State.cwBytes_length (s : State) (a n : Nat) : (s.cwBytes a n).length = n := by simp [State.cwBytes]

theorem State.cwBytes_getElem? (s : State) (a : Nat) {n k : Nat} (h : k < n) :
    (s.cwBytes a n)[k]? = some (s.cwByte (a + k)) := by simp [State.cwBytes, h]

@[simp] theorem State.plBytes_length (s : State) (n : Nat) : (s.plBytes n).length = n := by simp [State.plBytes]

theorem State.plBytes_getElem? (s : State) {n k : Nat} (h : k < n) : (s.plBytes n)[k]? = some (s.plByte k) := by
  simp [State.plBytes, h]

/-- Bit k of a sequence read from CW (R72). -/
theorem codewordBit_cwBytes (s : State) (a : Nat) {n k : Nat} (h : k < 8 * n) :
    codewordBit (s.cwBytes a n) k = (s.cwByte (a + k / 8)).getLsbD (7 - k % 8) := by
  rw [codewordBit, List.getD_eq_getElem?_getD, State.cwBytes_getElem? s a (by omega : k / 8 < n)]; rfl

/-! ## The data bit stream (46_assembly.md R240) -/

/-- Appending bytes appends eight bits of each. -/
theorem appendBytes_of_fits {cap : Nat} (bytes : List Byte) {bs : List Bool} (h : bs.length + 8 * bytes.length ≤ cap) :
    appendBytes cap bytes bs = .ok (bs ++ bytes.flatMap (fun b => bitsMsb b.toNat 8)) := by
  induction bytes generalizing bs with
  | nil => simp [appendBytes]
  | cons b bytes ih =>
    simp only [List.length_cons] at h
    simp only [appendBytes, appendBits_of_fits (by omega : bs.length + 8 ≤ cap), except_bind_ok]
    rw [ih (by simp only [List.length_append, bitsMsb_length]; omega)]
    simp

@[simp] theorem length_flatMap_bytes (bytes : List Byte) :
    (bytes.flatMap (fun b => bitsMsb b.toNat 8)).length = 8 * bytes.length := by
  induction bytes with
  | nil => rfl
  | cons b bytes ih => simp only [List.flatMap_cons, List.length_append, bitsMsb_length, ih, List.length_cons]; omega

/-- Appending zeros, most significant first, appends clear bits. -/
theorem bitsMsb_zero (w : Nat) : bitsMsb 0 w = List.replicate w false :=
  List.ext_getElem (by simp) fun i h _ => by simp [bitsMsb]

/-- Bit padding: the k < 8 clear bits that lead to the next byte boundary. -/
theorem padToByte_of_room {cap : Nat} (fuel : Nat) {bs : List Bool} {k : Nat} (hk : (bs.length + k) % 8 = 0) (h8 : k < 8)
    (hf : k ≤ fuel) (hc : bs.length + k ≤ cap) : padToByte cap fuel bs = .ok (bs ++ List.replicate k false) := by
  induction fuel generalizing bs k with
  | zero =>
    obtain rfl : k = 0 := by omega
    simp [padToByte]
  | succ fuel ih =>
    cases k with
    | zero => rw [padToByte, if_neg (by omega)]; simp
    | succ k =>
      rw [padToByte, if_pos (by omega), appendBits_of_fits (by omega), except_bind_ok, bitsMsb_zero,
        ih (k := k) (by simp; omega) (by omega) (by omega) (by simp; omega), List.append_assoc, List.replicate_append_replicate,
        Nat.add_comm 1]

/-- The pad bytes j, j + 1, … fill the stream from a byte boundary to its end. -/
theorem padBytes_of_room {cap : Nat} (D : Nat) (hD : 8 * D ≤ cap) (fuel j : Nat) {bs : List Bool} {m : Nat}
    (hm : bs.length + 8 * m = 8 * D) (hf : m ≤ fuel) :
    padBytes cap D fuel j bs = .ok (bs ++ (List.range m).flatMap (fun i => bitsMsb (padByte (j + i)) 8)) := by
  induction fuel generalizing bs j m with
  | zero =>
    obtain rfl : m = 0 := by omega
    simp [padBytes]
  | succ fuel ih =>
    cases m with
    | zero => rw [padBytes, if_neg (by omega)]; simp
    | succ m =>
      rw [padBytes, if_pos (by omega), appendBits_of_fits (by omega), except_bind_ok,
        ih (j + 1) (m := m) (by simp only [List.length_append, bitsMsb_length]; omega) (by omega), List.range_succ_eq_map]
      simp only [List.flatMap_cons, List.flatMap_map, List.append_assoc, Nat.add_zero]
      simp only [Nat.succ_eq_add_one, Nat.add_assoc, Nat.add_comm 1]

/-- The index of the first pad byte: ⌈(L + t)/8⌉, with t = 4 where the terminator has room (R247 (b)). -/
def padStart (L D : Nat) : Nat := (L + (if L + 4 ≤ 8 * D then 4 else 0) + 7) / 8

theorem padStart_bounds {L D : Nat} (h : L ≤ 8 * D) : L ≤ 8 * padStart L D ∧ padStart L D ≤ D := by
  unfold padStart; split <;> omega

/-- The terminator and the bit padding together: clear bits up to the first pad byte, with or without room for the
terminator (R242). -/
theorem terminate_of_room {cap D : Nat} (hD : 8 * D ≤ cap) {bs : List Bool} (h : bs.length ≤ 8 * D) :
    (appendTerminator cap D bs >>= padToByte cap 7) =
      .ok (bs ++ List.replicate (8 * padStart bs.length D - bs.length) false) := by
  unfold appendTerminator padStart
  split
  · rw [appendBits_of_fits (by omega), except_bind_ok, bitsMsb_zero,
      padToByte_of_room (k := 8 * ((bs.length + 4 + 7) / 8) - (bs.length + 4)) 7 (by simp; omega) (by omega) (by omega)
        (by simp; omega), List.append_assoc, List.replicate_append_replicate]
    congr 3; omega
  · rw [except_bind_ok, padToByte_of_room (k := 8 * ((bs.length + 7) / 8) - bs.length) 7 (by omega) (by omega) (by omega)
      (by omega)]

/-- The whole data stream, when the payload fits. -/
theorem dataStream_of_fits (p : Params) (payload : List Byte) {w D : Nat} (hD : 8 * D ≤ p.bsBits)
    (h : 4 + w + 8 * payload.length ≤ 8 * D) :
    dataStream p payload w D =
      .ok (bitsMsb p.modeIndicator.toNat 4 ++ bitsMsb payload.length w ++ payload.flatMap (fun b => bitsMsb b.toNat 8) ++
        List.replicate (8 * padStart (4 + w + 8 * payload.length) D - (4 + w + 8 * payload.length)) false ++
        (List.range (D - padStart (4 + w + 8 * payload.length) D)).flatMap (fun i => bitsMsb (padByte i) 8)) := by
  have hb := padStart_bounds h
  have ht := terminate_of_room (cap := p.bsBits) (D := D) hD
    (bs := bitsMsb p.modeIndicator.toNat 4 ++ bitsMsb payload.length w ++ payload.flatMap (fun b => bitsMsb b.toNat 8))
    (by simp; omega)
  have hlen : (bitsMsb p.modeIndicator.toNat 4 ++ bitsMsb payload.length w ++
      payload.flatMap (fun b => bitsMsb b.toNat 8)).length = 4 + w + 8 * payload.length := by simp; omega
  rw [hlen] at ht
  rw [dataStream, appendBits_of_fits (by simp; omega), except_bind_ok, List.nil_append,
    appendBits_of_fits (by simp; omega), except_bind_ok, appendBytes_of_fits payload (by simp; omega), except_bind_ok]
  obtain ⟨bs, h1, h2⟩ := except_bind_eq_ok.mp ht
  rw [h1, except_bind_ok, h2, except_bind_ok,
    padBytes_of_room D hD D 0 (m := D - padStart (4 + w + 8 * payload.length) D)
      (by rw [List.length_append, hlen, List.length_replicate]; omega) (by omega)]
  simp

end Sys2Proof.Machine
end

