-- ==== Sys2Proof/Laws/Memory.lean ====
section
/-! SUPPORT. The laws of the storage arrays: a read after a write, writes elsewhere, runs of writes, and the canonical
form, which every operation keeps. -/

namespace Sys2Proof.Machine

/-! ## One byte -/

theorem Memory.read?_write (m : Memory) (a b : Nat) (v : Byte) :
    (m.write a v).read? b = if b = a then some v else m.read? b := by
  induction m with
  | nil => simp [Memory.write, Memory.read?, eq_comm]
  | cons kv m ih =>
    obtain ⟨k, u⟩ := kv
    simp only [Memory.write]
    split
    · simp only [Memory.read?, eq_comm (a := a)]
    · split
      · rename_i h; subst h
        simp only [Memory.read?, eq_comm (a := a)]; by_cases hb : b = a <;> simp [hb]
      · rename_i h
        simp only [Memory.read?, ih]
        by_cases hb : b = a
        · subst hb; simp [Ne.symm h]
        · simp [hb]

@[simp] theorem Memory.read?_write_same (m : Memory) (a : Nat) (v : Byte) : (m.write a v).read? a = some v := by
  simp [Memory.read?_write]

theorem Memory.read?_write_ne (m : Memory) {a b : Nat} (v : Byte) (h : b ≠ a) :
    (m.write a v).read? b = m.read? b := by
  simp [Memory.read?_write, h]

/-! ## Runs of bytes -/

@[simp] theorem Memory.writeBytes_nil (m : Memory) (a : Nat) : m.writeBytes a [] = m := by
  simp [Memory.writeBytes]

/-- A run of writes puts byte k of the sequence at a + k and leaves every other place alone. -/
theorem Memory.read?_writeBytes (m : Memory) (a b : Nat) (bytes : List Byte) :
    (m.writeBytes a bytes).read? b =
      if a ≤ b ∧ b < a + bytes.length then bytes[b - a]? else m.read? b := by
  induction bytes generalizing m a with
  | nil => simp only [Memory.writeBytes_nil, List.length_nil]; rw [if_neg (by omega)]
  | cons v vs ih =>
    simp only [Memory.writeBytes, ih, Memory.read?_write, List.length_cons]
    rcases Nat.lt_trichotomy b a with h | rfl | h
    · rw [if_neg (by omega), if_neg (by omega), if_neg (by omega)]
    · simp
    · by_cases hb : b < a + (vs.length + 1)
      · rw [if_pos (by omega), if_pos (by omega)]
        obtain ⟨d, rfl⟩ : ∃ d, b = a + 1 + d := ⟨b - (a + 1), by omega⟩
        rw [show a + 1 + d - (a + 1) = d by omega, show a + 1 + d - a = d + 1 by omega, List.getElem?_cons_succ]
      · rw [if_neg (by omega), if_neg (by omega), if_neg (by omega)]

theorem Memory.read?_writeBytes_inside (m : Memory) (a k : Nat) (bytes : List Byte) (h : k < bytes.length) :
    (m.writeBytes a bytes).read? (a + k) = some bytes[k] := by
  rw [Memory.read?_writeBytes, if_pos (by omega), Nat.add_sub_cancel_left, List.getElem?_eq_getElem h]

theorem Memory.read?_writeBytes_outside (m : Memory) (a b : Nat) (bytes : List Byte)
    (h : b < a ∨ a + bytes.length ≤ b) : (m.writeBytes a bytes).read? b = m.read? b := by
  rw [Memory.read?_writeBytes, if_neg (by omega)]

/-! ## The canonical form -/

/-- The canonical form is: the indexes rise strictly. -/
theorem Memory.wf_iff (m : Memory) : m.wf = true ↔ (m.map Prod.fst).Pairwise (· < ·) := by
  induction m with
  | nil => simp [Memory.wf]
  | cons kv m ih =>
    cases m with
    | nil => simp [Memory.wf]
    | cons lv m =>
      obtain ⟨k, u⟩ := kv
      obtain ⟨l, v⟩ := lv
      simp only [Memory.wf, Bool.and_eq_true, decide_eq_true_eq, ih, List.map_cons, List.pairwise_cons,
        List.mem_cons, forall_eq_or_imp]
      exact ⟨fun ⟨h, h1, h2⟩ => ⟨⟨h, fun x hx => Nat.lt_trans h (h1 x hx)⟩, h1, h2⟩,
        fun ⟨⟨h, _⟩, h1, h2⟩ => ⟨h, h1, h2⟩⟩

theorem Memory.mem_write_key {m : Memory} {a : Nat} {v : Byte} {k : Nat} (h : k ∈ (m.write a v).map Prod.fst) :
    k = a ∨ k ∈ m.map Prod.fst := by
  induction m with
  | nil => simpa [Memory.write] using h
  | cons lu m ih =>
    obtain ⟨l, u⟩ := lu
    simp only [Memory.write] at h
    split at h
    · simpa using h
    · split at h
      · rename_i hal
        subst hal
        simpa using h
      · simp only [List.map_cons, List.mem_cons] at h ⊢
        rcases h with h | h
        · exact .inr (.inl h)
        · rcases ih h with h | h
          · exact .inl h
          · exact .inr (.inr h)

/-- A write keeps the canonical form. -/
theorem Memory.wf_write {m : Memory} (h : m.wf = true) (a : Nat) (v : Byte) : (m.write a v).wf = true := by
  rw [Memory.wf_iff] at h ⊢
  induction m with
  | nil => simp [Memory.write]
  | cons lu m ih =>
    obtain ⟨l, u⟩ := lu
    simp only [List.map_cons, List.pairwise_cons] at h
    simp only [Memory.write]
    split
    · rename_i hal
      simp only [List.map_cons, List.pairwise_cons, List.mem_cons, forall_eq_or_imp]
      exact ⟨⟨hal, fun x hx => Nat.lt_trans hal (h.1 x hx)⟩, h.1, h.2⟩
    · split
      · rename_i hal
        subst hal
        simpa using h
      · rename_i h1 h2
        simp only [List.map_cons, List.pairwise_cons]
        refine ⟨fun x hx => ?_, ih h.2⟩
        rcases Memory.mem_write_key hx with rfl | hx
        · omega
        · exact h.1 x hx

/-- A run of writes keeps the canonical form. -/
theorem Memory.wf_writeBytes {m : Memory} (h : m.wf = true) (a : Nat) (bytes : List Byte) :
    (m.writeBytes a bytes).wf = true := by
  induction bytes generalizing m a with
  | nil => simpa using h
  | cons v vs ih => exact ih (Memory.wf_write h a v) (a + 1)

/-- A write adds no index but its own. -/
theorem Memory.write_range {m : Memory} {n : Nat} (h : ∀ p ∈ m, p.1 < n) {a : Nat} (ha : a < n) (v : Byte) :
    ∀ p ∈ m.write a v, p.1 < n := by
  intro p hp
  rcases Memory.mem_write_key (List.mem_map_of_mem hp) with h1 | h1
  · rw [h1]; exact ha
  · obtain ⟨q, hq, h2⟩ := List.mem_map.mp h1
    rw [← h2]; exact h q hq

/-- A run of writes that ends inside the array adds no index outside it. -/
theorem Memory.writeBytes_range {m : Memory} {n : Nat} (h : ∀ p ∈ m, p.1 < n) {a : Nat} (bytes : List Byte)
    (ha : a + bytes.length ≤ n) : ∀ p ∈ m.writeBytes a bytes, p.1 < n := by
  induction bytes generalizing m a with
  | nil => simpa using h
  | cons v vs ih =>
    simp only [List.length_cons] at ha
    exact ih (Memory.write_range h (by omega) v) (by omega)

/-- In canonical form, arrays that read alike are the same data (log 4). -/
theorem Memory.ext_of_wf {m n : Memory} (hm : m.wf = true) (hn : n.wf = true) (h : ∀ a, m.read? a = n.read? a) :
    m = n := by
  rw [Memory.wf_iff] at hm hn
  have absent : ∀ (l : Memory) (k : Nat), (∀ x ∈ l.map Prod.fst, k < x) → l.read? k = none := by
    intro l k hl
    induction l with
    | nil => rfl
    | cons q l ih =>
      have := hl q.1 (by simp)
      rw [Memory.read?, if_neg (by omega)]
      exact ih fun x hx => hl x (by simp [hx])
  induction m generalizing n with
  | nil =>
    cases n with
    | nil => rfl
    | cons q n => have := h q.1; simp [Memory.read?] at this
  | cons p m ih =>
    cases n with
    | nil => have := h p.1; simp [Memory.read?] at this
    | cons q n =>
      obtain ⟨k, u⟩ := p
      obtain ⟨l, v⟩ := q
      simp only [List.map_cons, List.pairwise_cons] at hm hn
      have hkl : k = l := by
        rcases Nat.lt_trichotomy k l with hlt | heq | hgt
        · have h1 := h k
          rw [Memory.read?, if_pos rfl, Memory.read?, if_neg (by omega),
            absent n k fun x hx => Nat.lt_trans hlt (hn.1 x hx)] at h1
          cases h1
        · exact heq
        · have h1 := h l
          rw [Memory.read?, if_neg (by omega), absent m l fun x hx => Nat.lt_trans hgt (hm.1 x hx), Memory.read?,
            if_pos rfl] at h1
          cases h1
      subst hkl
      have hv : u = v := by simpa [Memory.read?] using h k
      subst hv
      rw [ih hm.2 hn.2 fun a => ?_]
      by_cases ha : k = a
      · subst ha; rw [absent m k hm.1, absent n k hn.1]
      · simpa [Memory.read?, ha] using h a

/-! ## The arrays of the state -/

theorem State.cwByte_of_write (s : State) (a b : Nat) (v : Byte) :
    { s with cw := s.cw.write a v }.cwByte b = if b = a then v else s.cwByte b := by
  simp only [State.cwByte, Memory.read?_write]; split <;> rfl

theorem State.plByte_of_write (s : State) (a b : Nat) (v : Byte) :
    { s with pl := s.pl.write a v }.plByte b = if b = a then v else s.plByte b := by
  simp only [State.plByte, Memory.read?_write]; split <;> rfl

end Sys2Proof.Machine
end

