-- ==== Sys2Proof/Laws/Polynomial.lean ====
section
/-! SUPPORT. Generator polynomials and remainders: lengths, the leading coefficient, and what a command that loads the
generator buffer leaves there. -/

namespace Sys2Proof.Machine

/-! ## The field -/

@[simp] theorem gfMul_zero_left (b : Byte) : gfMul 0#8 b = 0#8 := rfl

@[simp] theorem gfMul_zero_right (a : Byte) : gfMul a 0#8 = 0#8 := by
  unfold gfMul
  split
  · rename_i h; cases h
  · rfl

/-! ## Generators (43_reed_solomon.md R170, R171) -/

@[simp] theorem mulLinear_length (p : List Byte) (r : Byte) : (mulLinear p r).length = p.length + 1 := by
  simp [mulLinear]

theorem genPoly_zero : genPoly 0 = [0x01#8] := rfl

theorem genPoly_succ (n : Nat) : genPoly (n + 1) = mulLinear (genPoly n) (gfExp n) := by
  simp [genPoly, List.range_succ]

@[simp] theorem genPoly_length (n : Nat) : (genPoly n).length = n + 1 := by
  induction n with
  | zero => rfl
  | succ n ih => rw [genPoly_succ, mulLinear_length, ih]

/-- A generator is monic. -/
theorem genPoly_head (n : Nat) : ∃ p, genPoly n = 0x01#8 :: p := by
  induction n with
  | zero => exact ⟨[], rfl⟩
  | succ n ih =>
    obtain ⟨p, hp⟩ := ih
    exact ⟨_, by rw [genPoly_succ, hp]; simp only [mulLinear, List.cons_append, List.zipWith_cons_cons]; rfl⟩

theorem genPoly_tail_length (n : Nat) : (genPoly n).tail.length = n := by simp

/-! ## Remainders (R172) -/

@[simp] theorem xorInto_length (xs ys : List Byte) : (xorInto xs ys).length = xs.length := by
  induction xs generalizing ys with
  | nil => cases ys <;> rfl
  | cons x xs ih => cases ys <;> simp [xorInto, ih]

theorem xorInto_getElem? (xs ys : List Byte) (k : Nat) (h : k < xs.length) :
    (xorInto xs ys)[k]? = some (xs[k] ^^^ ys.getD k 0#8) := by
  induction xs generalizing ys k with
  | nil => simp at h
  | cons x xs ih =>
    cases ys with
    | nil => simp only [xorInto, List.getElem?_eq_getElem h, List.getD_nil, BitVec.xor_zero]
    | cons y ys =>
      cases k with
      | zero => simp [xorInto]
      | succ k => simpa [xorInto] using ih ys k (by simpa using h)

theorem divide_length (g : List Byte) (len : Nat) (buf : List Byte) : (divide g len buf).length = buf.length - len := by
  induction len generalizing buf with
  | zero => simp [divide]
  | succ len ih =>
    cases buf with
    | nil => simp [divide]
    | cons c rest =>
      rw [divide, ih]
      split <;> simp

@[simp] theorem rsRem_length (data : List Byte) (n : Nat) : (rsRem data n).length = n := by
  simp [rsRem, divide_length]

/-! ## The generator buffer (10_state.md R44) -/

/-- What loading gen(n) leaves in the generator buffer. -/
theorem State.loadGenerator_genByte (s : State) (n k : Nat) :
    (s.loadGenerator n).genByte k = if k ≤ n then (genPoly n).getD k 0#8 else s.genByte k := by
  simp only [State.genByte, State.loadGenerator_gen, State.loadGenerator_draw, Memory.read?_writeBytes, genPoly_length]
  by_cases h : k ≤ n
  · rw [if_pos (by omega), if_pos h, Nat.sub_zero, List.getD_eq_getElem?_getD, List.getElem?_eq_getElem (by simp; omega)]
    rfl
  · rw [if_neg (by omega), if_neg h]

/-- GEN[0] is 1 after any load (10_state.md R51). -/
theorem State.loadGenerator_genByte_zero (s : State) (n : Nat) : (s.loadGenerator n).genByte 0 = 0x01#8 := by
  obtain ⟨p, hp⟩ := genPoly_head n
  rw [State.loadGenerator_genByte, if_pos (Nat.zero_le n), hp]; rfl

end Sys2Proof.Machine
end

