-- ==== Sys2Proof/Laws/Grid.lean ====
section
/-! SUPPORT. The module grid: reading after writing a cell, what a run of stamps does, what the placer does, and that none
of them changes the size of the grid or a cell already set (00_scope.md R16). -/

namespace Sys2Proof.Machine

/-! ## One cell -/

@[simp] theorem GridCell.ofBit_ne_unset (d : Bool) : GridCell.ofBit d ≠ .unset := by cases d <;> decide

@[simp] theorem setCell_length (N : Nat) (grid : List GridCell) (r c : Nat) (v : GridCell) :
    (setCell N grid r c v).length = grid.length := by simp [setCell]

/-- Cells inside the grid have distinct offsets (10_state.md R48). -/
theorem offset_inj {N r c r' c' : Nat} (hc : c < N) (hc' : c' < N) (h : r * N + c = r' * N + c') : r = r' ∧ c = c' := by
  have hr : r = r' := by
    rcases Nat.lt_trichotomy r r' with hlt | heq | hgt
    · have := Nat.mul_le_mul_right N (show r + 1 ≤ r' from hlt)
      rw [Nat.succ_mul] at this; omega
    · exact heq
    · have := Nat.mul_le_mul_right N (show r' + 1 ≤ r from hgt)
      rw [Nat.succ_mul] at this; omega
  subst hr
  exact ⟨rfl, by omega⟩

/-- The offset of a cell inside the grid is inside the list. -/
theorem offset_lt {N r c : Nat} (hr : r < N) (hc : c < N) : r * N + c < N * N := by
  have := Nat.mul_le_mul_right N (show r + 1 ≤ N from hr)
  rw [Nat.succ_mul] at this; omega

/-- Reading a cell after writing one. -/
theorem cellAt_setCell {N : Nat} {grid : List GridCell} (hg : grid.length = N * N) {r c r' c' : Nat} (hr : r < N)
    (hc : c < N) (hc' : c' < N) (v : GridCell) :
    cellAt N (setCell N grid r c v) r' c' = if r' = r ∧ c' = c then v else cellAt N grid r' c' := by
  have hlt : r * N + c < grid.length := hg ▸ offset_lt hr hc
  simp only [cellAt, setCell, List.getD_eq_getElem?_getD, List.getElem?_set]
  by_cases h : r' = r ∧ c' = c
  · obtain ⟨rfl, rfl⟩ := h
    simp [hlt]
  · rw [if_neg h, if_neg fun heq => h ?_]
    exact (offset_inj hc' hc heq.symm)

/-! ## Stamps -/

@[simp] theorem setIfUnset_length (N : Nat) (grid : List GridCell) (st : Stamp) :
    (setIfUnset N grid st).length = grid.length := by
  unfold setIfUnset; split <;> simp

/-- Everything one `set_if_unset` does to a cell inside the grid. -/
theorem cellAt_setIfUnset {N : Nat} {grid : List GridCell} (hg : grid.length = N * N) (st : Stamp) {r c : Nat}
    (hr : r < N) (hc : c < N) :
    cellAt N (setIfUnset N grid st) r c =
      if cellAt N grid r c = .unset ∧ st.row = r ∧ st.col = c then GridCell.ofBit st.dark else cellAt N grid r c := by
  unfold setIfUnset
  split
  · rename_i h
    simp only [Stamp.inside, Bool.and_eq_true, decide_eq_true_eq] at h
    obtain ⟨⟨h1, h2, h3, h4⟩, h5⟩ := h
    rw [cellAt_setCell hg (by omega) (by omega) hc]
    by_cases heq : r = st.row.toNat ∧ c = st.col.toNat
    · obtain ⟨h6, h7⟩ := heq
      rw [if_pos ⟨h6, h7⟩, if_pos ⟨by rw [h6, h7]; exact h5, by omega, by omega⟩]
    · rw [if_neg heq, if_neg]
      rintro ⟨-, h6, h7⟩
      exact heq ⟨by omega, by omega⟩
  · rename_i h
    rw [if_neg]
    rintro ⟨h1, h2, h3⟩
    refine h ?_
    simp only [Stamp.inside, Bool.and_eq_true, decide_eq_true_eq]
    exact ⟨⟨by omega, by omega, by omega, by omega⟩, by simpa [h2, h3] using h1⟩

@[simp] theorem stampAll_nil (N : Nat) (grid : List GridCell) : stampAll N grid [] = grid := rfl

@[simp] theorem stampAll_cons (N : Nat) (grid : List GridCell) (st : Stamp) (stamps : List Stamp) :
    stampAll N grid (st :: stamps) = stampAll N (setIfUnset N grid st) stamps := rfl

theorem stampAll_append (N : Nat) (grid : List GridCell) (xs ys : List Stamp) :
    stampAll N grid (xs ++ ys) = stampAll N (stampAll N grid xs) ys := by
  simp [stampAll]

@[simp] theorem stampAll_length (N : Nat) (grid : List GridCell) (stamps : List Stamp) :
    (stampAll N grid stamps).length = grid.length := by
  induction stamps generalizing grid with
  | nil => rfl
  | cons st stamps ih => rw [stampAll_cons, ih, setIfUnset_length]

/-- The stamp names this cell. -/
def Stamp.at (st : Stamp) (r c : Nat) : Bool := decide (st.row = r ∧ st.col = c)

/-- Everything a run of stamps does to a cell inside the grid: a set cell stays; an UNSET cell takes the first stamp that
names it. -/
theorem cellAt_stampAll {N : Nat} {grid : List GridCell} (hg : grid.length = N * N) (stamps : List Stamp) {r c : Nat}
    (hr : r < N) (hc : c < N) :
    cellAt N (stampAll N grid stamps) r c =
      if cellAt N grid r c ≠ .unset then cellAt N grid r c
      else ((stamps.find? (fun st => st.at r c)).map (fun st => GridCell.ofBit st.dark)).getD .unset := by
  induction stamps generalizing grid with
  | nil => by_cases h : cellAt N grid r c = .unset <;> simp [h]
  | cons st stamps ih =>
    rw [stampAll_cons, ih (by simpa using hg), cellAt_setIfUnset hg st hr hc]
    by_cases h : cellAt N grid r c = .unset
    · by_cases hst : st.row = r ∧ st.col = c
      · simp [h, hst, Stamp.at]
      · simp [h, hst, Stamp.at]
    · simp [h]

/-- A stamp changes no cell already set. -/
theorem stampAll_keeps {N : Nat} {grid : List GridCell} (hg : grid.length = N * N) (stamps : List Stamp) {r c : Nat}
    (hr : r < N) (hc : c < N) (h : cellAt N grid r c ≠ .unset) :
    cellAt N (stampAll N grid stamps) r c = cellAt N grid r c := by
  rw [cellAt_stampAll hg stamps hr hc, if_pos h]

/-- A cell that some stamp of the run names ends set. -/
theorem stampAll_sets {N : Nat} {grid : List GridCell} (hg : grid.length = N * N) {stamps : List Stamp} {st : Stamp}
    (hst : st ∈ stamps) {r c : Nat} (hr : r < N) (hc : c < N) (h1 : st.row = r) (h2 : st.col = c) :
    cellAt N (stampAll N grid stamps) r c ≠ .unset := by
  rw [cellAt_stampAll hg stamps hr hc]
  split
  · assumption
  · cases hf : stamps.find? (fun st => st.at r c) with
    | none => exact absurd (List.find?_eq_none.mp hf st hst) (by simp [Stamp.at, h1, h2])
    | some x => simp

/-! ## The stamps of a pattern -/

theorem mem_offsets {lo : Int} {n : Nat} {x : Int} : x ∈ offsets lo n ↔ lo ≤ x ∧ x < lo + n := by
  simp only [offsets, List.mem_map, List.mem_range]
  constructor
  · rintro ⟨k, hk, rfl⟩; omega
  · rintro ⟨h1, h2⟩; exact ⟨(x - lo).toNat, by omega, by omega⟩

/-- The stamps of a finder pattern: the offsets −1..7 (45_matrix.md R202). -/
theorem mem_finderStampsAt {R C : Int} {st : Stamp} :
    st ∈ finderStampsAt R C ↔
      ∃ r c : Int, -1 ≤ r ∧ r ≤ 7 ∧ -1 ≤ c ∧ c ≤ 7 ∧ st = ⟨R + r, C + c, finderDark r c⟩ := by
  simp only [finderStampsAt, List.mem_flatMap, List.mem_map, mem_offsets]
  constructor
  · rintro ⟨r, ⟨h1, h2⟩, c, ⟨h3, h4⟩, rfl⟩; exact ⟨r, c, by omega, by omega, by omega, by omega, rfl⟩
  · rintro ⟨r, c, h1, h2, h3, h4, rfl⟩; exact ⟨r, ⟨by omega, by omega⟩, c, ⟨by omega, by omega⟩, rfl⟩

/-- The stamps of an alignment pattern: the offsets −2..2 (R204). -/
theorem mem_alignStampsAt {a b : Nat} {st : Stamp} :
    st ∈ alignStampsAt a b ↔
      ∃ r c : Int, -2 ≤ r ∧ r ≤ 2 ∧ -2 ≤ c ∧ c ≤ 2 ∧ st = ⟨(a : Int) + r, (b : Int) + c, alignDark r c⟩ := by
  simp only [alignStampsAt, List.mem_flatMap, List.mem_map, mem_offsets]
  constructor
  · rintro ⟨r, ⟨h1, h2⟩, c, ⟨h3, h4⟩, rfl⟩; exact ⟨r, c, by omega, by omega, by omega, by omega, rfl⟩
  · rintro ⟨r, c, h1, h2, h3, h4, rfl⟩; exact ⟨r, ⟨by omega, by omega⟩, c, ⟨by omega, by omega⟩, rfl⟩

/-- The stamps of the timing patterns (R206). -/
theorem mem_timingStamps {N : Nat} {st : Stamp} :
    st ∈ timingStamps N ↔
      ∃ k : Nat, 8 ≤ k ∧ k + 9 ≤ N ∧
        (st = ⟨6, (k : Int), decide (k % 2 = 0)⟩ ∨ st = ⟨(k : Int), 6, decide (k % 2 = 0)⟩) := by
  simp only [timingStamps, List.mem_flatMap, List.mem_range, List.mem_cons, List.not_mem_nil, or_false]
  constructor
  · rintro ⟨i, hi, h⟩; exact ⟨8 + i, by omega, by omega, h⟩
  · rintro ⟨k, h1, h2, h⟩
    obtain ⟨i, rfl⟩ : ∃ i, k = 8 + i := ⟨k - 8, by omega⟩
    exact ⟨i, by omega, h⟩

/-! ## Alignment centers (R205) -/

@[simp] theorem alignCenter_length (N : Nat) (grid : List GridCell) (center : Nat × Nat) :
    (alignCenter N grid center).length = grid.length := by
  unfold alignCenter; split
  · rfl
  · split <;> simp

theorem alignCenters_fold_length (N : Nat) (centers : List (Nat × Nat)) (grid : List GridCell) :
    (centers.foldl (alignCenter N) grid).length = grid.length := by
  induction centers generalizing grid with
  | nil => rfl
  | cons p centers ih => rw [List.foldl_cons, ih, alignCenter_length]

theorem alignCenter_keeps {N : Nat} {grid : List GridCell} (hg : grid.length = N * N) (center : Nat × Nat) {r c : Nat}
    (hr : r < N) (hc : c < N) (h : cellAt N grid r c ≠ .unset) :
    cellAt N (alignCenter N grid center) r c = cellAt N grid r c := by
  unfold alignCenter; split
  · rfl
  · split
    · rfl
    · exact stampAll_keeps hg _ hr hc h

/-- The alignment phase changes no cell already set. -/
theorem alignCenters_fold_keeps {N : Nat} (centers : List (Nat × Nat)) {grid : List GridCell} (hg : grid.length = N * N)
    {r c : Nat} (hr : r < N) (hc : c < N) (h : cellAt N grid r c ≠ .unset) :
    cellAt N (centers.foldl (alignCenter N) grid) r c = cellAt N grid r c := by
  induction centers generalizing grid with
  | nil => rfl
  | cons p centers ih =>
    have h1 := alignCenter_keeps hg p hr hc h
    rw [List.foldl_cons, ih (by simpa using hg) (by rw [h1]; exact h), h1]

/-! ## The placer (R215) -/

@[simp] theorem placeCell_length (N : Nat) (cw : List Byte) (mask : Nat) (p : Placer) (rc : Nat × Nat) :
    (placeCell N cw mask p rc).grid.length = p.grid.length := by
  unfold placeCell; split <;> simp

/-- Everything one visit of the placer does: an UNSET cell takes bit `count`, masked; a set cell is passed over. -/
theorem cellAt_placeCell {N : Nat} {cw : List Byte} {mask : Nat} {p : Placer} (hg : p.grid.length = N * N)
    {rc : Nat × Nat} (h1 : rc.1 < N) (h2 : rc.2 < N) {r c : Nat} (hc : c < N) :
    cellAt N (placeCell N cw mask p rc).grid r c =
      if cellAt N p.grid rc.1 rc.2 = .unset ∧ r = rc.1 ∧ c = rc.2 then
        GridCell.ofBit (dataBit cw p.count ^^ maskFlip mask rc.1 rc.2)
      else cellAt N p.grid r c := by
  unfold placeCell
  split
  · rename_i h
    simp only []
    rw [cellAt_setCell hg h1 h2 hc]
    by_cases he : r = rc.1 ∧ c = rc.2
    · rw [if_pos he, if_pos ⟨h, he⟩]
    · rw [if_neg he, if_neg fun hh => he hh.2]
  · rename_i h
    rw [if_neg fun hh => h hh.1]

/-- The count goes up by one exactly when the cell was UNSET. -/
theorem placeCell_count (N : Nat) (cw : List Byte) (mask : Nat) (p : Placer) (rc : Nat × Nat) :
    (placeCell N cw mask p rc).count = p.count + (if cellAt N p.grid rc.1 rc.2 = .unset then 1 else 0) := by
  unfold placeCell; split <;> simp

/-- Everything a run of the placer over distinct cells inside the grid does: cells off the run stay, set cells stay, the
k-th UNSET cell of the run takes bit `count + k`, masked, and the count goes up by the number of UNSET cells. -/
theorem placeCells_spec {N : Nat} (cw : List Byte) (mask : Nat) (run : List (Nat × Nat)) {p : Placer}
    (hg : p.grid.length = N * N) (hin : ∀ rc ∈ run, rc.1 < N ∧ rc.2 < N) (hd : run.Nodup) :
    (run.foldl (placeCell N cw mask) p).grid.length = N * N ∧
    (run.foldl (placeCell N cw mask) p).count =
      p.count + (run.filter (fun rc => cellAt N p.grid rc.1 rc.2 = .unset)).length ∧
    (∀ r c, c < N → (r, c) ∉ run ∨ cellAt N p.grid r c ≠ .unset →
      cellAt N (run.foldl (placeCell N cw mask) p).grid r c = cellAt N p.grid r c) ∧
    ∀ k r c, (run.filter (fun rc => cellAt N p.grid rc.1 rc.2 = .unset))[k]? = some (r, c) →
      cellAt N (run.foldl (placeCell N cw mask) p).grid r c =
        GridCell.ofBit (dataBit cw (p.count + k) ^^ maskFlip mask r c) := by
  induction run generalizing p with
  | nil => simp [hg]
  | cons rc run ih =>
    obtain ⟨h1, h2⟩ := hin rc (by simp)
    obtain ⟨hnot, hd⟩ := List.nodup_cons.mp hd
    have hcell := fun r c (hc : c < N) => cellAt_placeCell (cw := cw) (mask := mask) hg h1 h2 (r := r) hc
    have hfilter : run.filter (fun q => cellAt N (placeCell N cw mask p rc).grid q.1 q.2 = .unset) =
        run.filter (fun q => cellAt N p.grid q.1 q.2 = .unset) := by
      refine List.filter_congr fun q hq => ?_
      rw [hcell q.1 q.2 (hin q (by simp [hq])).2, if_neg]
      rintro ⟨-, h3, h4⟩
      exact hnot (by rwa [show rc = q from Prod.ext h3.symm h4.symm])
    obtain ⟨i1, i2, i3, i4⟩ := ih (p := placeCell N cw mask p rc) (by simpa using hg) (fun q hq => hin q (by simp [hq])) hd
    rw [hfilter] at i2 i4
    simp only [List.foldl_cons]
    refine ⟨i1, ?_, ?_, ?_⟩
    · rw [i2, placeCell_count, List.filter_cons]
      by_cases h : cellAt N p.grid rc.1 rc.2 = .unset <;> simp [h]; omega
    · intro r c hc h
      have hstay : cellAt N (placeCell N cw mask p rc).grid r c = cellAt N p.grid r c := by
        rw [hcell r c hc, if_neg]
        rintro ⟨h3, rfl, rfl⟩
        rcases h with h | h
        · exact h (by simp)
        · exact h h3
      rw [i3 r c hc, hstay]
      rcases h with h | h
      · exact .inl fun hm => h (by simp [hm])
      · exact .inr (by rw [hstay]; exact h)
    · intro k r c hk
      rw [List.filter_cons] at hk
      by_cases h : cellAt N p.grid rc.1 rc.2 = .unset
      · rw [if_pos (by simpa using h)] at hk
        cases k with
        | zero =>
          simp only [List.getElem?_cons_zero, Option.some.injEq] at hk
          subst hk
          rw [i3 r c h2 (.inl hnot), hcell r c h2, if_pos ⟨h, rfl, rfl⟩]
          rfl
        | succ k =>
          rw [i4 k r c (by simpa using hk), placeCell_count, if_pos h]
          congr 3; omega
      · rw [if_neg (by simpa using h)] at hk
        rw [i4 k r c hk, placeCell_count, if_neg h]; rfl

end Sys2Proof.Machine
end

