-- ==== Sys2Proof/Laws/Zigzag.lean ====
section
/-! SUPPORT. The zigzag traversal (45_matrix.md R216): which cells a pair of columns and a tail of the traversal visit, and
that no cell is visited twice. -/

namespace Sys2Proof.Machine

/-! ## One pair of columns -/

theorem mem_zigzagPair {N col : Nat} {up : Bool} {r c : Nat} :
    (r, c) ∈ zigzagPair N col up ↔ r < N ∧ (c = col ∨ c = col - 1) := by
  have h : (r, c) ∈ zigzagPair N col up ↔ ∃ a < N, r = a ∧ c = col ∨ r = a ∧ c = col - 1 := by
    cases up <;> simp [zigzagPair]
  rw [h]
  constructor
  · rintro ⟨a, ha, ⟨rfl, h⟩ | ⟨rfl, h⟩⟩
    · exact ⟨ha, .inl h⟩
    · exact ⟨ha, .inr h⟩
  · rintro ⟨ha, h | h⟩
    · exact ⟨r, ha, .inl ⟨rfl, h⟩⟩
    · exact ⟨r, ha, .inr ⟨rfl, h⟩⟩

@[simp] theorem zigzagPair_length (N col : Nat) (up : Bool) : (zigzagPair N col up).length = 2 * N := by
  have h : ∀ l : List Nat, (l.flatMap fun r => [(r, col), (r, col - 1)]).length = 2 * l.length := by
    intro l
    induction l with
    | nil => rfl
    | cons r l ih => simp only [List.flatMap_cons, List.length_append, ih, List.length_cons, List.length_nil]; omega
  cases up <;> simp [zigzagPair, h]

theorem zigzagPair_nodup {N col : Nat} (up : Bool) (h : 1 ≤ col) : (zigzagPair N col up).Nodup := by
  have hl : ∀ l : List Nat, l.Nodup → (l.flatMap fun r => [(r, col), (r, col - 1)]).Nodup := by
    intro l hd
    induction l with
    | nil => simp
    | cons r l ih =>
      obtain ⟨h1, h2⟩ := List.nodup_cons.mp hd
      simp only [List.flatMap_cons]
      refine List.nodup_append.mpr ⟨?_, ih h2, ?_⟩
      · simp; omega
      · intro x hx y hy
        simp only [List.mem_cons, List.not_mem_nil, or_false] at hx
        simp only [List.mem_flatMap, List.mem_cons, List.not_mem_nil, or_false] at hy
        obtain ⟨q, hq, hy⟩ := hy
        rintro rfl
        have : q = r := by rcases hx with rfl | rfl <;> rcases hy with hy | hy <;> simp_all
        exact h1 (this ▸ hq)
  cases up
  · exact hl _ List.nodup_range
  · exact hl _ (List.nodup_reverse.mpr List.nodup_range)

/-! ## A tail of the traversal -/

theorem zigzagFrom_zero (N fuel : Nat) (up : Bool) : zigzagFrom N fuel 0 up = [] := by cases fuel <;> rfl

/-- A pair whose right column is not 6, then the rest two columns further left, in the other direction. -/
theorem zigzagFrom_succ (N fuel : Nat) {col : Nat} (up : Bool) (h0 : col ≠ 0) (h6 : col ≠ 6) :
    zigzagFrom N (fuel + 1) col up = zigzagPair N col up ++ zigzagFrom N fuel (col - 2) (!up) := by
  rw [zigzagFrom, if_neg h0]; simp only [if_neg h6]

/-- At column 6 the traversal goes on at column 5. -/
theorem zigzagFrom_six (N fuel : Nat) (up : Bool) :
    zigzagFrom N (fuel + 1) 6 up = zigzagFrom N (fuel + 1) 5 up := rfl

/-- Left of column 6 a tail visits every column from its start on; from column 6 or right of it, every one but 6. -/
theorem zigzagFrom_spec (N : Nat) (fuel col : Nat) (up : Bool) (hf : col ≤ fuel)
    (hcol : (col % 2 = 1 ∧ col ≤ 5) ∨ (col % 2 = 0 ∧ (col = 0 ∨ 6 ≤ col))) :
    (zigzagFrom N fuel col up).Nodup ∧
      (∀ r c, (r, c) ∈ zigzagFrom N fuel col up ↔ r < N ∧ col ≠ 0 ∧ c ≤ col ∧ (6 ≤ col → c ≠ 6)) ∧
      (zigzagFrom N fuel col up).length = N * (if col % 2 = 1 then col + 1 else col) := by
  induction fuel generalizing col up with
  | zero =>
    obtain rfl : col = 0 := by omega
    simp [zigzagFrom]
  | succ fuel ih =>
    by_cases h0 : col = 0
    · subst h0; simp [zigzagFrom_zero]
    -- the pair at `right` and the rest, for a start that is not 6
    have pair : ∀ right, right ≠ 0 → right ≠ 6 → right ≤ fuel + 1 →
        ((right % 2 = 1 ∧ right ≤ 5) ∨ (right % 2 = 0 ∧ 8 ≤ right)) →
        (zigzagFrom N (fuel + 1) right up).Nodup ∧
        (∀ r c, (r, c) ∈ zigzagFrom N (fuel + 1) right up ↔ r < N ∧ right ≠ 0 ∧ c ≤ right ∧ (6 ≤ right → c ≠ 6)) ∧
        (zigzagFrom N (fuel + 1) right up).length = N * (if right % 2 = 1 then right + 1 else right) := by
      intro right h1 h2 h3 h4
      obtain ⟨hn, hm, hl⟩ := ih (right - 2) (!up) (by omega) (by omega)
      rw [zigzagFrom_succ N fuel up h1 h2]
      refine ⟨List.nodup_append.mpr ⟨zigzagPair_nodup up (by omega), hn, ?_⟩, ?_, ?_⟩
      · rintro ⟨r, c⟩ hx ⟨r', c'⟩ hy heq
        cases heq
        rw [mem_zigzagPair] at hx
        rw [hm] at hy
        omega
      · intro r c
        rw [List.mem_append, mem_zigzagPair, hm]
        omega
      · rw [List.length_append, zigzagPair_length, hl]
        rcases h4 with h4 | h4
        · rcases (by omega : right = 1 ∨ right = 3 ∨ right = 5) with rfl | rfl | rfl <;> simp <;> omega
        · rw [if_neg (by omega), if_neg (by omega)]
          obtain ⟨m, rfl⟩ : ∃ m, right = m + 2 := ⟨right - 2, by omega⟩
          rw [Nat.add_sub_cancel, Nat.mul_add]; omega
    by_cases h6 : col = 6
    · subst h6
      obtain ⟨hn, hm, hl⟩ := pair 5 (by omega) (by omega) (by omega) (by omega)
      rw [zigzagFrom_six]
      refine ⟨hn, fun r c => ?_, by simpa using hl⟩
      rw [hm]; omega
    · exact pair col h0 h6 hf (by omega)

/-- The cells of the traversal, at the sides a configuration can give. -/
theorem mem_zigzag {N : Nat} (h : 9 ≤ N) (hodd : N % 2 = 1) (r c : Nat) :
    (r, c) ∈ zigzag N ↔ r < N ∧ c < N ∧ c ≠ 6 := by
  rw [zigzag, (zigzagFrom_spec N N (N - 1) true (by omega) (by omega)).2.1]; omega

theorem zigzag_nodup {N : Nat} (h : 9 ≤ N) (hodd : N % 2 = 1) : (zigzag N).Nodup :=
  (zigzagFrom_spec N N (N - 1) true (by omega) (by omega)).1

/-- Where column 6 is already set, placement leaves no cell UNSET (R217). -/
theorem placeAll_fills {N : Nat} (h : 9 ≤ N) (hodd : N % 2 = 1) (cw : List Byte) (mask : Nat) {grid : List GridCell}
    (hg : grid.length = N * N) (h6 : ∀ r, r < N → cellAt N grid r 6 ≠ .unset) {r c : Nat} (hr : r < N) (hc : c < N) :
    cellAt N (placeAll N cw mask grid).grid r c ≠ .unset := by
  obtain ⟨-, -, hkeep, hset⟩ := placeCells_spec cw mask (zigzag N) (p := ⟨grid, 0⟩) hg
    (fun rc hrc => by have := (mem_zigzag h hodd rc.1 rc.2).mp hrc; omega) (zigzag_nodup h hodd)
  by_cases hu : cellAt N grid r c = .unset
  · have hm : (r, c) ∈ zigzag N :=
      (mem_zigzag h hodd r c).mpr ⟨hr, hc, by rintro rfl; exact h6 r hr hu⟩
    have hf : (r, c) ∈ (zigzag N).filter (fun rc => cellAt N grid rc.1 rc.2 = .unset) := by simp [hm, hu]
    obtain ⟨k, hk⟩ := List.mem_iff_getElem?.mp hf
    rw [placeAll, hset k r c hk]
    exact GridCell.ofBit_ne_unset _
  · rw [placeAll, hkeep r c hc (.inr hu)]
    exact hu

end Sys2Proof.Machine
end

