-- ==== Sys2Proof/Laws/Commands.lean ====
section
/-! SUPPORT. The parts of the commands that can fail: for each, everything it can do when it succeeds, with its guards;
and the one form every command has. -/

namespace Sys2Proof.Machine

/-! ## Configuration (40_control.md R111) -/

/-- An entry is usable exactly under R111's checks. -/
theorem cfgLookup_eq_some {p : Params} {t : Tables} {ver : Nat} {ecl : BitVec 2} {e : CapEntry} :
    cfgLookup p t ver ecl = some e ↔
      1 ≤ ver ∧ ver ≤ p.maxVersion ∧ capAt t ver ecl = some e ∧ e.blocks = 1 ∧ e.ec ≤ e.total ∧ e.total ≤ p.cwBytes ∧
        e.ec ≤ 255 ∧ 8 * (e.total - e.ec) ≤ p.bsBits := by
  have hg : Config.genMax = 255 := rfl
  unfold cfgLookup
  split
  · constructor
    · intro h; cases h
    · rintro ⟨h1, h2, -⟩; omega
  · cases h : capAt t ver ecl with
    | none => simp
    | some x =>
      simp only []
      constructor
      · intro h2
        split at h2; · cases h2
        split at h2; · cases h2
        split at h2; · cases h2
        split at h2; · cases h2
        split at h2; · cases h2
        cases h2
        exact ⟨by omega, by omega, rfl, by omega, by omega, by omega, by omega, by omega⟩
      · rintro ⟨h1, h2, h3, h4, h5, h6, h7, h8⟩
        cases h3
        rw [if_neg (by omega), if_neg (by omega), if_neg (by omega), if_neg (by omega), if_neg (by omega)]

/-! ## Build phases (45_matrix.md) -/

/-- Everything an allocation that succeeds does (R201). -/
theorem allocGrid_eq_ok {s t : State} :
    s.allocGrid = .ok t ↔
      s.cfgValid = true ∧ t = { s with grid := List.replicate (s.sideN * s.sideN) .unset, phase := .allocated } := by
  unfold State.allocGrid
  split
  · rename_i h; simp [h, eq_comm]
  · rename_i h; simp [h]

/-- Everything a format placement that succeeds does (R210). -/
theorem stampFormat_eq_ok {s t : State} :
    s.stampFormat = .ok t ↔
      s.cfgMask.toNat ≤ 7 ∧
        t = { s with
          buildMask := BitVec.ofNat 3 s.cfgMask.toNat
          grid := stampAll s.sideN s.grid (formatStamps s.sideN (formatCode s.cfgEcl s.cfgMask.toNat))
          phase := .formatDone } := by
  unfold State.stampFormat
  split
  · rename_i h
    constructor
    · intro h2; cases h2
    · rintro ⟨h2, -⟩; omega
  · rename_i h
    constructor
    · intro h2; exact ⟨by omega, by simpa using h2.symm⟩
    · rintro ⟨-, rfl⟩; rfl

/-- Everything a placement that succeeds does (R215). -/
theorem placeCodewords_eq_ok {s t : State} {src count : Nat} :
    s.placeCodewords src count = .ok t ↔
      src + count ≤ s.params.cwBytes ∧
      (placeAll s.sideN (s.cwBytes src count) s.buildMask.toNat s.grid).grid.count .unset = 0 ∧
      t = { s with
        grid := (placeAll s.sideN (s.cwBytes src count) s.buildMask.toNat s.grid).grid
        placeCells := BitVec.ofNat 32 (placeAll s.sideN (s.cwBytes src count) s.buildMask.toNat s.grid).count
        placeBits :=
          BitVec.ofNat 32 (min (placeAll s.sideN (s.cwBytes src count) s.buildMask.toNat s.grid).count (8 * count))
        phase := .done } := by
  unfold State.placeCodewords
  split
  · rename_i h
    constructor
    · intro h2; cases h2
    · rintro ⟨h2, -⟩; omega
  · rename_i h
    simp only []
    split
    · rename_i h2
      constructor
      · intro h3; cases h3
      · rintro ⟨-, h3, -⟩; exact absurd h3 h2
    · rename_i h2
      constructor
      · intro h3; exact ⟨by omega, by omega, by simpa using h3.symm⟩
      · rintro ⟨-, -, rfl⟩; rfl

/-- No cell of a full grid is UNSET exactly when the count of UNSET cells is 0. -/
theorem count_unset_eq_zero {N : Nat} {grid : List GridCell} (hg : grid.length = N * N) :
    grid.count .unset = 0 ↔ ∀ r c, r < N → c < N → cellAt N grid r c ≠ .unset := by
  rw [List.count_eq_zero]
  constructor
  · intro h r c hr hc heq
    have hlt : r * N + c < grid.length := hg ▸ offset_lt hr hc
    rw [cellAt, List.getD_eq_getElem?_getD, List.getElem?_eq_getElem hlt] at heq
    exact h (heq ▸ List.getElem_mem hlt)
  · intro h hm
    obtain ⟨k, hk, heq⟩ := List.getElem_of_mem hm
    have hN : 0 < N := by
      rcases Nat.eq_zero_or_pos N with h0 | h0
      · subst h0; omega
      · exact h0
    refine h (k / N) (k % N) ((Nat.div_lt_iff_lt_mul hN).mpr (hg ▸ hk)) (Nat.mod_lt k hN) ?_
    rw [cellAt, show k / N * N + k % N = k by rw [Nat.mul_comm]; exact Nat.div_add_mod k N,
      List.getD_eq_getElem?_getD, List.getElem?_eq_getElem hk]
    exact heq

/-! ## Assembly (46_assembly.md R240) -/

/-- Everything an assembly that succeeds does. -/
theorem assembleCodewords_eq_ok {s t : State} :
    s.assembleCodewords = .ok t ↔
      s.cfgValid = true ∧ s.payloadBits ≤ 8 * s.capData.toNat ∧
      ∃ bs,
        dataStream s.params (s.plBytes s.plLen.toNat) (s.params.lenWidth s.cfgVersion.toNat) s.capData.toNat = .ok bs ∧
        t = { s.loadGenerator s.capEc.toNat with
          bs := bs
          cw := (s.cw.writeBytes 0 (streamBytes bs s.capData.toNat)).writeBytes s.capData.toNat
            (rsRem (streamBytes bs s.capData.toNat) s.capEc.toNat) } := by
  unfold State.assembleCodewords
  split
  · rename_i h; simp [h]
  · rename_i h
    split
    · rename_i h2
      constructor
      · intro h3; cases h3
      · rintro ⟨-, h3, -⟩; omega
    · rename_i h2
      rw [except_bind_eq_ok]
      constructor
      · rintro ⟨bs, h3, h4⟩
        exact ⟨by simpa using h, by omega, bs, h3, by simpa using h4.symm⟩
      · rintro ⟨-, -, bs, h3, rfl⟩
        exact ⟨bs, h3, rfl⟩

/-- An assembly succeeds when a configuration is set and its payload fits (R243). -/
theorem assembleCodewords_of_fits {s : State} (hv : s.cfgValid = true) (hD : 8 * s.capData.toNat ≤ s.params.bsBits)
    (hL : s.payloadBits ≤ 8 * s.capData.toNat) : ∃ t, s.assembleCodewords = .ok t := by
  have hd := dataStream_of_fits s.params (s.plBytes s.plLen.toNat) (w := s.params.lenWidth s.cfgVersion.toNat) hD
    (by rw [State.plBytes_length]; exact hL)
  exact ⟨_, assembleCodewords_eq_ok.mpr ⟨hv, hL, _, hd, rfl⟩⟩

/-! ## The build of ENCODE (R246) -/

/-- The finder and timing phases set the whole of column 6, whatever the alignment table says (45_matrix.md R217). -/
theorem column_six_set {s : State} (hg : s.grid.length = s.sideN * s.sideN) (hN : 21 ≤ s.sideN) {r : Nat}
    (hr : r < s.sideN) : cellAt s.sideN s.stampFinder.stampAlign.stampTiming.grid r 6 ≠ .unset := by
  have h6 : 6 < s.sideN := by omega
  simp only [State.stampTiming_grid, State.stampAlign_grid, State.stampFinder_grid, State.stampAlign_sideN,
    State.stampFinder_sideN]
  have hf : (stampAll s.sideN s.grid (finderStamps s.sideN)).length = s.sideN * s.sideN := by simpa using hg
  have ha := fun centers => (alignCenters_fold_length s.sideN centers _).trans hf
  by_cases hmid : 8 ≤ r ∧ r + 9 ≤ s.sideN
  · exact stampAll_sets (ha _) (mem_timingStamps.mpr ⟨r, hmid.1, hmid.2, .inr rfl⟩) hr h6 rfl rfl
  · have hset : cellAt s.sideN (stampAll s.sideN s.grid (finderStamps s.sideN)) r 6 ≠ .unset := by
      by_cases htop : r ≤ 7
      · refine stampAll_sets hg (st := ⟨0 + (r : Int), 0 + 6, finderDark r 6⟩) ?_ hr h6 (by simp) (by simp)
        simp only [finderStamps, List.mem_append, mem_finderStampsAt]
        exact .inl (.inl ⟨(r : Int), 6, by omega, by omega, by omega, by omega, rfl⟩)
      · refine stampAll_sets hg
          (st := ⟨(s.sideN : Int) - 7 + ((r : Int) - ((s.sideN : Int) - 7)), 0 + 6,
            finderDark ((r : Int) - ((s.sideN : Int) - 7)) 6⟩) ?_ hr h6 (by simp only []; omega) (by simp)
        simp only [finderStamps, List.mem_append, mem_finderStampsAt]
        exact .inr ⟨(r : Int) - ((s.sideN : Int) - 7), 6, by omega, by omega, by omega, by omega, rfl⟩
    have hset2 := alignCenters_fold_keeps (alignCenters (alignAt s.stampFinder.tables s.stampFinder.cfgVersion.toNat))
      hf hr h6 hset
    rw [stampAll_keeps (ha _) _ hr h6 (by rw [hset2]; exact hset), hset2]
    exact hset

/-- A placement succeeds when column 6 is set: GridIncomplete cannot arise (R217). -/
theorem placeCodewords_of_column {s : State} (hN : 9 ≤ s.sideN) (hodd : s.sideN % 2 = 1)
    (hg : s.grid.length = s.sideN * s.sideN) (h6 : ∀ r, r < s.sideN → cellAt s.sideN s.grid r 6 ≠ .unset) {src count : Nat}
    (hr : src + count ≤ s.params.cwBytes) : ∃ t, s.placeCodewords src count = .ok t := by
  have hlen := (placeCells_spec (s.cwBytes src count) s.buildMask.toNat (zigzag s.sideN) (p := ⟨s.grid, 0⟩) hg
    (fun rc hrc => by have := (mem_zigzag hN hodd rc.1 rc.2).mp hrc; omega) (zigzag_nodup hN hodd)).1
  exact ⟨_, placeCodewords_eq_ok.mpr
    ⟨hr, (count_unset_eq_zero hlen).mpr fun r c hr hc => placeAll_fills hN hodd _ _ hg h6 hr hc, rfl⟩⟩

/-- A build succeeds when a configuration is set, the mask is a pattern and the codewords lie in CW. -/
theorem buildGrid_of_configured {s : State} (hv : s.cfgValid = true) (hN : 21 ≤ s.sideN) (hodd : s.sideN % 2 = 1)
    (hm : s.cfgMask.toNat ≤ 7) (ht : s.capTotal.toNat ≤ s.params.cwBytes) : ∃ t, s.buildGrid = .ok t := by
  have halloc := allocGrid_eq_ok.mpr ⟨hv, rfl⟩
  generalize hb : ({ s with grid := List.replicate (s.sideN * s.sideN) .unset, phase := .allocated } : State) = b at halloc
  have hbN : b.sideN = s.sideN := by rw [← hb]; rfl
  have hbg : b.grid.length = b.sideN * b.sideN := by rw [hbN, ← hb]; simp
  have hlen : b.stampFinder.stampAlign.stampTiming.grid.length = b.sideN * b.sideN := by
    rw [State.stampTiming_grid, stampAll_length, State.stampAlign_grid, alignCenters_fold_length, State.stampFinder_grid,
      stampAll_length, hbg]
  have h6 := fun r (hr : r < b.sideN) => column_six_set hbg (by omega) hr
  have hbm : b.stampFinder.stampAlign.stampTiming.cfgMask.toNat ≤ 7 := by rw [← hb]; exact hm
  generalize hu : b.stampFinder.stampAlign.stampTiming = u at hlen h6 hbm
  have huN : u.sideN = b.sideN := by rw [← hu]; rfl
  have hfmt := stampFormat_eq_ok.mpr ⟨hbm, rfl⟩
  obtain ⟨t, h⟩ := placeCodewords_of_column
    (s := { u with
      buildMask := BitVec.ofNat 3 u.cfgMask.toNat
      grid := stampAll u.sideN u.grid (formatStamps u.sideN (formatCode u.cfgEcl u.cfgMask.toNat))
      phase := .formatDone })
    (show 9 ≤ u.sideN by omega) (show u.sideN % 2 = 1 by omega)
    (show (stampAll u.sideN u.grid _).length = u.sideN * u.sideN by rw [stampAll_length, hlen, huN])
    (fun r (hr : r < u.sideN) => by
      have := h6 r (by omega)
      show cellAt u.sideN (stampAll u.sideN u.grid _) r 6 ≠ .unset
      rw [stampAll_keeps (by rw [hlen, huN]) _ hr (by omega) (by rwa [huN]), huN]
      exact this)
    (show 0 + s.capTotal.toNat ≤ u.params.cwBytes by rw [← hu, ← hb]; simpa using ht)
  exact ⟨t, by simp only [State.buildGrid, halloc, except_bind_ok, hu, hfmt, h]⟩

/-- The checks of ENCODE, and its success when they pass. -/
theorem execEncode_of_configured {s : State} (hv : s.cfgValid = true) (hD : 8 * s.capData.toNat ≤ s.params.bsBits)
    (hL : s.payloadBits ≤ 8 * s.capData.toNat) (hN : 21 ≤ s.sideN) (hodd : s.sideN % 2 = 1) (hm : s.cfgMask.toNat ≤ 7)
    (ht : s.capTotal.toNat ≤ s.params.cwBytes) : ∃ g : State, execEncode s = .next (g.setResult (zext32 g.side)).succeed := by
  obtain ⟨a, ha⟩ := assembleCodewords_of_fits hv hD hL
  have heq := ha
  obtain ⟨-, -, bs, -, rfl⟩ := assembleCodewords_eq_ok.mp heq
  obtain ⟨g, hg⟩ := buildGrid_of_configured (s := { s.loadGenerator s.capEc.toNat with
      bs := bs
      cw := (s.cw.writeBytes 0 (streamBytes bs s.capData.toNat)).writeBytes s.capData.toNat
        (rsRem (streamBytes bs s.capData.toNat) s.capEc.toNat) }) hv hN hodd hm ht
  exact ⟨g, by simp only [execEncode, ha, except_bind_ok, hg, complete_ok]⟩

/-! ## Every command -/

/-- Every command ends by success or by raising an error, from the state it started in. -/
theorem exec_eq_complete (i : Instr) (s : State) : ∃ r, exec i s = complete s r := by
  cases i <;> first | exact ⟨_, rfl⟩ | exact ⟨.ok _, rfl⟩

/-- Everything any command can do: end in the new state of a success, or in its own state with the error reported. -/
theorem exec_cases {i : Instr} {s t : State} (h : exec i s = .next t) :
    (∃ u, exec i s = complete s (.ok u) ∧ t = u.succeed) ∨ (∃ e x, t = s.failed e x) := by
  obtain ⟨r, hr⟩ := exec_eq_complete i s
  rw [hr] at h
  rcases complete_eq_next.mp h with ⟨u, rfl, rfl⟩ | ⟨e, rfl, rfl⟩
  · exact .inl ⟨u, hr, rfl⟩
  · exact .inr ⟨_, _, rfl⟩

/-! ## The memory operations keep the canonical form (log 4) -/

/-- The reset state's arrays are in canonical form. -/
theorem reset_memory_wf : State.reset.gen.wf = true ∧ State.reset.cw.wf = true ∧ State.reset.pl.wf = true := by decide

/-- Loading the generator buffer keeps its canonical form. -/
theorem State.loadGenerator_wf {s : State} (h : s.gen.wf = true) (n : Nat) : (s.loadGenerator n).gen.wf = true :=
  Memory.wf_writeBytes h 0 (genPoly n)

end Sys2Proof.Machine
end

