-- ==== Sys2Proof/Laws/Encoding.lean ====
section
/-! SUPPORT. The fields of a packed command word, and what decoding a word with a given OP comes to. -/

namespace Sys2Proof

/-! ## Fields of a packed word (30_encoding.md R80) -/

@[simp] theorem fieldOp_packWord (op : Byte) (f : Fields) : fieldOp (packWord op f) = op := by
  apply BitVec.eq_of_getLsbD_eq
  intro i hi
  simp only [fieldOp, packWord, BitVec.getLsbD_extractLsb', BitVec.getLsbD_append]
  rw [if_neg (by omega), if_neg (by omega), if_neg (by omega), show 56 + i - 32 - 16 - 8 = i by omega]
  simp [hi]

@[simp] theorem fieldA_packWord (op : Byte) (f : Fields) : fieldA (packWord op f) = f.a := by
  apply BitVec.eq_of_getLsbD_eq
  intro i hi
  simp only [fieldA, packWord, BitVec.getLsbD_extractLsb', BitVec.getLsbD_append]
  rw [if_neg (by omega), if_neg (by omega), if_pos (by omega), show 48 + i - 32 - 16 = i by omega]
  simp [hi]

@[simp] theorem fieldB_packWord (op : Byte) (f : Fields) : fieldB (packWord op f) = f.b := by
  apply BitVec.eq_of_getLsbD_eq
  intro i hi
  simp only [fieldB, packWord, BitVec.getLsbD_extractLsb', BitVec.getLsbD_append]
  rw [if_neg (by omega), if_pos (by omega), show 32 + i - 32 = i by omega]
  simp [hi]

@[simp] theorem fieldC_packWord (op : Byte) (f : Fields) : fieldC (packWord op f) = f.c := by
  apply BitVec.eq_of_getLsbD_eq
  intro i hi
  simp only [fieldC, packWord, BitVec.getLsbD_extractLsb', BitVec.getLsbD_append]
  rw [if_pos (by omega), Nat.zero_add]
  simp [hi]

@[simp] theorem fieldsOf_packWord (op : Byte) (f : Fields) : fieldsOf (packWord op f) = f := by
  simp [fieldsOf]

/-- A word is the packing of its fields: no bit of it lies outside OP, A, B and C. -/
theorem packWord_fields (w : CommandWord) : packWord (fieldOp w) (fieldsOf w) = w := by
  apply BitVec.eq_of_getLsbD_eq
  intro i hi
  simp only [packWord, fieldsOf, fieldOp, fieldA, fieldB, fieldC, BitVec.getLsbD_append, BitVec.getLsbD_extractLsb']
  split
  · rename_i h; simp [h]
  · split
    · rename_i h1 h2; simp [h2, show 32 + (i - 32) = i by omega]
    · split
      · rename_i h1 h2 h3; simp [h3, show 48 + (i - 32 - 16) = i by omega]
      · simp [show i - 32 - 16 - 8 < 8 by omega, show 56 + (i - 32 - 16 - 8) = i by omega]

/-- Masking a packed word masks each of its fields. -/
theorem packWord_and (op mop : Byte) (f m : Fields) :
    packWord op f &&& packWord mop m = packWord (op &&& mop) ⟨f.a &&& m.a, f.b &&& m.b, f.c &&& m.c⟩ := by
  apply BitVec.eq_of_getLsbD_eq
  intro i hi
  simp only [packWord, BitVec.getLsbD_and, BitVec.getLsbD_append]
  split
  · rfl
  · split
    · rfl
    · split <;> rfl

/-- Packed words are equal exactly when their fields are. -/
theorem packWord_inj {op op' : Byte} {f f' : Fields} : packWord op f = packWord op' f' ↔ op = op' ∧ f = f' :=
  ⟨fun h => ⟨by simpa using congrArg fieldOp h, by simpa using congrArg fieldsOf h⟩, fun ⟨h, h'⟩ => h ▸ h' ▸ rfl⟩

/-! ## Sub-fields of C (R80) -/

@[simp] theorem Fields.cl_append (a : Byte) (b cl ch : BitVec 16) : (Fields.mk a b (ch ++ cl)).cl = cl := by
  apply BitVec.eq_of_getLsbD_eq
  intro i hi
  simp only [Fields.cl, BitVec.getLsbD_extractLsb', BitVec.getLsbD_append]
  rw [if_pos (by omega), Nat.zero_add]
  simp [hi]

@[simp] theorem Fields.ch_append (a : Byte) (b cl ch : BitVec 16) : (Fields.mk a b (ch ++ cl)).ch = ch := by
  apply BitVec.eq_of_getLsbD_eq
  intro i hi
  simp only [Fields.ch, BitVec.getLsbD_extractLsb', BitVec.getLsbD_append]
  rw [if_neg (by omega), show 16 + i - 16 = i by omega]
  simp [hi]

/-! ## The opcode map (R83) -/

/-- Every row's match has its OP at the top and zeros below, and its mask covers OP whole. -/
theorem opTable_shape : ∀ row ∈ opTable, row.fixed = packWord row.op Fields.zero ∧ fieldOp row.mask = 0xFF#8 := by
  decide +kernel

/-- No two rows have the same OP. -/
theorem opTable_ops_distinct : (opTable.map (fun r => r.op)).Nodup := by
  decide +kernel

/-- The row found for an OP is a row of the map with that OP. -/
theorem opRow?_spec {op : Byte} {row : OpRow} (h : opRow? op = some row) : row ∈ opTable ∧ row.op = op :=
  ⟨List.mem_of_find?_eq_some h, by simpa using List.find?_some h⟩

/-- An OP with no row found is the OP of no row. -/
theorem opRow?_none {op : Byte} (h : opRow? op = none) : ∀ row ∈ opTable, row.op ≠ op := by
  intro row hr; simpa using List.find?_eq_none.mp h row hr

/-- Every row is the row found for its OP. -/
theorem opRow?_of_mem : ∀ row ∈ opTable, (opRow? row.op).map (fun r => r.mnemonic) = some row.mnemonic := by
  decide +kernel

/-- A word matches a row exactly when its OP is the row's and the bits the row does not use are zero. -/
theorem match_iff {row : OpRow} (h : row ∈ opTable) (w : CommandWord) :
    w &&& row.mask = row.fixed ↔
      fieldOp w = row.op ∧ fieldA w &&& fieldA row.mask = 0#8 ∧ fieldB w &&& fieldB row.mask = 0#16 ∧
        fieldC w &&& fieldC row.mask = 0#32 := by
  obtain ⟨hf, hm⟩ := opTable_shape row h
  conv_lhs => rw [← packWord_fields w, ← packWord_fields row.mask, packWord_and, hf, packWord_inj, hm]
  simp only [fieldsOf, Fields.zero, show (0xFF#8 : Byte) = BitVec.allOnes 8 from rfl, BitVec.and_allOnes,
    Fields.mk.injEq]

/-- A packed word decodes to what its OP's row builds from its fields, when the bits the row does not use are zero. -/
theorem decode_packWord {op : Byte} {row : OpRow} {f : Fields} (h : opRow? op = some row)
    (ha : f.a &&& fieldA row.mask = 0#8) (hb : f.b &&& fieldB row.mask = 0#16) (hc : f.c &&& fieldC row.mask = 0#32) :
    decode (packWord op f) = .ok (row.build f) := by
  have hm := (match_iff (opRow?_spec h).1 (packWord op f)).mpr
    ⟨by simp [(opRow?_spec h).2], by simpa using ha, by simpa using hb, by simpa using hc⟩
  simp [decode, h, hm]

/-- What a word that decodes is: a row's OP, its unused bits zero, and the row's command. -/
theorem decode_eq_ok {w : CommandWord} {i : Instr} (h : decode w = .ok i) :
    ∃ row, row ∈ opTable ∧ row.op = fieldOp w ∧ w &&& row.mask = row.fixed ∧ i = row.build (fieldsOf w) := by
  unfold decode at h
  split at h
  · cases h
  · rename_i row hr
    split at h
    · rename_i hm
      exact ⟨row, (opRow?_spec hr).1, (opRow?_spec hr).2, hm, by simpa using h.symm⟩
    · cases h

end Sys2Proof
end

