-- ==== Sys2Proof/Laws/PerInstr.lean ====
section
/-! SUPPORT. The family OpField: the command word of every command carries its OP in w[63:56], and that OP is the OP of a
row of the opcode map (30_encoding.md R80, R83). -/

namespace Sys2Proof.Laws.OpField

/-- The word of `i` carries `i`'s OP, which is the OP of a row of the opcode map. -/
def Statement (i : Instr) : Prop := fieldOp (encode i) = opcodeOf i ∧ (opRow? (opcodeOf i)).isSome = true

theorem nop : Statement .nop := ⟨fieldOp_packWord _ _, rfl⟩
theorem cfgSet (ecl : BitVec 2) (version : Nat) : Statement (.cfgSet ecl version) := ⟨fieldOp_packWord _ _, rfl⟩
theorem cfgMask (m : Byte) : Statement (.cfgMask m) := ⟨fieldOp_packWord _ _, rfl⟩
theorem regRead (n : Nat) : Statement (.regRead n) := ⟨fieldOp_packWord _ _, rfl⟩
theorem clrSticky : Statement .clrSticky := ⟨fieldOp_packWord _ _, rfl⟩
theorem cwWr (v : Byte) (a : Nat) : Statement (.cwWr v a) := ⟨fieldOp_packWord _ _, rfl⟩
theorem cwRd (a : Nat) : Statement (.cwRd a) := ⟨fieldOp_packWord _ _, rfl⟩
theorem plWr (v : Byte) (a : Nat) : Statement (.plWr v a) := ⟨fieldOp_packWord _ _, rfl⟩
theorem plRd (a : Nat) : Statement (.plRd a) := ⟨fieldOp_packWord _ _, rfl⟩
theorem plSetlen (n : Nat) : Statement (.plSetlen n) := ⟨fieldOp_packWord _ _, rfl⟩
theorem bsClear : Statement .bsClear := ⟨fieldOp_packWord _ _, rfl⟩
theorem bsPut (width : Nat) (value : Word) : Statement (.bsPut width value) := ⟨fieldOp_packWord _ _, rfl⟩
theorem bsPutbit (b : Bool) : Statement (.bsPutbit b) := ⟨fieldOp_packWord _ _, rfl⟩
theorem bsLen : Statement .bsLen := ⟨fieldOp_packWord _ _, rfl⟩
theorem bsGet (i : Nat) : Statement (.bsGet i) := ⟨fieldOp_packWord _ _, rfl⟩
theorem bsStore (dst : Nat) (n : Nat) : Statement (.bsStore dst n) := ⟨fieldOp_packWord _ _, rfl⟩
theorem gfMul (a : Byte) (b : Byte) : Statement (.gfMul a b) := ⟨fieldOp_packWord _ _, rfl⟩
theorem gfExp (i : Nat) : Statement (.gfExp i) := ⟨fieldOp_packWord _ _, rfl⟩
theorem gfLog (a : Byte) : Statement (.gfLog a) := ⟨fieldOp_packWord _ _, rfl⟩
theorem rsGen (n : Nat) : Statement (.rsGen n) := ⟨fieldOp_packWord _ _, rfl⟩
theorem genRd (k : Nat) : Statement (.genRd k) := ⟨fieldOp_packWord _ _, rfl⟩
theorem rsEnc (n : Nat) (src : Nat) (len : Nat) (dst : Nat) : Statement (.rsEnc n src len dst) := ⟨fieldOp_packWord _ _, rfl⟩
theorem fmtEnc (d : BitVec 5) : Statement (.fmtEnc d) := ⟨fieldOp_packWord _ _, rfl⟩
theorem maskEval (p : Nat) (i : Nat) (j : Nat) : Statement (.maskEval p i j) := ⟨fieldOp_packWord _ _, rfl⟩
theorem mxAlloc : Statement .mxAlloc := ⟨fieldOp_packWord _ _, rfl⟩
theorem mxFinder : Statement .mxFinder := ⟨fieldOp_packWord _ _, rfl⟩
theorem mxAlign : Statement .mxAlign := ⟨fieldOp_packWord _ _, rfl⟩
theorem mxTiming : Statement .mxTiming := ⟨fieldOp_packWord _ _, rfl⟩
theorem mxFormat : Statement .mxFormat := ⟨fieldOp_packWord _ _, rfl⟩
theorem mxPlace (src : Nat) (count : Nat) : Statement (.mxPlace src count) := ⟨fieldOp_packWord _ _, rfl⟩
theorem mxRead (r : Nat) (c : Nat) : Statement (.mxRead r c) := ⟨fieldOp_packWord _ _, rfl⟩
theorem mxIsdark (r : Nat) (c : Nat) : Statement (.mxIsdark r c) := ⟨fieldOp_packWord _ _, rfl⟩
theorem mxSide : Statement .mxSide := ⟨fieldOp_packWord _ _, rfl⟩
theorem assemble : Statement .assemble := ⟨fieldOp_packWord _ _, rfl⟩
theorem encode : Statement .encode := ⟨fieldOp_packWord _ _, rfl⟩

end Sys2Proof.Laws.OpField
end

