-- ==== Sys2Proof/Tests/Slice0.lean ====
section
/-! SUPPORT. Tests of the model against words and values written in the spec: the rules' own examples, and
95_test_vectors.md (its section in each comment). -/

namespace Sys2Proof.Tests

-- One test at a time: tests that wait for the kernel in parallel need a thread, and its stack, each.
set_option Elab.async false

open Sys2Proof.Machine

/-! ## Well-formedness: each field check refuses an operand one over its field (30_encoding.md R81) -/

theorem test_wellFormed_accepts_field_limits :
    [Instr.cfgSet 3#2 255, .regRead 255, .cwWr 0xFF#8 65535, .cwRd 65535, .plWr 0xFF#8 65535, .plRd 65535, .plSetlen 65535,
      .bsPut 255 0xFFFFFFFF#32, .bsGet 0xFFFFFFFF, .bsStore 65535 65535, .gfExp 255, .rsGen 255, .genRd 255,
      .rsEnc 255 65535 65535 65535, .maskEval 255 65535 65535, .mxPlace 65535 65535, .mxRead 65535 65535,
      .mxIsdark 65535 65535].all Instr.wellFormed = true := by decide

theorem test_wellFormed_refuses_eight_bit_overflow :
    [Instr.cfgSet 0#2 256, .regRead 256, .bsPut 256 0#32, .gfExp 256, .rsGen 256, .genRd 256, .rsEnc 256 0 0 0,
      .maskEval 256 0 0].any Instr.wellFormed = false := by decide

theorem test_wellFormed_refuses_sixteen_bit_overflow :
    [Instr.cwWr 0#8 65536, .cwRd 65536, .plWr 0#8 65536, .plRd 65536, .plSetlen 65536, .bsStore 65536 0, .bsStore 0 65536,
      .rsEnc 0 65536 0 0, .rsEnc 0 0 65536 0, .rsEnc 0 0 0 65536, .maskEval 0 65536 0, .maskEval 0 0 65536,
      .mxPlace 65536 0, .mxPlace 0 65536, .mxRead 65536 0, .mxRead 0 65536, .mxIsdark 65536 0,
      .mxIsdark 0 65536].any Instr.wellFormed = false := by decide

theorem test_wellFormed_refuses_bsGet_overflow : Instr.wellFormed (.bsGet (2 ^ 32)) = false := by decide

/-! ## Decoding: a word of every command, from the examples of files 40 to 46 and of file 95 -/

/-- The word decodes to the command and the command encodes to the word. -/
def isWordOf (w : CommandWord) (i : Instr) : Bool := decide (decode w = .ok i) && decide (encode i = w)

theorem test_decode_control :
    isWordOf 0x0000000000000000#64 .nop && isWordOf 0x0101000200000000#64 (.cfgSet 1#2 2) &&
    isWordOf 0x0209000000000000#64 (.cfgMask 9#8) && isWordOf 0x0311000000000000#64 (.regRead 17) &&
    isWordOf 0x0400000000000000#64 .clrSticky && isWordOf 0x0802000100000000#64 (.cwWr 2#8 1) &&
    isWordOf 0x0900002200000000#64 (.cwRd 34) && isWordOf 0x0A65000100000000#64 (.plWr 0x65#8 1) &&
    isWordOf 0x0B00100000000000#64 (.plRd 4096) && isWordOf 0x0C00000B00000000#64 (.plSetlen 11) = true := by
  decide +kernel

theorem test_decode_packer :
    isWordOf 0x1000000000000000#64 .bsClear && isWordOf 0x11040000000001F4#64 (.bsPut 4 0x1F4#32) &&
    isWordOf 0x1201000000000000#64 (.bsPutbit true) && isWordOf 0x1200000000000000#64 (.bsPutbit false) &&
    isWordOf 0x1300000000000000#64 .bsLen && isWordOf 0x140000000000000D#64 (.bsGet 13) &&
    isWordOf 0x15000FFE00000004#64 (.bsStore 4094 4) = true := by decide +kernel

theorem test_decode_coding :
    isWordOf 0x205300CA00000000#64 (.gfMul 0x53#8 0xCA#8) && isWordOf 0x2108000000000000#64 (.gfExp 8) &&
    isWordOf 0x221D000000000000#64 (.gfLog 0x1D#8) && isWordOf 0x30FF000000000000#64 (.rsGen 255) &&
    isWordOf 0x3101000000000000#64 (.genRd 1) && isWordOf 0x32020FFF00000002#64 (.rsEnc 2 4095 2 0) &&
    isWordOf 0x32040000000A0000#64 (.rsEnc 4 0 0 10) && isWordOf 0x400B000000000000#64 (.fmtEnc 11#5) = true := by
  decide +kernel

theorem test_decode_matrix :
    isWordOf 0x5006000500000003#64 (.maskEval 6 5 3) && isWordOf 0x5100000000000000#64 .mxAlloc &&
    isWordOf 0x5200000000000000#64 .mxFinder && isWordOf 0x5300000000000000#64 .mxAlign &&
    isWordOf 0x5400000000000000#64 .mxTiming && isWordOf 0x5500000000000000#64 .mxFormat &&
    isWordOf 0x560000000000001A#64 (.mxPlace 0 26) && isWordOf 0x5700001E00000000#64 (.mxRead 30 0) &&
    isWordOf 0x5800000D00000008#64 (.mxIsdark 13 8) && isWordOf 0x5900000000000000#64 .mxSide &&
    isWordOf 0x6000000000000000#64 .assemble && isWordOf 0x6100000000000000#64 .encode = true := by decide +kernel

/-- Section 2.9, and the other unused-bit rows of sections 2.1 to 2.6. -/
theorem test_decode_illegal :
    [0x0500000000000000#64, 0x0000000000000001#64, 0x0104000100000000#64, 0x0300120000000000#64, 0x4020000000000000#64,
      0x1202000000000000#64, 0xFF00000000000000#64, 0x2001010000000000#64, 0x5000000000010000#64].map
      (fun w => match decode w with
        | .ok _ => none
        | .error e => some e) =
    [some DecodeError.reservedOpcode, some .unusedBits, some .unusedBits, some .unusedBits, some .unusedBits,
      some .unusedBits, some .reservedOpcode, some .unusedBits, some .unusedBits] := by decide +kernel

/-- The host's numbering of a table word: bit 0 is the least significant bit of the word. -/
theorem test_decodeTableWord : decodeTableWord 64 0x0A48000000000000 = some (.plWr 0x48#8 0) ∧
    decodeTableWord 64 0x0500000000000000 = none := by decide +kernel

/-! ## One command on a small state -/

/-- The next state of a command. -/
def after (i : Instr) (s : State) : State :=
  match exec i s with
  | .next t => t
  | _ => s

/-- The response of a command and ERR_INFO after it. -/
def reply (i : Instr) (s : State) : Response × Word := ((after i s).response, (after i s).errInfo)

/-- The reply of a success with this result, and of a failure with this code, RESULT and information. -/
def ok (result : Word) : Response × Word := (⟨0#4, result⟩, 0#32)

/-- The reply of a failure, by the code of 60_exceptions.md R270. -/
def failure (code : BitVec 4) (result info : Word) : Response × Word := (⟨code, result⟩, info)

/-- A device configured as 1-L by the example table, and as 2-L. -/
def conf1L : State := after (.cfgSet 1#2 1) State.reset
def conf2L : State := after (.cfgSet 1#2 2) State.reset

/-- A stream of n clear bits. -/
def stream (n : Nat) : State := { State.reset with bs := List.replicate n false }

/-! ### Control (section 2.1) -/

theorem test_nop : reply .nop { State.reset with result := 7#32, errInfo := 3#32, err := some .rangeError } = ok 7#32 := by
  decide +kernel

theorem test_cfgSet_2L :
    [3, 4, 6, 7, 8, 9, 10, 0].map conf2L.readReg =
      [some 2#32, some 1#32, some 44#32, some 10#32, some 1#32, some 34#32, some 25#32, some 0x20#32] := by decide +kernel

theorem test_cfgSet_refuses :
    [reply (.cfgSet 1#2 7) State.reset, reply (.cfgSet 0#2 41) State.reset, reply (.cfgSet 1#2 0) State.reset,
      reply (.cfgSet 3#2 3) State.reset] =
    [0x701#32, 0x2900#32, 0x001#32, 0x303#32].map (failure 5#4 0#32) := by decide +kernel

theorem test_cfgMask : reply (.cfgMask 9#8) State.reset = ok 0#32 ∧ (after (.cfgMask 9#8) State.reset).cfgMask = 9#8 := by
  decide +kernel

theorem test_regRead :
    reply (.regRead 17) State.reset = ok 0x51524331#32 ∧
    reply (.regRead 18) State.reset = failure 6#4 0#32 3#32 := by decide +kernel

/-- The three rows "REG_READ 18", "REG_READ 2, next", "REG_READ 0, next". -/
theorem test_regRead_after_failure :
    let s := after (.regRead 18) State.reset
    reply (.regRead 2) s = ok 3#32 ∧ reply (.regRead 0) (after (.regRead 2) s) = ok 0x10#32 := by decide +kernel

theorem test_clrSticky : (after .clrSticky (after (.gfLog 0#8) State.reset)).status = 0#32 := by decide +kernel

theorem test_cwWr :
    reply (.cwRd 4095) (after (.cwWr 0xAA#8 4095) State.reset) = ok 0xAA#32 ∧
    reply (.cwWr 1#8 4096) State.reset = failure 8#4 0#32 0x1000#32 := by decide +kernel

theorem test_cwRd : reply (.cwRd 4096) State.reset = failure 8#4 0#32 0x1000#32 := by decide +kernel

theorem test_plWr :
    reply (.plRd 0) (after (.plWr 0x48#8 0) State.reset) = ok 0x48#32 ∧
    (after (.plWr 0x48#8 0) State.reset).plLen = 0#16 := by decide +kernel

theorem test_plRd : reply (.plRd 4096) State.reset = failure 8#4 0#32 0x1000#32 := by decide +kernel

theorem test_plSetlen :
    (after (.plSetlen 4096) State.reset).plLen = 4096#16 ∧
    reply (.plSetlen 4097) State.reset = failure 8#4 0#32 0x1001#32 := by decide +kernel

/-! ### Packer (section 2.2) -/

theorem test_bsClear : (after .bsClear (stream 36)).bsLen = 0#32 := by decide +kernel

theorem test_bsPut_low_bits_msb_first : (after (.bsPut 4 0x1F4#32) State.reset).bs = [false, true, false, false] := by
  decide +kernel

theorem test_bsPut_refuses :
    reply (.bsPut 33 0#32) (stream 32) = failure 6#4 0#32 0x11#32 ∧
    reply (.bsPut 0 0xFFFFFFFF#32) State.reset = ok 0#32 := by decide +kernel

theorem test_bsPutbit : (after (.bsPutbit true) (stream 1)).bs = [false, true] := by decide +kernel

theorem test_bsLen : reply .bsLen (stream 13) = ok 13#32 := by decide +kernel

theorem test_bsGet :
    reply (.bsGet 0) State.reset = failure 1#4 0#32 0#32 ∧
    reply (.bsGet 1) { stream 0 with bs := [false, true] } = ok 1#32 := by decide +kernel

/-- The row at BS_LEN 36: BS holds 0x80000001 and 0100. -/
theorem test_bsStore :
    let s := after (.bsPut 4 0x1F4#32) (after (.bsPut 32 0x80000001#32) State.reset)
    (after (.bsStore 4092 4) s).cwBytes 4092 4 = [0x80#8, 0#8, 0#8, 0x01#8] ∧
    reply (.bsStore 4094 4) s = failure 8#4 0#32 0x1002#32 := by decide +kernel

theorem test_bsStore_short : reply (.bsStore 0 1) State.reset = failure 1#4 0#32 8#32 := by decide +kernel

/-! ### Field (section 2.3) -/

theorem test_gfMul :
    [gfMul 2#8 0x80#8, gfMul 0x80#8 0x80#8, gfMul 3#8 7#8, gfMul 0x53#8 0xCA#8, gfMul 0xFF#8 0xFF#8, gfMul 0x8E#8 2#8,
      gfMul 0#8 0#8] = [0x1D#8, 0x13#8, 0x09#8, 0x8F#8, 0xE2#8, 0x01#8, 0x00#8] ∧
    reply (.gfMul 1#8 0xAB#8) State.reset = ok 0xAB#32 := by decide +kernel

theorem test_gfExp :
    [0, 1, 7, 8, 25, 254, 255].map (fun i => reply (.gfExp i) State.reset) =
    [0x01#32, 0x02#32, 0x80#32, 0x1D#32, 0x03#32, 0x8E#32, 0x01#32].map ok := by decide +kernel

theorem test_gfLog :
    [1#8, 2#8, 3#8, 0x1D#8, 0x8E#8, 0xFF#8].map (fun a => reply (.gfLog a) State.reset) =
    [0#32, 1#32, 25#32, 8#32, 254#32, 175#32].map ok ∧
    reply (.gfLog 0#8) State.reset = failure 2#4 0#32 0#32 := by decide +kernel

/-! ### Reed-Solomon (section 2.4) -/

theorem test_rsGen :
    genPoly 2 = [1#8, 3#8, 2#8] ∧
    genPoly 7 = [0x01#8, 0x7F#8, 0x7A#8, 0x9A#8, 0xA4#8, 0x0B#8, 0x44#8, 0x75#8] ∧
    (after (.rsGen 2) State.reset).genDeg = 2#8 := by decide +kernel

theorem test_genRd :
    reply (.genRd 1) (after (.rsGen 2) State.reset) = ok 3#32 ∧
    reply (.genRd 3) (after (.rsGen 2) State.reset) = failure 1#4 0#32 3#32 := by decide +kernel

theorem test_remainders :
    rsRem [0x01#8, 0x02#8] 2 = [0x01#8, 0x02#8] ∧ rsRem [0x12#8, 0x34#8, 0x56#8] 3 = [0x81#8, 0xC3#8, 0x32#8] ∧
    rsRem [0x00#8, 0x00#8, 0x01#8] 2 = [0x03#8, 0x02#8] ∧ rsRem [] 3 = [0#8, 0#8, 0#8] ∧ rsRem [0x05#8] 0 = [] := by
  decide +kernel

/-- The rows with destination = source and with both ranges outside. -/
theorem test_rsEnc :
    (after (.rsEnc 3 0 3 0) { State.reset with cw := [(0, 0x12#8), (1, 0x34#8), (2, 0x56#8)] }).cwBytes 0 3 =
      [0x81#8, 0xC3#8, 0x32#8] ∧
    reply (.rsEnc 2 4095 2 4095) State.reset = failure 8#4 0#32 0x1001#32 := by decide +kernel

/-! ### Format code and masks (sections 2.5, 2.6) -/

theorem test_fmtEnc :
    [0#5, 1#5, 8#5, 11#5, 13#5, 31#5].map (fun d => reply (.fmtEnc d) State.reset) =
    [0x5412#32, 0x5125#32, 0x77C4#32, 0x789D#32, 0x6318#32, 0x2BED#32].map ok := by decide +kernel

/-- Row 1 of each 6 × 6 block, patterns 0 to 7. -/
theorem test_maskEval_row_one :
    (List.range 8).map (fun p => (List.range 6).map fun j => (maskFlip p 1 j).toNat) =
    [[0, 1, 0, 1, 0, 1], [0, 0, 0, 0, 0, 0], [1, 0, 0, 1, 0, 0], [0, 0, 1, 0, 0, 1], [1, 1, 1, 0, 0, 0], [1, 0, 0, 0, 0, 0],
      [1, 1, 1, 0, 0, 0], [0, 0, 0, 1, 1, 1]] := by decide +kernel

theorem test_maskEval :
    reply (.maskEval 7 8 0) State.reset = ok 1#32 ∧ reply (.maskEval 0 65535 65535) State.reset = ok 1#32 ∧
    reply (.maskEval 8 0 0) State.reset = failure 3#4 0#32 8#32 := by decide +kernel

/-! ### Matrix builder (section 2.7) -/

/-- Reads of the grid: the code of each cell. -/
def codes (s : State) (cells : List (Nat × Nat)) : List Word := cells.map fun rc => (after (.mxRead rc.1 rc.2) s).result

theorem test_mxAlloc :
    codes (after .mxAlloc conf1L) [(0, 0), (20, 20)] = [0#32, 0#32] ∧
    reply .mxAlloc State.reset = failure 5#4 0#32 0#32 := by decide +kernel

theorem test_mxFinder :
    codes (after .mxFinder (after .mxAlloc conf1L)) [(1, 1), (3, 3)] = [1#32, 2#32] := by
  decide +kernel

/-- The picture of 45_matrix.md R202, rows −1..7. -/
theorem test_finder_picture :
    ((offsets (-1) 9).map fun r => String.ofList ((offsets (-1) 9).map fun c => if finderDark r c then '#' else '.')) =
    [".........", ".#######.", ".#.....#.", ".#.###.#.", ".#.###.#.", ".#.###.#.", ".#.....#.", ".#######.", "........."] :=
  by decide +kernel

/-- A configured device in a phase, with every cell UNSET: the cells read below are set by the phase under test alone. -/
def blank (s : State) (phase : Phase) : State :=
  { s with phase := phase, grid := List.replicate (s.sideN * s.sideN) .unset }

theorem test_mxAlign :
    codes (after .mxAlign (blank conf2L .finderDone)) [(17, 17), (16, 16)] = [1#32, 2#32] ∧
    reply .mxAlign (after .mxAlloc conf2L) = failure 7#4 0#32 1#32 := by decide +kernel

theorem test_mxTiming :
    codes (after .mxTiming (blank conf1L .alignDone)) [(6, 8), (6, 9), (12, 6), (6, 12), (8, 0)] =
      [2#32, 1#32, 2#32, 2#32, 0#32] ∧
    reply .mxFinder (blank conf1L .timingDone) = failure 7#4 0#32 4#32 := by decide +kernel

theorem test_mxFormat :
    codes (after .mxFormat (blank conf1L .timingDone)) [(0, 8), (2, 8), (8, 20), (8, 18), (13, 8)] =
      [1#32, 2#32, 1#32, 2#32, 2#32] ∧
    reply .mxFormat (after (.cfgMask 9#8) (blank conf1L .timingDone)) = failure 3#4 0#32 9#32 := by
  decide +kernel

/-- Section 2.7, "Zigzag order" at N = 21. -/
theorem test_zigzag :
    (zigzag 21).length = 420 ∧
    ((zigzag 21).drop 40).take 6 = [(0, 20), (0, 19), (0, 18), (0, 17), (1, 18), (1, 17)] ∧
    ((zigzag 21).drop 292).take 6 = [(0, 8), (0, 7), (0, 5), (0, 4), (1, 5), (1, 4)] ∧
    (zigzag 21).drop 416 = [(19, 1), (19, 0), (20, 1), (20, 0)] := by decide +kernel

/-- The codewords of "A" at 1-L (section 2.8), in CW. -/
def codewordsA : List Byte :=
  [0x40#8, 0x14#8, 0x10#8, 0xEC#8, 0x11#8, 0xEC#8, 0x11#8, 0xEC#8, 0x11#8, 0xEC#8, 0x11#8, 0xEC#8, 0x11#8] ++
  [0xEC#8, 0x11#8, 0xEC#8, 0x11#8, 0xEC#8, 0x11#8, 0x52#8, 0x4B#8, 0xB5#8, 0x3B#8, 0xAF#8, 0x8D#8, 0xF1#8]

/-- 1-L before MX_PLACE with the cells (20,20), (20,19) and (19,20) UNSET and the rest of the grid filled. -/
def almostPlaced : State :=
  { conf1L with
    phase := .formatDone
    cw := Memory.writeBytes [] 0 codewordsA
    grid := (List.range 441).map fun k => if k = 440 ∨ k = 439 ∨ k = 419 then .unset else .light }

/-- The second and third of the data cells of program P4: the bits 1, 0 of 0x40 under mask 0, as the corner of its picture shows. -/
theorem test_mxPlace :
    let s := after (.mxPlace 0 26) almostPlaced
    codes s [(20, 19), (19, 20)] = [2#32, 1#32] ∧ s.placeCells = 3#32 ∧ s.placeBits = 3#32 ∧
    s.status = 0x660#32 := by decide +kernel

theorem test_mxPlace_range : reply (.mxPlace 4090 7) almostPlaced = failure 8#4 0#32 4097#32 := by decide +kernel

theorem test_mxRead_outside : reply (.mxRead 30 0) (blank conf1L .allocated) = failure 1#4 0#32 0x1E0000#32 := by decide +kernel

/-- A finished 1-L grid, all DARK. -/
def finished : State := { conf1L with phase := .done, grid := List.replicate 441 .dark }

theorem test_finished_reads :
    reply (.mxIsdark 13 8) finished = ok 1#32 ∧ reply (.mxIsdark 20 21) finished = failure 1#4 0#32 0x140015#32 ∧
    reply .mxSide finished = ok 21#32 ∧ finished.status = 0x660#32 := by decide +kernel

theorem test_mxIsdark_needs_done :
    reply (.mxIsdark 0 0) (blank conf2L .finderDone) = failure 7#4 0#32 2#32 := by decide +kernel

theorem test_mxSide_needs_done : reply .mxSide conf2L = failure 7#4 0#32 0#32 := by decide +kernel

/-! ### Assembly (section 2.8, programs P4 and P7) -/

/-- 1-L with a payload of n bytes "A". -/
def payloadA (n : Nat) : State :=
  { conf1L with pl := (List.range n).map (fun i => (i, 0x41#8)), plLen := BitVec.ofNat 16 n }

theorem test_assemble_A :
    reply .assemble (payloadA 1) = ok 26#32 ∧ (after .assemble (payloadA 1)).cwBytes 0 26 = codewordsA ∧
    (after .assemble (payloadA 1)).bsLen = 152#32 := by decide +kernel

/-- The capacity boundary: 17 bytes fit, 18 do not. -/
theorem test_assemble_boundary :
    reply .assemble (payloadA 17) = ok 26#32 ∧
    reply .assemble (payloadA 18) = failure 4#4 0#32 0x9C#32 := by decide +kernel

/-- ENCODE's errors: program P7 step 21, and the mask check of 46_assembly.md R246. -/
theorem test_encode_errors :
    reply .encode (payloadA 18) = failure 4#4 0#32 0x9C#32 ∧
    reply .encode (after (.cfgMask 9#8) (payloadA 17)) = failure 3#4 0#32 9#32 := by decide +kernel

/-! ### Other parameters (00_scope.md R9, R11; 46_assembly.md R242, R247) -/

/-- The columns "default" and "constraint" of R9, R11's defaults, and the largest sizes the constraints allow. -/
theorem test_params :
    Config.defaults = ⟨40, 4096, 4096, 32768, 0b0100#4, Config.defaults.lenWidths⟩ ∧ Config.defaults.nMax = 177 ∧
    [1, 9, 10, 40].map Config.defaults.lenWidth = [8, 8, 16, 16] ∧ Config.defaults.Legal ∧
    (⟨40, 65536, 65535, 524280, 0#4, []⟩ : Params).Legal := by decide +kernel

/-- A device of other sizes: each error comes at its own limits. -/
def small : State := { State.reset with params := ⟨5, 8, 4, 12, 0b0111#4, []⟩ }

theorem test_small_device :
    [reply (.cwWr 1#8 8) small, reply (.plSetlen 5) small, reply (.bsPut 13 0#32) small, reply (.rsEnc 1 0 2 8) small] =
      [8#32, 5#32, 13#32, 9#32].map (failure 8#4 0#32) ∧
    reply (.plSetlen 4) small = ok 0#32 ∧ reply (.cfgSet 1#2 6) small = failure 5#4 0#32 0x601#32 := by decide +kernel

/-- 1-L with mode 0111 and a length field of 10 bits. -/
def otherParams (n : Nat) : State :=
  { payloadA n with params := { Config.defaults with modeIndicator := 0b0111#4, lenWidths := List.replicate 41 10 } }

/-- By hand: 0111 0000000001 01000001 0000 and 6 zeros to the byte, then the pad bytes; with 17 bytes only 2 bits are left,
so there is no terminator and the last byte holds the payload's last 6 bits. -/
theorem test_assemble_other_params :
    (after .assemble (otherParams 1)).cwBytes 0 6 = [0x70#8, 0x05#8, 0x04#8, 0x00#8, 0xEC#8, 0x11#8] ∧
    reply .assemble (otherParams 17) = ok 26#32 ∧ (after .assemble (otherParams 17)).cwByte 18 = 0x04#8 := by decide +kernel

/-! ### The step and the assembler -/

/-- A word placed by withFetchWord runs at the next step; a word that is no command raises IllegalCommand(OP). -/
theorem test_step :
    (match step (State.reset.withFetchWord 64 0x0311000000000000) with
      | .next t => some t.result
      | _ => none) = some 0x51524331#32 ∧
    (match step (State.reset.withFetchWord 64 0xFF00000000000000) with
      | .next t => some (t.status, t.errInfo)
      | _ => none) = some (0x16#32, 0xFF#32) := by decide +kernel

/-- 30_encoding.md R87, R88: lines of the examples. -/
theorem test_assembleLine :
    assembleLine "PL_WR 0x48, 0 ; H" = some [0x0A48000000000000#64] ∧
    assembleLine "PL_LOAD \"He\"" = some [0x0A48000000000000#64, 0x0A65000100000000#64, 0x0C00000200000000#64] ∧
    assembleLine "BS_PUTBIT 2" = none := by decide +kernel

/-- Log 19: an empty byte list, and where a string may stand. -/
theorem test_assembleLine_byte_lists :
    assembleLine "PL_LOAD" = some [0x0C00000000000000#64] ∧ assembleLine "CW_LOAD 5:" = some [] ∧
    assembleLine "CW_LOAD 5: \"A\"" = some [0x0841000500000000#64] ∧ assembleLine "PL_LOAD \"He\", 0x6C" = none := by
  decide +kernel

/-! ## Witnesses: states and operands that meet the hypotheses of the obligations, clause by clause -/

/-- A device configured as 2-L, whose grid is empty. -/
def conf : State := State.reset.configure 2 1#2 ⟨44, 10, 1⟩

/-- The device of `conf` in a build phase with a grid. -/
def built (phase : Phase) (grid : List GridCell) : State := { conf with phase := phase, grid := grid }

/-- A 25 × 25 grid in which column 6 is set and nothing else. -/
def colSix : List GridCell := (List.range 625).map fun k => if k % 25 = 6 then .light else .unset

/-- A 25 × 25 grid of one cell value. -/
def uniform (v : GridCell) : List GridCell := List.replicate 625 v

/-- The device of `conf` with a payload length, not building. -/
def loaded (n : Nat) : State := { conf with plLen := BitVec.ofNat 16 n }

theorem colSix_column : ∀ r, r < 25 → cellAt 25 colSix r 6 ≠ .unset := by decide +kernel

theorem uniform_cell (v : GridCell) {r c : Nat} (hr : r < 25) (hc : c < 25) : cellAt 25 (uniform v) r c = v := by
  simp only [cellAt, uniform, List.getD_eq_getElem?_getD, List.getElem?_replicate]
  rw [if_pos (by omega)]; rfl

theorem uniform_unset_cell (r c : Nat) : cellAt 25 (uniform .unset) r c = .unset := by
  simp only [cellAt, uniform, List.getD_eq_getElem?_getD, List.getElem?_replicate]; split <;> rfl

/-- The states of the witnesses below meet the invariant. -/
theorem built_inv {phase : Phase} {grid : List GridCell} (m : Byte) (n : BitVec 16) (p : Params)
    (hp : p.Legal ∧ 2 ≤ p.maxVersion ∧ 44 ≤ p.cwBytes ∧ 272 ≤ p.bsBits) (hn : n.toNat ≤ p.plBytes)
    (hnone : phase = .none → grid = []) (hg : phase ≠ .none → grid.length = 625)
    (hfresh : phase = .allocated → ∀ r c, cellAt 25 grid r c = .unset)
    (hcol : 2 ≤ phase.code.toNat → ∀ r, r < 25 → cellAt 25 grid r 6 ≠ .unset)
    (hdone : phase = .done → ∀ r c, r < 25 → c < 25 → cellAt 25 grid r c ≠ .unset) :
    { built phase grid with cfgMask := m, plLen := n, params := p }.Inv where
  spec :=
    { phase_configured := fun _ => rfl
      one_block := fun _ => rfl
      ec_le_total := fun _ => show (10#32).toNat ≤ (44#32).toNat by decide
      total_fits := fun _ => hp.2.2.1
      ec_fits := fun _ => show (10#32).toNat ≤ 255 by decide
      data_fits := fun _ => hp.2.2.2
      version_range := fun _ => ⟨show 1 ≤ (2#8).toNat by decide, hp.2.1⟩
      side_value := fun _ => show (25#8).toNat = 4 * (2#8).toNat + 17 by decide
      ready_iff := State.status_ready _
      finished := hdone
      mask_range := show (0#3).toNat ≤ 7 by decide
      stream_fits := Nat.zero_le _
      payload_fits := hn
      gen_head := rfl }
  holds :=
    { params_legal := hp.1
      data_value := fun _ => show (34#32).toNat = (44#32).toNat - (10#32).toNat by decide
      entry := fun _ =>
        show capAt Config.exampleTables 2 1#2 = some ⟨(44#32).toNat, (10#32).toNat, (1#32).toNat⟩ by decide
      unconfigured := fun h => by cases h
      gen_wf := rfl
      cw_wf := rfl
      pl_wf := rfl
      gen_range := show ∀ p ∈ [((0 : Nat), 0x01#8)], p.1 < 256 by decide
      cw_range := fun _ h => by cases h
      pl_range := fun _ h => by cases h
      grid_none := hnone
      grid_size := hg
      error_sticky := fun h => absurd rfl h
      success_info := fun _ => rfl }
  build :=
    { fresh := hfresh
      separators := fun h r hr _ => hcol h r hr
      timing_column := fun h r hr => hcol (Nat.le_trans (by decide) h) r hr }

/-! ### Encoding and the step -/

theorem witness_DecodeInvertsEncode : WellFormed (.rsEnc 255 65535 65535 65535) := by decide

theorem witness_EncodeInvertsDecode : decode 0x32FFFFFFFFFFFFFF#64 = .ok (.rsEnc 255 65535 65535 65535) := by
  decide +kernel

/-- Both ends of every reserved range of R85, and a defined OP with an unused bit set. -/
theorem witness_ReservedAndUnusedBitsAreIllegal :
    (∀ n ∈ [0x05, 0x07, 0x0D, 0x0F, 0x16, 0x1F, 0x23, 0x2F, 0x33, 0x3F, 0x41, 0x4F, 0x5A, 0x5F, 0x62, 0xFF],
      (fieldOp (BitVec.ofNat 64 (n <<< 56))).toNat = n ∧
      ((0x05 ≤ n ∧ n ≤ 0x07) ∨ (0x0D ≤ n ∧ n ≤ 0x0F) ∨ (0x16 ≤ n ∧ n ≤ 0x1F) ∨ (0x23 ≤ n ∧ n ≤ 0x2F) ∨
        (0x33 ≤ n ∧ n ≤ 0x3F) ∨ (0x41 ≤ n ∧ n ≤ 0x4F) ∨ (0x5A ≤ n ∧ n ≤ 0x5F) ∨ 0x62 ≤ n)) ∧
    opTable.any (fun row => decide (fieldOp 0x0104000100000000#64 = row.op) &&
      decide (0x0104000100000000#64 &&& row.mask ≠ row.fixed)) = true := by
  decide +kernel

/-- A word with an unused bit set, for every UnusedBitsRaise clause: its OP and the masks of A, B and C. -/
theorem witness_UnusedBitsRaise :
    (([
        (0x0000000000000001#64, 0x00#8, 0xFF#8, 0xFFFF#16, 0xFFFFFFFF#32), (0x0100000000000001#64, 0x01#8, 0xFC#8, 0xFF00#16, 0xFFFFFFFF#32),
        (0x0200000000000001#64, 0x02#8, 0x00#8, 0xFFFF#16, 0xFFFFFFFF#32), (0x0300000000000001#64, 0x03#8, 0x00#8, 0xFFFF#16, 0xFFFFFFFF#32),
        (0x0400000000000001#64, 0x04#8, 0xFF#8, 0xFFFF#16, 0xFFFFFFFF#32), (0x0800000000000001#64, 0x08#8, 0x00#8, 0x0000#16, 0xFFFFFFFF#32),
        (0x0900000000000001#64, 0x09#8, 0xFF#8, 0x0000#16, 0xFFFFFFFF#32), (0x0A00000000000001#64, 0x0A#8, 0x00#8, 0x0000#16, 0xFFFFFFFF#32),
        (0x0B00000000000001#64, 0x0B#8, 0xFF#8, 0x0000#16, 0xFFFFFFFF#32), (0x0C00000000000001#64, 0x0C#8, 0xFF#8, 0x0000#16, 0xFFFFFFFF#32),
        (0x1000000000000001#64, 0x10#8, 0xFF#8, 0xFFFF#16, 0xFFFFFFFF#32), (0x1100000100000000#64, 0x11#8, 0x00#8, 0xFFFF#16, 0x00000000#32)] ++ [
        (0x1200000000000001#64, 0x12#8, 0xFE#8, 0xFFFF#16, 0xFFFFFFFF#32), (0x1300000000000001#64, 0x13#8, 0xFF#8, 0xFFFF#16, 0xFFFFFFFF#32),
        (0x1400000100000000#64, 0x14#8, 0xFF#8, 0xFFFF#16, 0x00000000#32), (0x1500000000010000#64, 0x15#8, 0xFF#8, 0x0000#16, 0xFFFF0000#32),
        (0x2000000000000001#64, 0x20#8, 0x00#8, 0xFF00#16, 0xFFFFFFFF#32), (0x2100000000000001#64, 0x21#8, 0x00#8, 0xFFFF#16, 0xFFFFFFFF#32),
        (0x2200000000000001#64, 0x22#8, 0x00#8, 0xFFFF#16, 0xFFFFFFFF#32), (0x3000000000000001#64, 0x30#8, 0x00#8, 0xFFFF#16, 0xFFFFFFFF#32),
        (0x3100000000000001#64, 0x31#8, 0x00#8, 0xFFFF#16, 0xFFFFFFFF#32), (0x4000000000000001#64, 0x40#8, 0xE0#8, 0xFFFF#16, 0xFFFFFFFF#32),
        (0x5000000000010000#64, 0x50#8, 0x00#8, 0x0000#16, 0xFFFF0000#32), (0x5100000000000001#64, 0x51#8, 0xFF#8, 0xFFFF#16, 0xFFFFFFFF#32)] ++ [
        (0x5200000000000001#64, 0x52#8, 0xFF#8, 0xFFFF#16, 0xFFFFFFFF#32), (0x5300000000000001#64, 0x53#8, 0xFF#8, 0xFFFF#16, 0xFFFFFFFF#32),
        (0x5400000000000001#64, 0x54#8, 0xFF#8, 0xFFFF#16, 0xFFFFFFFF#32), (0x5500000000000001#64, 0x55#8, 0xFF#8, 0xFFFF#16, 0xFFFFFFFF#32),
        (0x5600000000010000#64, 0x56#8, 0xFF#8, 0x0000#16, 0xFFFF0000#32), (0x5700000000010000#64, 0x57#8, 0xFF#8, 0x0000#16, 0xFFFF0000#32),
        (0x5800000000010000#64, 0x58#8, 0xFF#8, 0x0000#16, 0xFFFF0000#32), (0x5900000000000001#64, 0x59#8, 0xFF#8, 0xFFFF#16, 0xFFFFFFFF#32),
        (0x6000000000000001#64, 0x60#8, 0xFF#8, 0xFFFF#16, 0xFFFFFFFF#32), (0x6100000000000001#64, 0x61#8, 0xFF#8, 0xFFFF#16, 0xFFFFFFFF#32)] :
      List (CommandWord × Byte × Byte × BitVec 16 × Word)).all fun q =>
      fieldOp q.1 == q.2.1 && (fieldA q.1 &&& q.2.2.1 != 0#8 || fieldB q.1 &&& q.2.2.2.1 != 0#16 ||
        fieldC q.1 &&& q.2.2.2.2 != 0#32)) = true := by
  decide +kernel

/-- A device with one host event waiting. -/
def waiting (e : HostEvent) : State := { State.reset with port := [e] }

theorem witness_StepRunsDecodedCommand :
    (waiting (.command 0x0311000000000000#64)).port = .command 0x0311000000000000#64 :: [] ∧
    decode 0x0311000000000000#64 = .ok (.regRead 17) ∧ State.reset.port = [] := by decide +kernel

theorem witness_ResetEventRestoresResetState :
    (waiting .reset).port = .reset :: [] ∧
    (waiting (.resetDuring 0x6100000000000000#64)).port = .resetDuring 0x6100000000000000#64 :: [] := ⟨rfl, rfl⟩

theorem witness_QueueRunsAsFold : State.reset.port = [] := rfl

/-! ### Success and failure -/

theorem witness_FailureIsTransactional :
    exec .mxAlloc State.reset = .next (State.reset.failed .unsupportedConfiguration 0) ∧
    (State.reset.failed .unsupportedConfiguration 0).err = some .unsupportedConfiguration := ⟨rfl, rfl⟩

theorem witness_SuccessClearsReport :
    exec .nop State.reset = .next State.reset.succeed ∧ State.reset.succeed.err = none ∧ Instr.nop ≠ .clrSticky ∧
    opcodeOf .nop ∉ resultOps ∧
    exec .clrSticky (after .mxAlloc State.reset) = .next { (after .mxAlloc State.reset).succeed with sticky := false } :=
  ⟨rfl, rfl, by decide, by decide, rfl⟩

theorem witness_StickyRecordsFailures :
    runWord 0x0500000000000000#64 State.reset = .next (State.reset.failed .illegalCommand 0x05) ∧
    (State.reset.failed .illegalCommand 0x05).err ≠ none ∧
    runWord 0x0000000000000000#64 State.reset = .next State.reset.succeed ∧ State.reset.succeed.err = none ∧
    decode 0x0000000000000000#64 ≠ .ok .clrSticky ∧ decode 0x0400000000000000#64 = .ok .clrSticky ∧
    runWord 0x0400000000000000#64 State.reset = .next { State.reset.succeed with sticky := false } ∧
    (let s := { waiting (.command 0x0400000000000000#64) with sticky := true }
     let t := { State.reset.succeed with sticky := false }
     step s = .next t ∧ s.sticky = true ∧ t.sticky = false) :=
  ⟨rfl, by decide, rfl, rfl, by decide +kernel, by decide +kernel, rfl, rfl, rfl, rfl⟩

theorem witness_RegistersChangeOnlyByTheirWriters :
    exec .nop State.reset = .next State.reset.succeed ∧
    ∀ n ∈ [1, 3, 11, 17], n ≤ 17 ∧ n ≠ 0 ∧ n ≠ 2 ∧ opcodeOf .nop ∉ registerWriters n := ⟨rfl, by decide⟩

theorem witness_ArraysChangeOnlyByTheirWriters :
    exec .nop finished = .next finished.succeed ∧ opcodeOf .nop ∉ genWriters ∧ opcodeOf .nop ∉ bsWriters ∧
    opcodeOf .nop ∉ cwWriters ∧ opcodeOf .nop ∉ plWriters ∧ opcodeOf .nop ∉ gridWriters ∧
    finished.succeed.phase ≠ .none ∧ exec .nop (stream 1) = .next (stream 1).succeed ∧
    0 < (stream 1).succeed.bs.length := ⟨rfl, by decide, by decide, by decide, by decide, by decide, by decide, rfl, by decide⟩

theorem witness_ExternalTablesNeverChange :
    step (waiting .reset) = .next State.reset.afterReset ∧ exec .nop State.reset = .next State.reset.succeed := ⟨rfl, rfl⟩

theorem witness_ReadsChangeNoStorage :
    opcodeOf .bsLen ∈ [0x03#8, 0x09#8, 0x0B#8, 0x13#8, 0x14#8, 0x20#8, 0x21#8, 0x22#8, 0x31#8, 0x57#8, 0x58#8, 0x59#8] ∧
    exec .bsLen (stream 1) = .next ((stream 1).setResult 1#32).succeed ∧
    ((stream 1).setResult 1#32).succeed.err = none ∧ opcodeOf .bsLen ≠ 0x03#8 ∧
    exec (.bsGet 1) (stream 1) = .next ((stream 1).failed .indexError 1) ∧
    ((stream 1).failed .indexError 1).err = some .indexError ∧ 1 ≠ 0 ∧ 1 ≠ 2 ∧
    exec (.regRead 1) State.reset = .next (State.reset.setResult 0#32).succeed :=
  ⟨by decide, rfl, rfl, by decide, rfl, rfl, by decide, by decide, rfl⟩

/-! ### Invariants and configuration -/

/-- An unconfigured device that no reset leaves: CFG_MASK holds 9. -/
def unconfigured : State := { State.reset with cfgMask := 9#8 }

theorem unconfigured_inv : unconfigured.Inv where
  spec :=
    { phase_configured := fun h => absurd h (by decide)
      one_block := fun h => by cases h
      ec_le_total := fun h => by cases h
      total_fits := fun h => by cases h
      ec_fits := fun h => by cases h
      data_fits := fun h => by cases h
      version_range := fun h => by cases h
      side_value := fun h => by cases h
      ready_iff := State.status_ready _
      finished := fun h => by cases h
      mask_range := by decide
      stream_fits := by decide
      payload_fits := by decide
      gen_head := rfl }
  holds :=
    { params_legal := by decide
      data_value := fun h => by cases h
      entry := fun h => by cases h
      unconfigured := fun _ => by decide
      gen_wf := rfl
      cw_wf := rfl
      pl_wf := rfl
      gen_range := by decide
      cw_range := by decide
      pl_range := by decide
      grid_none := fun _ => rfl
      grid_size := fun h => absurd rfl h
      error_sticky := fun h => absurd rfl h
      success_info := fun _ => rfl }
  build :=
    { fresh := fun h => by cases h
      separators := fun h => absurd h (by decide)
      timing_column := fun h => absurd h (by decide) }

theorem witness_CfgValidOnlyRises :
    exec .nop finished = .next finished.succeed ∧ finished.cfgValid = true ∧
    exec .nop State.reset = .next State.reset.succeed ∧ State.reset.cfgValid = false ∧
    unconfigured.Inv ∧ unconfigured.cfgValid = false :=
  ⟨rfl, by decide +kernel, rfl, rfl, unconfigured_inv, rfl⟩

theorem witness_StepKeepsInvariant :
    unconfigured.Inv ∧ step (unconfigured.withFetchWord 64 0x0000000000000000) = .next unconfigured.succeed :=
  ⟨unconfigured_inv, rfl⟩

/-- A device whose capacity table holds one entry. -/
def tabled (ver : Nat) (ecl : BitVec 2) (e : CapEntry) : State :=
  { State.reset with tables := { cap := [⟨ver, ecl, e⟩], align := [] } }

/-- The limits of every check of R111: the smallest and the largest version, total = ec, 4096 total codewords, 255 EC
codewords, 32768 data bits; then each check failing by one. -/
theorem witness_CfgSetFollowsTheCapacityTable :
    (∀ q ∈ [(1, (⟨1, 1, 1⟩ : CapEntry)), (40, ⟨4096, 0, 1⟩), (40, ⟨255, 255, 1⟩), (2, ⟨4096, 255, 1⟩)],
      1 ≤ q.1 ∧ q.1 ≤ (tabled q.1 3#2 q.2).params.maxVersion ∧ (tabled q.1 3#2 q.2).params.Legal ∧ capAt (tabled q.1 3#2 q.2).tables q.1 3#2 = some q.2 ∧ q.2.blocks = 1 ∧ q.2.ec ≤ q.2.total ∧
        q.2.total ≤ State.reset.params.cwBytes ∧ q.2.ec ≤ 255 ∧
        8 * (q.2.total - q.2.ec) ≤ State.reset.params.bsBits) ∧
    (∀ q ∈ [(0, (⟨1, 1, 1⟩ : CapEntry)), (41, ⟨1, 1, 1⟩)], q.1 < 1 ∨ State.reset.params.maxVersion < q.1) ∧
    capAt State.reset.tables 7 1#2 = none ∧
    ∀ e ∈ [(⟨44, 10, 2⟩ : CapEntry), ⟨44, 10, 0⟩, ⟨9, 10, 1⟩, ⟨4097, 1, 1⟩, ⟨300, 256, 1⟩, ⟨4097, 0, 1⟩],
      capAt (tabled 2 0#2 e).tables 2 0#2 = some e ∧
        (e.blocks ≠ 1 ∨ e.total < e.ec ∨ State.reset.params.cwBytes < e.total ∨ 255 < e.ec ∨
          State.reset.params.bsBits < 8 * (e.total - e.ec)) := by
  decide +kernel

theorem witness_RegReadReturnsTheNumberedRegister : 17 < 18 ∧ 18 ≤ 18 := by decide

theorem witness_StatusFieldsStandAtTheirBits : 11 ≤ 11 := by decide

theorem witness_CodewordRamAccess :
    4095 < State.reset.params.cwBytes ∧ 0 ≠ 4095 ∧ State.reset.params.cwBytes ≤ 4096 ∧ 7 < small.params.cwBytes ∧
    small.params.cwBytes ≤ 8 := by decide

theorem witness_PayloadRamAccess :
    4095 < State.reset.params.plBytes ∧ 0 ≠ 4095 ∧ State.reset.params.plBytes ≤ 4096 ∧ State.reset.params.plBytes < 4097 ∧
    State.reset.params.Legal ∧ 4 ≤ small.params.plBytes ∧ small.params.plBytes < 5 ∧ small.params.Legal := by decide

/-! ### Packer -/

theorem witness_BsPutAppendsMsbFirst :
    32 ≤ 32 ∧ (stream 4).bs.length + 32 ≤ (stream 4).params.bsBits ∧ 3 < (stream 4).bs.length ∧ 31 < 32 ∧ 32 < 33 ∧
    State.reset.params.bsBits < { State.reset with bs := List.replicate 32768 false }.bs.length + 1 := by
  refine ⟨by decide, by decide, by decide, by decide, by decide, ?_⟩
  simp only [List.length_replicate]; decide

theorem witness_BsPutbitAppendsOneBit :
    { State.reset with bs := List.replicate 32767 false }.bs.length < State.reset.params.bsBits ∧
    State.reset.params.bsBits ≤ { State.reset with bs := List.replicate 32768 false }.bs.length := by
  simp only [List.length_replicate]; decide

theorem witness_StreamReads : 12 < (stream 13).bs.length ∧ (stream 13).bs.length ≤ 13 := by decide

theorem witness_BsStoreWritesStreamBytes :
    8 * 4 ≤ (stream 36).bs.length ∧ 4092 + 4 ≤ (stream 36).params.cwBytes ∧ 3 < 4 ∧ 7 < 8 ∧ 4091 < 4092 ∧ (stream 7).bs.length < 8 * 1 ∧
    (stream 36).params.cwBytes < 4094 + 4 := by decide

theorem witness_PutThenStoreGivesTheByteBack :
    (stream 0).bs.length = 8 * 0 ∧ 8 * 0 + 8 ≤ (stream 0).params.bsBits ∧ 0 + 1 ≤ (stream 0).params.cwBytes ∧
    { State.reset with bs := List.replicate 32760 false }.bs.length = 8 * 4095 ∧
    8 * 4095 + 8 ≤ State.reset.params.bsBits ∧ 4095 + 1 ≤ State.reset.params.cwBytes := by
  simp only [List.length_replicate]; decide

/-! ### Field, Reed-Solomon, format code, masks -/

theorem witness_FieldTablesAreExpAndLog : 254 < 255 ∧ 0xFF#8 ≠ 0#8 ∧ 254 ≤ 254 ∧ gfExp 254 = 0x8E#8 := by decide +kernel

theorem witness_FieldLaws : 0x01#8 ≠ 0#8 ∧ 254 ≤ 254 := by decide

theorem witness_FieldCommandsReturnFieldValues : 255 ≤ 255 ∧ gfExp 254 = 0x8E#8 ∧ 254 ≤ 254 := by decide +kernel

theorem witness_GeneratorIsTheProduct : 2 ≤ [0x01#8, 0x03#8].length ∧ 1 ≤ 2 ∧ 254 < 255 := by decide

theorem witness_GeneratorBufferCommands :
    255 ≤ 255 ∧ 256 > 255 ∧ 0 ≤ State.reset.genDeg.toNat ∧ State.reset.genDeg.toNat < 1 := by decide

theorem witness_RsEncWritesTheRemainder :
    255 ≤ 255 ∧ 0 + 4096 ≤ State.reset.params.cwBytes ∧ 3841 + 255 ≤ State.reset.params.cwBytes ∧ 254 < 255 ∧
    3840 < 3841 ∧ State.reset.params.cwBytes < 4095 + 2 := by decide

theorem witness_RemainderIsLinear : [0x01#8, 0x02#8].length = [0x12#8, 0x34#8].length := rfl

theorem witness_CodewordSyndromesAreZero : 255 ≤ 255 ∧ 254 < 255 := by decide

theorem witness_FormatCodeTableAndLaws : 31 < 32 ∧ bchFormat 31 = bchFormat 31 := ⟨by decide, rfl⟩

theorem witness_MaskEvalComputesTheFormulas : 7 ≤ 7 ∧ 7 < 8 := by decide

/-! ### Matrix builder -/

theorem fresh_inv : (built .allocated (uniform .unset)).Inv :=
  built_inv 0#8 0#16 Config.defaults (by decide) (by decide) (by decide) (fun _ => List.length_replicate) (fun _ => uniform_unset_cell)
    (fun h => absurd h (by decide)) (fun h => by cases h)

theorem colSix_inv {phase : Phase} (h1 : phase ≠ .none) (h2 : phase ≠ .allocated) (h3 : phase ≠ .done) (m : Byte) :
    { built phase colSix with cfgMask := m }.Inv :=
  built_inv m 0#16 Config.defaults (by decide) (by decide) (fun h => absurd h h1) (fun _ => by simp [colSix]) (fun h => absurd h h2)
    (fun _ => colSix_column) (fun h => absurd h h3)

theorem witness_BuildCommandsFollowThePhaseOrder :
    State.reset.cfgValid = false ∧ conf.cfgValid = true ∧
    (∀ p ∈ [1#3, 2#3, 3#3, 4#3, 5#3], conf.phase.code ≠ p) ∧
    exec .mxFinder (built .allocated (uniform .unset)) =
      .next (built .allocated (uniform .unset)).stampFinder.succeed ∧
    (built .allocated (uniform .unset)).stampFinder.succeed.err = none ∧
    exec (.cfgSet 1#2 2) finished = .next (finished.configure 2 1#2 ⟨44, 10, 1⟩).succeed ∧
    (finished.configure 2 1#2 ⟨44, 10, 1⟩).succeed.phase.code.toNat < finished.phase.code.toNat :=
  ⟨rfl, rfl, by decide, rfl, rfl, rfl, by decide⟩

theorem witness_MxAllocGivesAFreshGrid : conf.cfgValid = true ∧ State.reset.cfgValid = false := ⟨rfl, rfl⟩

theorem witness_MxFinderStampsTheThreeCorners :
    (built .allocated (uniform .unset)).Inv ∧ (built .allocated (uniform .unset)).phase = .allocated ∧
    24 < (built .allocated (uniform .unset)).sideN ∧ conf.phase ≠ .allocated := ⟨fresh_inv, rfl, by decide, by decide⟩

/-- The center (18,18) of version 2 is free; (6,18) is set; the cell (16,16) is set by the pattern. -/
theorem witness_MxAlignStampsAroundFreeCenters :
    let s := { built .finderDone colSix with cfgMask := 0#8 }
    s.Inv ∧ s.phase = .finderDone ∧ 24 < s.sideN ∧ cellAt s.sideN s.grid 18 6 ≠ .unset ∧
    cellAt s.sideN s.grid 16 16 = .unset ∧ cellAt s.sideN (alignCenter s.sideN s.grid (18, 18)) 16 16 ≠ .unset ∧
    [6, 18] = alignAt s.tables s.cfgVersion.toNat ∧ (∀ a ∈ [6, 18], ∀ b ∈ [6, 18], a < b → a + 5 ≤ b) ∧
    18 ∈ [6, 18] ∧ 18 < s.sideN ∧ cellAt s.sideN s.grid 18 18 = .unset ∧ ((16 : Int) - 18).natAbs ≤ 2 ∧
    (3 < [6, 18].length * [6, 18].length ∧ [6, 18][3 / [6, 18].length]? = some 18 ∧
      [6, 18][3 % [6, 18].length]? = some 18) ∧ conf.phase ≠ .finderDone :=
  ⟨colSix_inv (by decide) (by decide) (by decide) 0#8, rfl, by decide, by decide +kernel, by decide +kernel,
    by decide +kernel, by decide, by decide, by decide, by decide, by decide +kernel, by decide, by decide, by decide⟩

theorem witness_MxTimingAlternatesByParity :
    let s := { built .alignDone colSix with cfgMask := 0#8 }
    s.Inv ∧ s.phase = .alignDone ∧ 6 < s.sideN ∧ 16 < s.sideN ∧ cellAt s.sideN s.grid 6 16 = .unset ∧
    conf.phase ≠ .alignDone :=
  ⟨colSix_inv (by decide) (by decide) (by decide) 0#8, rfl, by decide, by decide, by decide +kernel, by decide⟩

/-- Bits 0, 7, 8 and 14 of both copies, the dark module and a cell outside both runs; then each failure. -/
theorem witness_MxFormatPlacesBothCopies :
    let s := { built .timingDone colSix with cfgMask := 7#8 }
    s.Inv ∧ s.phase = .timingDone ∧ s.cfgMask.toNat ≤ 7 ∧ cellAt s.sideN s.grid 24 6 ≠ .unset ∧
    (∀ q ∈ [(0, 0), (7, 8), (8, 18), (14, 24)],
      q.1 < 15 ∧ q.2 = (if q.1 ≤ 5 then q.1 else if q.1 ≤ 7 then q.1 + 1 else s.sideN - 15 + q.1) ∧
        cellAt s.sideN s.grid q.2 8 = .unset) ∧
    (∀ q ∈ [(0, 24), (7, 17), (8, 7), (14, 0)],
      q.1 < 15 ∧ q.2 = (if q.1 ≤ 7 then s.sideN - 1 - q.1 else if q.1 = 8 then 7 else 14 - q.1) ∧
        cellAt s.sideN s.grid 8 q.2 = .unset) ∧
    cellAt s.sideN s.grid (s.sideN - 8) 8 = .unset ∧
    (¬(8 = 8 ∧ (16 ≤ 5 ∨ 16 = 7 ∨ 16 = 8 ∨ s.sideN ≤ 16 + 8)) ∧ ¬(16 = 8 ∧ (s.sideN ≤ 8 + 8 ∨ 8 = 7 ∨ 8 ≤ 5))) ∧
    7 < ({ built .timingDone colSix with cfgMask := 8#8 }.cfgMask).toNat ∧ conf.phase ≠ .timingDone :=
  ⟨colSix_inv (by decide) (by decide) (by decide) 7#8, rfl, by decide, by decide +kernel, by decide +kernel,
    by decide +kernel, by decide +kernel, by decide, by decide, by decide⟩

/-- At N = 9: the last row of the pairs at columns 8, 5 and 1. -/
theorem witness_ZigzagVisitsEveryDataColumnCellOnce :
    9 ≤ 9 ∧ 9 % 2 = 1 ∧
    ∀ q ∈ [(0, 0, 8), (1, 8, 5), (3, 8, 1)],
      q.1 < (9 - 1) / 2 ∧ 8 < 9 ∧ q.2.1 = (if q.1 % 2 = 0 then 9 - 1 - 8 else 8) ∧
        q.2.2 = (if 6 < 9 - 1 - 2 * q.1 then 9 - 1 - 2 * q.1 else 9 - 2 - 2 * q.1) := by decide

/-- A source that ends at the end of CW; the first UNSET cell of the traversal; then each failure. -/
theorem witness_MxPlaceFillsTheGrid :
    let s := { built .formatDone colSix with cfgMask := 0#8 }
    s.Inv ∧ s.phase = .formatDone ∧ 4052 + 44 ≤ s.params.cwBytes ∧ 24 < s.sideN ∧ cellAt s.sideN s.grid 24 6 ≠ .unset ∧
    ((zigzag s.sideN).filter (fun p => cellAt s.sideN s.grid p.1 p.2 = .unset))[0]? = some (24, 24) ∧
    s.params.cwBytes < 4053 + 44 ∧ conf.phase ≠ .formatDone :=
  ⟨colSix_inv (by decide) (by decide) (by decide) 0#8, rfl, by decide, by decide, by decide +kernel, by decide +kernel,
    by decide, by decide⟩

theorem witness_GridReads :
    finished.phase ≠ .none ∧ finished.phase = .done ∧ 20 < finished.sideN ∧ conf.phase = .none ∧ conf.phase ≠ .done ∧
    finished.sideN ≤ 21 := by decide +kernel

/-! ### Assembly -/

theorem loaded_inv {n : Nat} (h : n ≤ 4096) : (loaded n).Inv :=
  built_inv 0#8 (BitVec.ofNat 16 n) Config.defaults (by decide)
    (by rw [BitVec.toNat_ofNat]; show n % 2 ^ 16 ≤ 4096; omega) (fun _ => rfl) (fun h => absurd rfl h)
    (fun h => absurd h (by decide)) (fun h => absurd h (by decide)) (fun h => absurd h (by decide))

/-- The longest payload that fits 2-L, 32 bytes, and one byte more. -/
theorem witness_AssembleBuildsTheCodewordSequence :
    (loaded 32).Inv ∧ (loaded 32).cfgValid = true ∧
    4 + (loaded 32).params.lenWidth (loaded 32).cfgVersion.toNat + 8 * (loaded 32).plLen.toNat ≤ 8 * (loaded 32).capData.toNat ∧
    33 < (loaded 32).capData.toNat ∧ 7 < 8 ∧ (loaded 32).capTotal.toNat ≤ 44 ∧ 10 ≤ (loaded 32).capEc.toNat ∧
    (loaded 32).capEc.toNat < 11 ∧ State.reset.cfgValid = false ∧ (loaded 33).cfgValid = true ∧
    8 * (loaded 33).capData.toNat < 4 + (loaded 33).params.lenWidth (loaded 33).cfgVersion.toNat + 8 * (loaded 33).plLen.toNat :=
  ⟨loaded_inv (by decide), rfl, by decide, by decide, by decide, by decide, by decide, by decide, rfl, rfl, by decide⟩

/-- 2-L with 30 bytes; and with a length field of 10 bits and 32 bytes, where the terminator has no room. -/
theorem witness_AssembledStreamLayout :
    ((loaded 30).Inv ∧ (loaded 30).cfgValid = true ∧ 8 = (loaded 30).params.lenWidth (loaded 30).cfgVersion.toNat ∧
      30 = (loaded 30).plLen.toNat ∧ 34 = (loaded 30).capData.toNat ∧ 4 + 8 + 8 * 30 ≤ 8 * 34 ∧
      32 = (4 + 8 + 8 * 30 + (if 4 + 8 + 8 * 30 + 4 ≤ 8 * 34 then 4 else 0) + 7) / 8 ∧ 3 < 4 ∧ 7 < 8 ∧ 29 < 30 ∧
      4 + 8 + 8 * 30 ≤ 255 ∧ 255 < 8 * 32 ∧ 32 ≤ 33 ∧ 33 < 34) ∧
    (let s := { loaded 32 with params := { Config.defaults with lenWidths := [0, 0, 10] } }
     s.Inv ∧ s.cfgValid = true ∧ 10 = s.params.lenWidth s.cfgVersion.toNat ∧ 32 = s.plLen.toNat ∧ 34 = s.capData.toNat ∧
      4 + 10 + 8 * 32 ≤ 8 * 34 ∧ 34 = (4 + 10 + 8 * 32 + (if 4 + 10 + 8 * 32 + 4 ≤ 8 * 34 then 4 else 0) + 7) / 8 ∧
      4 + 10 + 8 * 32 ≤ 271 ∧ 271 < 8 * 34) :=
  ⟨⟨loaded_inv (by decide), rfl, by decide, by decide, by decide, by decide, by decide, by decide, by decide, by decide,
      by decide, by decide, by decide, by decide⟩,
    built_inv 0#8 32#16 { Config.defaults with lenWidths := [0, 0, 10] } (by decide) (by decide) (fun _ => rfl)
      (fun h => absurd rfl h) (fun h => absurd h (by decide)) (fun h => absurd h (by decide))
      (fun h => absurd h (by decide)),
    rfl, by decide, by decide, by decide, by decide, by decide, by decide, by decide⟩

theorem witness_EncodeIsTheBuildSequence :
    (loaded 32).Inv ∧ (loaded 32).cfgValid = true ∧
    4 + (loaded 32).params.lenWidth (loaded 32).cfgVersion.toNat + 8 * (loaded 32).plLen.toNat ≤ 8 * (loaded 32).capData.toNat ∧
    (loaded 32).cfgMask.toNat ≤ 7 ∧ State.reset.cfgValid = false ∧ (loaded 33).cfgValid = true ∧
    8 * (loaded 33).capData.toNat < 4 + (loaded 33).params.lenWidth (loaded 33).cfgVersion.toNat + 8 * (loaded 33).plLen.toNat ∧
    (let s := { built .none [] with cfgMask := 8#8 }
     s.Inv ∧ s.cfgValid = true ∧
     4 + s.params.lenWidth s.cfgVersion.toNat + 8 * s.plLen.toNat ≤ 8 * s.capData.toNat ∧ 7 < s.cfgMask.toNat) :=
  ⟨loaded_inv (by decide), rfl, by decide, by decide, rfl, rfl, by decide,
    built_inv 8#8 0#16 Config.defaults (by decide) (by decide) (fun _ => rfl) (fun h => absurd rfl h) (fun h => absurd h (by decide))
      (fun h => absurd h (by decide)) (fun h => absurd h (by decide)), rfl, by decide, by decide⟩

theorem witness_EncodeIsIdempotent :
    ∃ t u, (loaded 32).Inv ∧ exec .encode (loaded 32) = .next t ∧ t.err = none ∧ exec .encode t = .next u := by
  obtain ⟨g, hg⟩ := execEncode_of_configured (s := loaded 32) rfl (by decide) (by decide) (by decide) (by decide)
    (by decide) (by decide)
  obtain ⟨r, hr⟩ := exec_eq_complete .encode (g.setResult (zext32 g.side)).succeed
  obtain ⟨u, hu⟩ := complete_answers (g.setResult (zext32 g.side)).succeed r
  exact ⟨_, u, loaded_inv (by decide), hg, rfl, hr.trans hu⟩

theorem witness_OneFieldCommandsWriteTheirField :
    7 < (8#8).toNat ∧ exec (.cfgMask 8#8) (loaded 32) = .next { loaded 32 with cfgMask := 8#8 }.succeed ∧
    exec (.cfgMask 8#8) (built .timingDone []) = .next { built .timingDone [] with cfgMask := 8#8 }.succeed ∧
    (built .timingDone []).phase = .timingDone ∧ (loaded 32).Inv ∧ (loaded 32).cfgValid = true ∧
    4 + (loaded 32).params.lenWidth (loaded 32).cfgVersion.toNat + 8 * (loaded 32).plLen.toNat ≤ 8 * (loaded 32).capData.toNat ∧
    exec .bsClear (stream 13) = .next { stream 13 with bs := [] }.succeed ∧ 0 < (stream 13).bs.length :=
  ⟨by decide, rfl, rfl, rfl, loaded_inv (by decide), rfl, by decide, rfl, by decide⟩

/-! ### The assembler -/

theorem witness_AssembledCommandDecodesToItself :
    commandOf "RS_ENC".toList [255, 65535, 65535, 65535] = some (.rsEnc 255 65535 65535 65535) ∧
    WellFormed (.mxRead 65535 0) ∧
    opTable.any (fun row => decide (row.op = opcodeOf (.mxRead 65535 0)) && decide (row.mnemonic = "MX_READ")) = true := by
  decide +kernel

end Sys2Proof.Tests
end

section
/-! SUPPORT. What belongs to the device and not to its commands: no command changes it, and a step keeps its tables and
parameters (00_scope.md R9 to R11, 20_memory.md R76). -/

namespace Sys2Proof.Machine

/-- The part of the state that is fixed outside the commands: the pending host events, the power-on draw, the external
tables and the parameters (logs 1, 2, 3, 5). -/
def State.device (s : State) : List HostEvent × Nat × Tables × Params := (s.port, s.draw, s.tables, s.params)

/-- A part of a command that started in `s`: where it succeeds, it leaves the device part of `s` alone. -/
def KeepsDevice (s : State) (r : Except Raise State) : Prop := ∀ u, r = .ok u → u.device = s.device

namespace KeepsDevice

variable {s t : State} {r r' : Except Raise State}

theorem ok (h : t.device = s.device) : KeepsDevice s (.ok t) := by
  rintro u ⟨⟩; exact h

theorem error {e : Raise} : KeepsDevice s (.error e) := by
  rintro u ⟨⟩

/-- A part may as well start in another state of the same device. -/
theorem trans (hs : t.device = s.device) (h : KeepsDevice t r) : KeepsDevice s r := fun u hu => (h u hu).trans hs

theorem ite {p : Prop} [Decidable p] (h : KeepsDevice s r) (h' : KeepsDevice s r') :
    KeepsDevice s (if p then r else r') := by
  split
  · exact h
  · exact h'

/-- After a check or a computation that yields no state, the rest of the command decides. -/
theorem after {α : Type} {x : Except Raise α} {f : α → Except Raise State} (h : ∀ a, KeepsDevice s (f a)) :
    KeepsDevice s (x >>= f) := by
  intro u hu
  obtain ⟨a, -, ha⟩ := except_bind_eq_ok.mp hu
  exact h a u ha

/-- Two parts that each keep the device keep it in sequence. -/
theorem seq {f : State → Except Raise State} (h : KeepsDevice s r) (hf : ∀ a, KeepsDevice a (f a)) :
    KeepsDevice s (r >>= f) := by
  intro u hu
  obtain ⟨a, ha, hu⟩ := except_bind_eq_ok.mp hu
  exact (hf a u hu).trans (h a ha)

theorem allocGrid (s : State) : KeepsDevice s s.allocGrid := fun u hu => by
  obtain ⟨-, rfl⟩ := allocGrid_eq_ok.mp hu; rfl

theorem stampFormat (s : State) : KeepsDevice s s.stampFormat := fun u hu => by
  obtain ⟨-, rfl⟩ := stampFormat_eq_ok.mp hu; rfl

theorem placeCodewords (s : State) (src count : Nat) : KeepsDevice s (s.placeCodewords src count) := fun u hu => by
  obtain ⟨-, -, rfl⟩ := placeCodewords_eq_ok.mp hu; rfl

theorem assembleCodewords (s : State) : KeepsDevice s s.assembleCodewords := fun u hu => by
  obtain ⟨-, -, bs, -, rfl⟩ := assembleCodewords_eq_ok.mp hu; rfl

/-- The build of ENCODE is a sequence of parts that each keep the device (R246). -/
theorem buildGrid (s : State) : KeepsDevice s s.buildGrid := by
  have hstamps (a : State) : a.stampFinder.stampAlign.stampTiming.device = a.device := by simp [State.device]
  unfold State.buildGrid
  refine (allocGrid s).seq fun a => ?_
  refine seq (trans (hstamps a) (stampFormat _)) fun b => ?_
  exact placeCodewords b 0 s.capTotal.toNat

end KeepsDevice

/-- A command whose pseudocode keeps the device keeps it whichever way it ends (R272, R273). -/
theorem complete_device {s t : State} {r : Except Raise State} (h : complete s r = .next t) (hr : KeepsDevice s r) :
    t.device = s.device := by
  obtain ⟨u, hu, rfl⟩ | ⟨e, -, rfl⟩ := complete_eq_next.mp h
  · exact hr u hu
  · rfl

/-- Every command keeps the device part of the state. -/
theorem exec_device {i : Instr} {s t : State} (h : exec i s = .next t) : t.device = s.device := by
  cases i
  case nop | cfgMask | clrSticky | bsClear | bsLen | gfMul | gfExp | rsGen | fmtEnc =>
    exact complete_device (r := .ok _) h (.ok rfl)
  case cwWr | cwRd | plWr | plRd | plSetlen | genRd | maskEval => exact complete_device h (.ite .error (.ok rfl))
  case bsStore | rsEnc => exact complete_device h (.ite .error (.ite .error (.ok rfl)))
  case cfgSet | regRead | bsPutbit | bsGet | gfLog =>
    refine complete_device h ?_
    split
    · exact .error
    · exact .ok rfl
  case bsPut =>
    refine complete_device h (.ite .error ?_)
    split
    · exact .error
    · exact .ok rfl
  case mxFinder | mxAlign | mxTiming | mxSide => exact complete_device h (.after fun _ => .ok rfl)
  case mxRead => exact complete_device h (.ite .error (.after fun _ => .ok rfl))
  case mxIsdark => exact complete_device h (.after fun _ => .after fun _ => .ok rfl)
  case mxAlloc => exact complete_device h (.allocGrid s)
  case mxFormat => exact complete_device h (.after fun _ => .stampFormat s)
  case mxPlace => exact complete_device h (.after fun _ => .placeCodewords s _ _)
  case assemble => exact complete_device h ((KeepsDevice.assembleCodewords s).seq fun _ => .ok rfl)
  case encode =>
    exact complete_device h ((KeepsDevice.assembleCodewords s).seq fun a => (KeepsDevice.buildGrid a).seq fun _ => .ok rfl)

/-- A command word keeps the device part of the state, whether it is a command or is rejected. -/
theorem runWord_device {w : CommandWord} {s t : State} (h : runWord w s = .next t) : t.device = s.device := by
  unfold runWord at h
  split at h
  · exact exec_device h
  · exact complete_device h .error

/-- A step takes an event from the port and may make a new draw; the tables and the parameters stay. -/
theorem step_tables_params {s t : State} (h : step s = .next t) : t.tables = s.tables ∧ t.params = s.params := by
  unfold step at h
  split at h
  · cases h; exact ⟨rfl, rfl⟩
  · have hd := runWord_device h
    simp only [State.device, Prod.mk.injEq] at hd
    obtain ⟨-, -, htables, hparams⟩ := hd
    exact ⟨htables, hparams⟩
  · cases h; exact ⟨rfl, rfl⟩
  · cases h; exact ⟨rfl, rfl⟩

/-- Settles O17: every command keeps the device part of the state, and a reset event keeps its tables and parameters. -/
theorem externalTablesNeverChange : Obligations.ExternalTablesNeverChange := by
  unfold Obligations.ExternalTablesNeverChange
  refine ⟨fun s t => step_tables_params, fun i s t h => ?_⟩
  have hd := exec_device h
  simp only [State.device, Prod.mk.injEq] at hd
  obtain ⟨hport, hdraw, -⟩ := hd
  exact ⟨hport, hdraw⟩

end Sys2Proof.Machine
end

section
/-! SUPPORT. The stream ASSEMBLE leaves, bit by bit (46_assembly.md R240 to R242, R244, R247). -/

namespace Sys2Proof.Machine

/-! ### Looking up a bit -/

/-- Behind a first part of length n, position n + i is position i of the second part. -/
theorem getElem?_append_offset {α : Type} (l l' : List α) {n : Nat} (hn : l.length = n) (i : Nat) :
    (l ++ l')[n + i]? = l'[i]? := by
  rw [List.getElem?_append_right (by omega), hn, Nat.add_sub_cancel_left]

theorem length_flatMap_bitsMsb {α : Type} (f : α → Nat) (l : List α) :
    (l.flatMap fun a => bitsMsb (f a) 8).length = 8 * l.length := by
  simp [List.length_flatMap, Nat.mul_comm]

/-- Bit 8k + j of a run of bytes is bit 7 − j of its byte k (20_memory.md R71). -/
theorem getElem?_flatMap_bitsMsb {α : Type} (f : α → Nat) {l : List α} {k j : Nat} {a : α} (hk : l[k]? = some a)
    (hj : j < 8) : (l.flatMap fun a => bitsMsb (f a) 8)[8 * k + j]? = some ((f a).testBit (7 - j)) := by
  induction l generalizing k with
  | nil => simp at hk
  | cons b l ih =>
    rw [List.flatMap_cons]
    cases k with
    | zero =>
      obtain rfl : b = a := by simpa using hk
      rw [List.getElem?_append_left (by simpa using hj), Nat.mul_zero, Nat.zero_add]
      exact bitsMsb_getElem? _ hj
    | succ k =>
      rw [show 8 * (k + 1) + j = 8 + (8 * k + j) by omega, getElem?_append_offset _ _ (bitsMsb_length _ _)]
      exact ih hk

/-- A byte of the stream is the byte whose bits stand there, most significant first. -/
theorem streamByte_eq_ofNat {bs : List Bool} {k v : Nat}
    (h : ∀ j, j < 8 → bs[8 * k + j]? = some (v.testBit (7 - j))) : streamByte bs k = BitVec.ofNat 8 v := by
  refine BitVec.eq_of_getLsbD_eq fun i hi => ?_
  have hbit := streamByte_getLsbD bs k (j := 7 - i) (by omega)
  rw [List.getD_eq_getElem?_getD, h (7 - i) (by omega), show 7 - (7 - i) = i by omega] at hbit
  rw [hbit, Option.getD_some, BitVec.getLsbD_ofNat, decide_eq_true hi, Bool.true_and]

/-! ### The layout -/

/-- The stream of R240 for a payload that fits: mode indicator, length field, payload, clear bits up to the first pad
byte, pad bytes. -/
def assembledStream (p : Params) (payload : List Byte) (w D : Nat) : List Bool :=
  bitsMsb p.modeIndicator.toNat 4 ++ (bitsMsb payload.length w ++ (payload.flatMap (fun b => bitsMsb b.toNat 8) ++
    (List.replicate (8 * padStart (4 + w + 8 * payload.length) D - (4 + w + 8 * payload.length)) false ++
      (List.range (D - padStart (4 + w + 8 * payload.length) D)).flatMap (fun i => bitsMsb (padByte i) 8))))

section
variable (p : Params) (payload : List Byte) {w D : Nat}

theorem dataStream_eq_assembledStream (hD : 8 * D ≤ p.bsBits) (h : 4 + w + 8 * payload.length ≤ 8 * D) :
    dataStream p payload w D = .ok (assembledStream p payload w D) := by
  rw [dataStream_of_fits p payload hD h]
  simp only [assembledStream, List.append_assoc]

theorem assembledStream_length (h : 4 + w + 8 * payload.length ≤ 8 * D) :
    (assembledStream p payload w D).length = 8 * D := by
  have hb := padStart_bounds h
  simp only [assembledStream, List.length_append, bitsMsb_length, length_flatMap_bitsMsb, List.length_replicate,
    List.length_range]
  omega

theorem assembledStream_mode {i : Nat} (hi : i < 4) :
    (assembledStream p payload w D)[i]? = some (p.modeIndicator.getLsbD (3 - i)) := by
  rw [assembledStream, List.getElem?_append_left (by simpa using hi)]
  exact bitsMsb_getElem? _ hi

theorem assembledStream_lengthField {i : Nat} (hi : i < w) :
    (assembledStream p payload w D)[4 + i]? = some (payload.length.testBit (w - 1 - i)) := by
  rw [assembledStream, getElem?_append_offset _ _ (bitsMsb_length _ _), List.getElem?_append_left (by simpa using hi)]
  exact bitsMsb_getElem? _ hi

/-- Behind the mode indicator and the length field stand the payload, the clear bits and the pad bytes. -/
theorem assembledStream_afterHeader (i : Nat) :
    (assembledStream p payload w D)[4 + w + i]? =
      (payload.flatMap (fun b => bitsMsb b.toNat 8) ++
        (List.replicate (8 * padStart (4 + w + 8 * payload.length) D - (4 + w + 8 * payload.length)) false ++
          (List.range (D - padStart (4 + w + 8 * payload.length) D)).flatMap (fun i => bitsMsb (padByte i) 8)))[i]? := by
  rw [assembledStream, Nat.add_assoc 4 w i, getElem?_append_offset _ _ (bitsMsb_length _ _),
    getElem?_append_offset _ _ (bitsMsb_length _ _)]

theorem assembledStream_payload {k j : Nat} {b : Byte} (hk : payload[k]? = some b) (hj : j < 8) :
    (assembledStream p payload w D)[4 + w + 8 * k + j]? = some (b.getLsbD (7 - j)) := by
  have hlt : k < payload.length := (List.getElem?_eq_some_iff.mp hk).1
  rw [Nat.add_assoc, assembledStream_afterHeader,
    List.getElem?_append_left (by rw [length_flatMap_bitsMsb]; omega)]
  exact getElem?_flatMap_bitsMsb _ hk hj

/-- The terminator, where it has room, and the padding to a byte are clear bits (R242). -/
theorem assembledStream_clear {i : Nat} (hi : 4 + w + 8 * payload.length ≤ i)
    (hP : i < 8 * padStart (4 + w + 8 * payload.length) D) : (assembledStream p payload w D)[i]? = some false := by
  obtain ⟨d, rfl⟩ := Nat.exists_eq_add_of_le hi
  rw [Nat.add_assoc (4 + w), assembledStream_afterHeader, getElem?_append_offset _ _ (length_flatMap_bitsMsb _ _),
    List.getElem?_append_left (by simp; omega), List.getElem?_replicate_of_lt (by omega)]

/-- From byte P on the stream holds the pad bytes in turn. -/
theorem streamByte_assembledStream_pad (h : 4 + w + 8 * payload.length ≤ 8 * D) {k : Nat}
    (hP : padStart (4 + w + 8 * payload.length) D ≤ k) (hk : k < D) :
    streamByte (assembledStream p payload w D) k =
      BitVec.ofNat 8 (padByte (k - padStart (4 + w + 8 * payload.length) D)) := by
  have hb := padStart_bounds h
  refine streamByte_eq_ofNat fun j hj => ?_
  generalize hL : 4 + w + 8 * payload.length = L at *
  have hsplit : 8 * k + j = 4 + w + (8 * payload.length + (8 * padStart L D - L + (8 * (k - padStart L D) + j))) := by
    omega
  rw [hsplit, assembledStream_afterHeader, getElem?_append_offset _ _ (length_flatMap_bitsMsb _ _), hL,
    getElem?_append_offset _ _ List.length_replicate]
  exact getElem?_flatMap_bitsMsb _ (List.getElem?_range (by omega)) hj

end

/-! ### What ASSEMBLE leaves -/

theorem padByte_ofNat (j : Nat) : BitVec.ofNat 8 (padByte j) = if j % 2 = 0 then 0xEC#8 else 0x11#8 := by
  unfold padByte; split <;> rfl

/-- Writing `data` at 0 and then a sequence behind it leaves byte k of `data` at k. -/
theorem Memory.read?_writeBytes_behind (m : Memory) (data rest : List Byte) {k : Nat} {b : Byte} (hk : data[k]? = some b) :
    ((m.writeBytes 0 data).writeBytes data.length rest).read? k = some b := by
  have hlt : k < data.length := (List.getElem?_eq_some_iff.mp hk).1
  rw [Memory.read?_writeBytes_outside _ _ _ _ (.inl hlt), Memory.read?_writeBytes, if_pos (by omega)]
  exact hk

/-- An assembly leaves its data stream in BS and the first D bytes of it in CW[0..D−1] (R244). -/
theorem assembleCodewords_stream {s u : State} (h : s.assembleCodewords = .ok u) :
    dataStream s.params (s.plBytes s.plLen.toNat) (s.params.lenWidth s.cfgVersion.toNat) s.capData.toNat = .ok u.bs ∧
      ∀ k, k < s.capData.toNat → u.cwByte k = streamByte u.bs k := by
  obtain ⟨-, -, bs, hbs, rfl⟩ := assembleCodewords_eq_ok.mp h
  refine ⟨hbs, fun k hk => ?_⟩
  have hread := Memory.read?_writeBytes_behind s.cw (streamBytes bs s.capData.toNat)
    (rsRem (streamBytes bs s.capData.toNat) s.capEc.toNat) (streamBytes_getElem? bs hk)
  rw [streamBytes_length] at hread
  rw [State.cwByte, hread, Option.getD_some]

/-- ASSEMBLE succeeds when the payload fits, and leaves the stream of R240 and its bytes in CW (R244, R245). -/
theorem execAssemble_of_fits {s : State} (hv : s.cfgValid = true) (hD : 8 * s.capData.toNat ≤ s.params.bsBits)
    (hL : s.payloadBits ≤ 8 * s.capData.toNat) :
    ∃ t, exec .assemble s = .next t ∧ t.err = none ∧
      t.bs = assembledStream s.params (s.plBytes s.plLen.toNat) (s.params.lenWidth s.cfgVersion.toNat) s.capData.toNat ∧
      ∀ k, k < s.capData.toNat → t.cwByte k = streamByte t.bs k := by
  obtain ⟨u, hu⟩ := assembleCodewords_of_fits hv hD hL
  obtain ⟨hbs, hcw⟩ := assembleCodewords_stream hu
  rw [dataStream_eq_assembledStream _ _ hD (by rw [State.plBytes_length]; exact hL)] at hbs
  refine ⟨(u.setResult s.capTotal).succeed, ?_, rfl, (Except.ok.inj hbs).symm, hcw⟩
  rw [exec, execAssemble, hu, except_bind_ok, complete_ok]

/-- Settles O53: the stream is `assembledStream`, read segment by segment. -/
theorem assembledStreamLayout : Obligations.AssembledStreamLayout := by
  unfold Obligations.AssembledStreamLayout
  intro s w n D P hinv hv hw hn hD hfit hP
  subst hw hn hD
  obtain ⟨t, hexec, herr, hbs, hcw⟩ := execAssemble_of_fits hv (hinv.spec.data_fits hv) hfit
  have hlen := s.plBytes_length s.plLen.toNat
  replace hP : P = padStart (4 + s.params.lenWidth s.cfgVersion.toNat + 8 * (s.plBytes s.plLen.toNat).length)
      s.capData.toNat := by rw [hlen]; exact hP
  rw [← hlen] at hfit
  refine ⟨t, hexec, herr, ?_, fun i hi => ?_, fun i hi => ?_, fun k j hk hj => ?_, fun i hi hiP => ?_, ?_,
    fun k hPk hk => ?_⟩
  · rw [hbs]; exact assembledStream_length _ _ hfit
  · rw [hbs]; exact assembledStream_mode _ _ hi
  · rw [hbs, assembledStream_lengthField _ _ hi, hlen]
  · rw [hbs]; exact assembledStream_payload _ _ (s.plBytes_getElem? hk) hj
  · rw [hbs]; exact assembledStream_clear _ _ (by rwa [hlen]) (hP ▸ hiP)
  · rw [hP]; exact (padStart_bounds hfit).2
  · rw [hcw k hk, hbs, streamByte_assembledStream_pad _ _ hfit (hP ▸ hPk) hk, ← hP, padByte_ofNat]

end Sys2Proof.Machine
end

section
/-! SUPPORT. What a command can write: every successful command is a run of single writes, each with the commands that may
make it and the checks that guard it (10_state.md R24, R42, 60_exceptions.md R272, R273). -/

namespace Sys2Proof.Machine

/-- One write that command `i` may make in `s`. A guard behind `s.succeed.Inv → WellFormed i →` is one that the command
does not check, because the width of its operands and the invariant give it; the invariant is taken without the error
report, which the command overwrites at its end. -/
inductive Change (i : Instr) (s : State) : State → Prop
  /-- RESULT (R21) -/
  | result (v : Word) (hop : opcodeOf i ∈ resultOps) : Change i s (s.setResult v)
  /-- the configuration registers (40_control.md R112) -/
  | configuration {ecl : BitVec 2} {ver : Nat} {e : CapEntry} (hi : i = .cfgSet ecl ver)
      (he : cfgLookup s.params s.tables ver ecl = some e) : Change i s (s.configure ver ecl e)
  /-- CFG_MASK (R113) -/
  | mask (m : Byte) (hop : opcodeOf i ∈ registerWriters 5) : Change i s { s with cfgMask := m }
  /-- STATUS.STICKY (R115) -/
  | sticky (hi : i = .clrSticky) : Change i s { s with sticky := false }
  /-- bytes of CW -/
  | codewords (a : Nat) (bytes : List Byte) (hop : opcodeOf i ∈ cwWriters)
      (hfit : s.succeed.Inv → WellFormed i → a + bytes.length ≤ s.params.cwBytes) :
      Change i s { s with cw := s.cw.writeBytes a bytes }
  /-- a byte of PL (R118) -/
  | payload (a : Nat) (v : Byte) (hop : opcodeOf i ∈ plWriters) (hfit : a < s.params.plBytes) :
      Change i s { s with pl := s.pl.write a v }
  /-- PL_LEN (R120) -/
  | payloadLength (n : Nat) (hop : opcodeOf i ∈ registerWriters 12) (hfit : n ≤ s.params.plBytes) :
      Change i s { s with plLen := BitVec.ofNat 16 n }
  /-- the emptying of BS (41_packer.md R130) -/
  | noStream (hi : i = .bsClear) : Change i s { s with bs := [] }
  /-- the bits of BS -/
  | stream (bs : List Bool) (hop : opcodeOf i ∈ bsWriters) (hfit : s.succeed.Inv → WellFormed i → bs.length ≤ s.params.bsBits) :
      Change i s { s with bs := bs }
  /-- GEN and GEN_DEG (43_reed_solomon.md R173) -/
  | generator (n : Nat) (hop : opcodeOf i ∈ genWriters) (hfit : s.succeed.Inv → WellFormed i → n ≤ 255) :
      Change i s (s.loadGenerator n)
  /-- a fresh grid (45_matrix.md R201) -/
  | freshGrid (hop : opcodeOf i ∈ gridWriters) (hv : s.cfgValid = true) :
      Change i s { s with grid := List.replicate (s.sideN * s.sideN) .unset, phase := .allocated }
  /-- the finder patterns (R203) -/
  | finder (hop : opcodeOf i ∈ gridWriters) (hp : s.phase = .allocated) : Change i s s.stampFinder
  /-- the alignment patterns (R205) -/
  | align (hop : opcodeOf i ∈ gridWriters) (hp : s.phase = .finderDone) : Change i s s.stampAlign
  /-- the timing patterns (R207) -/
  | timing (hop : opcodeOf i ∈ gridWriters) (hp : s.phase = .alignDone) : Change i s s.stampTiming
  /-- the format bits and BUILD_MASK (R210) -/
  | format (m : BitVec 3) (stamps : List Stamp) (hop : opcodeOf i ∈ registerWriters 14) (hp : s.phase = .timingDone) :
      Change i s { s with buildMask := m, grid := stampAll s.sideN s.grid stamps, phase := .formatDone }
  /-- the data cells, PLACE_CELLS and PLACE_BITS (R215) -/
  | data (grid : List GridCell) (cells bits : Word) (hop : opcodeOf i ∈ registerWriters 15) (hp : s.phase = .formatDone)
      (hlen : grid.length = s.grid.length) (hfull : grid.count .unset = 0) :
      Change i s { s with grid := grid, placeCells := cells, placeBits := bits, phase := .done }

/-- Under the invariant the data and the EC codewords fit the codeword RAM together (R51). -/
theorem State.Inv.codewords_fit {s : State} (h : s.Inv) (hv : s.cfgValid = true) :
    s.capData.toNat + s.capEc.toNat ≤ s.params.cwBytes := by
  have hec := h.spec.ec_le_total hv
  have htotal := h.spec.total_fits hv
  have hdata := h.holds.data_value hv
  omega

/-- The placer keeps the size of the grid. -/
theorem placeCells_length (N : Nat) (cw : List Byte) (mask : Nat) (run : List (Nat × Nat)) (p : Placer) :
    (run.foldl (placeCell N cw mask) p).grid.length = p.grid.length := by
  induction run generalizing p with
  | nil => rfl
  | cons rc run ih => rw [List.foldl_cons, ih, placeCell_length]

/-- A run of writes that command `i` may make. -/
abbrev Changes (i : Instr) : State → State → Prop := Relation.ReflTransGen (Change i)

/-- A part of command `i` that starts in `s`: where it succeeds, it is a run of writes. -/
def Makes (i : Instr) (s : State) (r : Except Raise State) : Prop := ∀ u, r = .ok u → Changes i s u

namespace Makes

variable {i : Instr} {s t : State} {r : Except Raise State}

theorem ok (h : Changes i s t) : Makes i s (.ok t) := by
  rintro u ⟨⟩; exact h

theorem one (h : Change i s t) : Makes i s (.ok t) := ok (.single h)

theorem error {e : Raise} : Makes i s (.error e) := by
  rintro u ⟨⟩

/-- A check in front of a part: what it lets through may be used. -/
theorem check {p : Prop} [Decidable p] {e : Raise} (h : ¬p → Makes i s r) : Makes i s (if p then .error e else r) := by
  split
  · exact error
  · exact h ‹_›

/-- After a check or a computation that yields no state, the rest of the command decides. -/
theorem after {α : Type} {x : Except Raise α} {f : α → Except Raise State} (h : ∀ a, x = .ok a → Makes i s (f a)) :
    Makes i s (x >>= f) := by
  intro u hu
  obtain ⟨a, ha, hu⟩ := except_bind_eq_ok.mp hu
  exact h a ha u hu

/-- Parts in sequence make their writes in sequence. -/
theorem seq {f : State → Except Raise State} (h : Makes i s r) (hf : ∀ a, r = .ok a → Makes i a (f a)) :
    Makes i s (r >>= f) := by
  intro u hu
  obtain ⟨a, ha, hu⟩ := except_bind_eq_ok.mp hu
  exact (h a ha).trans (hf a ha u hu)

theorem requirePhase {p : Phase} {f : Unit → Except Raise State} (h : s.phase = p → Makes i s (f ())) :
    Makes i s (requirePhase s p >>= f) :=
  .after fun _ hu => h (requirePhase_eq_ok.mp hu)

/-! ### The parts of the commands -/

theorem allocGrid (hop : opcodeOf i ∈ gridWriters) : Makes i s s.allocGrid := fun u hu => by
  obtain ⟨hv, rfl⟩ := allocGrid_eq_ok.mp hu
  exact .single (.freshGrid hop hv)

theorem stampFormat (hop : opcodeOf i ∈ registerWriters 14) (hp : s.phase = .timingDone) : Makes i s s.stampFormat :=
  fun u hu => by
  obtain ⟨-, rfl⟩ := stampFormat_eq_ok.mp hu
  exact .single (.format _ _ hop hp)

theorem placeCodewords {src count : Nat} (hop : opcodeOf i ∈ registerWriters 15) (hp : s.phase = .formatDone) :
    Makes i s (s.placeCodewords src count) := fun u hu => by
  obtain ⟨-, hfull, rfl⟩ := placeCodewords_eq_ok.mp hu
  exact .single (.data _ _ _ hop hp (placeCells_length _ _ _ _ _) hfull)

/-- ASSEMBLE's writes: the generator, the stream, the data codewords, the EC codewords. Under the invariant they fit,
since CAP_DATA + CAP_EC is CAP_TOTAL (10_state.md R51). -/
theorem assembleCodewords (hi : i = .assemble ∨ i = .encode) : Makes i s s.assembleCodewords := fun u hu => by
  obtain ⟨hv, hL, bs, hbs, rfl⟩ := assembleCodewords_eq_ok.mp hu
  have hgen : opcodeOf i ∈ genWriters := by obtain rfl | rfl := hi <;> decide
  have hstream : opcodeOf i ∈ bsWriters := by obtain rfl | rfl := hi <;> decide
  have hcw : opcodeOf i ∈ cwWriters := by obtain rfl | rfl := hi <;> decide
  have hlen (hD : 8 * s.capData.toNat ≤ s.params.bsBits) : bs.length = 8 * s.capData.toNat := by
    have hfit : 4 + s.params.lenWidth s.cfgVersion.toNat + 8 * (s.plBytes s.plLen.toNat).length ≤ 8 * s.capData.toNat := by
      rw [State.plBytes_length]; exact hL
    rw [dataStream_eq_assembledStream _ _ hD hfit] at hbs
    rw [← Except.ok.inj hbs, assembledStream_length _ _ hfit]
  refine .head (.generator s.capEc.toNat hgen fun ht _ => ht.spec.ec_fits hv) <|
    .head (.stream bs hstream fun ht _ => (hlen (ht.spec.data_fits hv)).le.trans (ht.spec.data_fits hv)) <|
    .head (.codewords 0 (streamBytes bs s.capData.toNat) hcw fun ht _ => ?_) <|
    .single (.codewords s.capData.toNat (rsRem (streamBytes bs s.capData.toNat) s.capEc.toNat) hcw fun ht _ => ?_)
  · rw [streamBytes_length, Nat.zero_add]
    exact (Nat.le_add_right _ _).trans (ht.codewords_fit hv)
  · rw [rsRem_length]
    exact ht.codewords_fit hv

/-- The build of ENCODE makes the writes of the five phases in turn (45_matrix.md R200, 46_assembly.md R246). -/
theorem buildGrid : Makes .encode s s.buildGrid := by
  refine seq (allocGrid (by decide)) fun a ha => seq (fun u hu => ?_) fun b hb => placeCodewords (by decide) ?_
  · obtain ⟨-, rfl⟩ := allocGrid_eq_ok.mp ha
    exact .head (.finder (by decide) rfl) <| .head (.align (by decide) rfl) <| .head (.timing (by decide) rfl) <|
      stampFormat (by decide) rfl u hu
  · obtain ⟨-, rfl⟩ := stampFormat_eq_ok.mp hb
    rfl

end Makes

/-- A command whose pseudocode is a run of writes ends in them and the report of success, or fails (R272, R273). -/
theorem complete_changes {i : Instr} {s t : State} {r : Except Raise State} (h : complete s r = .next t)
    (hr : Makes i s r) : (∃ u, Changes i s u ∧ t = u.succeed) ∨ ∃ e x, t = s.failed e x := by
  obtain ⟨u, hu, rfl⟩ | ⟨e, -, rfl⟩ := complete_eq_next.mp h
  · exact .inl ⟨u, hr u hu, rfl⟩
  · exact .inr ⟨e.kind, e.info, rfl⟩

/-- Everything a command can do: a run of its writes and the report of success, or the report of an error. -/
theorem exec_changes {i : Instr} {s t : State} (h : exec i s = .next t) :
    (∃ u, Changes i s u ∧ t = u.succeed) ∨ ∃ e x, t = s.failed e x := by
  cases i
  case nop => exact complete_changes (r := .ok _) h (.ok .refl)
  case cfgMask m => exact complete_changes (r := .ok _) h (.one (.mask m (by simp [opcodeOf, registerWriters])))
  case clrSticky => exact complete_changes (r := .ok _) h (.one (.sticky rfl))
  case bsClear => exact complete_changes (r := .ok _) h (.one (.noStream rfl))
  case bsLen | gfMul | gfExp | fmtEnc =>
    exact complete_changes (r := .ok _) h (.one (.result _ (by simp [opcodeOf, resultOps])))
  case cwRd | plRd | genRd | maskEval =>
    exact complete_changes h (.check fun _ => .one (.result _ (by simp [opcodeOf, resultOps])))
  case regRead | bsGet | gfLog =>
    refine complete_changes h ?_
    split
    · exact .error
    · exact .one (.result _ (by simp [opcodeOf, resultOps]))
  case mxRead =>
    exact complete_changes h (.check fun _ => .after fun _ _ => .one (.result _ (by simp [opcodeOf, resultOps])))
  case mxIsdark =>
    exact complete_changes h (.after fun _ _ => .after fun _ _ => .one (.result _ (by simp [opcodeOf, resultOps])))
  case mxSide => exact complete_changes h (.after fun _ _ => .one (.result _ (by decide)))
  case cfgSet =>
    refine complete_changes h ?_
    split
    · exact .error
    · exact .one (.configuration rfl ‹_›)
  case cwWr v a =>
    refine complete_changes h (.check fun hfit => .one (.codewords a [v] (by simp [opcodeOf, cwWriters]) fun _ _ => ?_))
    exact Nat.lt_of_not_le hfit
  case plWr v a =>
    exact complete_changes h (.check fun hfit => .one (.payload a v (by simp [opcodeOf, plWriters]) (Nat.lt_of_not_le hfit)))
  case plSetlen n =>
    exact complete_changes h (.check fun hfit =>
      .one (.payloadLength n (by simp [opcodeOf, registerWriters]) (Nat.le_of_not_lt hfit)))
  case bsPut =>
    refine complete_changes h (.check fun _ => ?_)
    split
    · exact .error
    · next bs hbs => exact .one (.stream bs (by simp [opcodeOf, bsWriters]) fun _ _ => (appendBits_length_le hbs).2)
  case bsPutbit =>
    refine complete_changes h ?_
    split
    · exact .error
    · next bs hbs => exact .one (.stream bs (by simp [opcodeOf, bsWriters]) fun _ _ => (appendBits_length_le hbs).2)
  case bsStore dst n =>
    refine complete_changes h (.check fun _ => .check fun hfit =>
      .one (.codewords dst (streamBytes s.bs n) (by simp [opcodeOf, cwWriters]) fun _ _ => ?_))
    rw [streamBytes_length]
    exact Nat.le_of_not_lt hfit
  case rsGen n =>
    refine complete_changes (r := .ok _) h (.one (.generator n (by simp [opcodeOf, genWriters]) fun _ hw => ?_))
    simpa [WellFormed, Instr.wellFormed, Nat.lt_succ_iff] using hw
  case rsEnc n src len dst =>
    refine complete_changes h (.check fun _ => .check fun hfit => .ok <|
      .head (.generator n (by simp [opcodeOf, genWriters]) fun _ hw => ?_) <|
      .single (.codewords dst (rsRem (s.cwBytes src len) n) (by simp [opcodeOf, cwWriters]) fun _ _ => ?_))
    · simp only [WellFormed, Instr.wellFormed, Bool.and_eq_true, decide_eq_true_eq] at hw
      omega
    · rw [rsRem_length]
      exact Nat.le_of_not_lt hfit
  case mxAlloc => exact complete_changes h (.allocGrid (by decide))
  case mxFinder => exact complete_changes h (.requirePhase fun hp => .one (.finder (by decide) hp))
  case mxAlign => exact complete_changes h (.requirePhase fun hp => .one (.align (by decide) hp))
  case mxTiming => exact complete_changes h (.requirePhase fun hp => .one (.timing (by decide) hp))
  case mxFormat => exact complete_changes h (.requirePhase fun hp => .stampFormat (by decide) hp)
  case mxPlace =>
    exact complete_changes h (.requirePhase fun hp => .placeCodewords (by simp [opcodeOf, registerWriters]) hp)
  case assemble =>
    exact complete_changes h ((Makes.assembleCodewords (.inl rfl)).seq fun _ _ => .one (.result _ (by decide)))
  case encode =>
    exact complete_changes h ((Makes.assembleCodewords (.inr rfl)).seq fun _ _ => Makes.buildGrid.seq fun _ _ =>
      .one (.result _ (by decide)))

/-- A preorder of states that every write of a command respects holds across a run of them. -/
theorem Changes.related {i : Instr} {s u : State} {R : State → State → Prop} (hrefl : ∀ a, R a a)
    (htrans : ∀ a b c, R a b → R b c → R a c) (hchange : ∀ a b, Change i a b → R a b) (h : Changes i s u) : R s u := by
  induction h with
  | refl => exact hrefl s
  | tail _ hb ih => exact htrans _ _ _ ih (hchange _ _ hb)

/-- Such a preorder holds across the whole command when both of its reports respect it too. -/
theorem exec_related {i : Instr} {s t : State} {R : State → State → Prop} (hrefl : ∀ a, R a a)
    (htrans : ∀ a b c, R a b → R b c → R a c) (hchange : ∀ a b, Change i a b → R a b) (hsucceed : ∀ u, R u u.succeed)
    (hfailed : ∀ e x, R s (s.failed e x)) (h : exec i s = .next t) : R s t := by
  obtain ⟨u, hu, rfl⟩ | ⟨e, x, rfl⟩ := exec_changes h
  · exact htrans _ _ _ (Changes.related hrefl htrans hchange hu) (hsucceed u)
  · exact hfailed e x

/-- A view of the state that no write of a command changes, and no report, is the same after the command. -/
theorem exec_keeps {i : Instr} {s t : State} {α : Type} (view : State → α)
    (hchange : ∀ a b, Change i a b → view b = view a) (hsucceed : ∀ u, view u.succeed = view u)
    (hfailed : ∀ e x, view (s.failed e x) = view s) (h : exec i s = .next t) : view t = view s :=
  exec_related (R := fun a b => view b = view a) (fun _ => rfl) (fun _ _ _ hab hbc => hbc.trans hab) hchange hsucceed
    hfailed h

end Sys2Proof.Machine
end

section
/-! SUPPORT. The invariant of the machine: the reset state meets it, and every write, every report and every step keeps it
(10_state.md R50, R51, 45_matrix.md R217). -/

namespace Sys2Proof.Machine

/-! ### Decoded commands are well-formed (30_encoding.md R81, R84) -/

theorem opTable_build_wellFormed : ∀ row ∈ opTable, ∀ f, WellFormed (row.build f) := by
  have hlt (n : Nat) (v : BitVec n) : v.toNat < 2 ^ n := v.isLt
  simp only [opTable, opRowsControl, opRowsPacker, opRowsCoding, opRowsMatrix, List.forall_mem_append,
    List.forall_mem_cons, List.not_mem_nil, false_implies, implies_true, WellFormed, Instr.wellFormed, hlt, decide_true,
    Bool.and_self, and_self]

theorem decode_wellFormed {w : CommandWord} {i : Instr} (h : decode w = .ok i) : WellFormed i := by
  obtain ⟨row, hrow, -, -, rfl⟩ := decode_eq_ok h
  exact opTable_build_wellFormed row hrow (fieldsOf w)

/-! ### Reset -/

/-- The values of reset meet the invariant on every legal device (R50, 70_reset_and_hazards.md R300). -/
theorem State.reset_inv (port : List HostEvent) (tables : Tables) {params : Params} (draw : Nat) (hp : params.Legal) :
    { State.reset with port := port, tables := tables, params := params, draw := draw }.Inv where
  spec :=
    { phase_configured := fun (h : 1 ≤ Phase.none.code.toNat) => absurd h (by decide)
      one_block := nofun
      ec_le_total := nofun
      total_fits := nofun
      ec_fits := nofun
      data_fits := nofun
      version_range := nofun
      side_value := nofun
      ready_iff := State.status_ready _
      finished := nofun
      mask_range := Nat.zero_le _
      stream_fits := Nat.zero_le _
      payload_fits := Nat.zero_le _
      gen_head := rfl }
  holds :=
    { params_legal := hp
      data_value := nofun
      entry := nofun
      unconfigured := fun _ => ⟨rfl, rfl, rfl, rfl, rfl, rfl, rfl⟩
      gen_wf := rfl
      cw_wf := rfl
      pl_wf := rfl
      gen_range := show ∀ p ∈ [((0 : Nat), 0x01#8)], p.1 < 256 by decide
      cw_range := nofun
      pl_range := nofun
      grid_none := fun _ => rfl
      grid_size := fun h => absurd rfl h
      error_sticky := fun h => absurd rfl h
      success_info := fun _ => rfl }
  build :=
    { fresh := nofun
      separators := fun (h : 2 ≤ Phase.none.code.toNat) => absurd h (by decide)
      timing_column := fun (h : 4 ≤ Phase.none.code.toNat) => absurd h (by decide) }

/-- Settles O19: the reset state is the reset of the default device. -/
theorem resetMeetsInvariant : Obligations.ResetMeetsInvariant :=
  State.reset_inv [] Config.exampleTables 0 (by decide)

/-! ### Column 6 of the grid (45_matrix.md R217) -/

section
variable {N : Nat} {grid : List GridCell} (hg : grid.length = N * N) (hN : 21 ≤ N)
include hg hN

/-- The finder phase sets column 6 at the separators. -/
theorem stampAll_finder_separators {r : Nat} (hr : r < N) (hsep : r ≤ 7 ∨ N ≤ r + 8) :
    cellAt N (stampAll N grid (finderStamps N)) r 6 ≠ .unset := by
  obtain htop | hbottom := hsep
  · refine stampAll_sets hg (st := ⟨0 + (r : Int), 0 + 6, finderDark r 6⟩) ?_ hr (by omega) (by simp) (by simp)
    simp only [finderStamps, List.mem_append, mem_finderStampsAt]
    exact .inl (.inl ⟨r, 6, by omega, by omega, by omega, by omega, rfl⟩)
  · refine stampAll_sets hg (st := ⟨(N : Int) - 7 + (r + 7 - N), 0 + 6, finderDark (r + 7 - N) 6⟩) ?_ hr (by omega)
      (by simp only []; omega) (by simp)
    simp only [finderStamps, List.mem_append, mem_finderStampsAt]
    exact .inr ⟨r + 7 - N, 6, by omega, by omega, by omega, by omega, rfl⟩

/-- The timing phase sets the rest of column 6. -/
theorem stampAll_timing_column (hsep : ∀ r, r < N → r ≤ 7 ∨ N ≤ r + 8 → cellAt N grid r 6 ≠ .unset) {r : Nat} (hr : r < N) :
    cellAt N (stampAll N grid (timingStamps N)) r 6 ≠ .unset := by
  by_cases hmid : 8 ≤ r ∧ r + 9 ≤ N
  · exact stampAll_sets hg (mem_timingStamps.mpr ⟨r, hmid.1, hmid.2, .inr rfl⟩) hr (by omega) rfl rfl
  · have hset := hsep r hr (by omega)
    rw [stampAll_keeps hg _ hr (by omega) hset]
    exact hset

end

theorem Phase.one_le_code {p : Phase} (h : p ≠ .none) : 1 ≤ p.code.toNat := by
  revert h; cases p <;> decide

/-! ### Reports and writes -/

namespace State.Inv

variable {s : State}

theorem succeed (h : s.Inv) : s.succeed.Inv where
  spec := { h.spec with ready_iff := State.status_ready _ }
  holds := { h.holds with error_sticky := fun he => absurd rfl he, success_info := fun _ => rfl }
  build := { h.build with }

theorem failed (h : s.Inv) (e : ErrorKind) (x : Nat) : (s.failed e x).Inv where
  spec := { h.spec with ready_iff := State.status_ready _ }
  holds := { h.holds with error_sticky := fun _ => rfl, success_info := nofun }
  build := { h.build with }

/-- A side that a configuration gives is at least 21 (10_state.md R33). -/
theorem sideN_ge (h : s.Inv) (hv : s.cfgValid = true) : 21 ≤ s.sideN := by
  have hside : s.sideN = 4 * s.cfgVersion.toNat + 17 := h.spec.side_value hv
  have hversion := (h.spec.version_range hv).1
  omega

/-- Under the constraints of 00_scope.md R9 every register of a usable entry holds its value whole, so CFG_SET keeps the
invariant (40_control.md R111, R112). -/
theorem configure (h : s.Inv) {ver : Nat} {ecl : BitVec 2} {e : CapEntry}
    (he : cfgLookup s.params s.tables ver ecl = some e) : (s.configure ver ecl e).Inv := by
  obtain ⟨hver, hmax, hcap, hblocks, hec, htotal, hgen, hdata⟩ := cfgLookup_eq_some.mp he
  obtain ⟨-, hmax40, hcwBytes, -, -, -⟩ := h.holds.params_legal
  have hwhole {w n : Nat} (hn : n < 2 ^ w) : (BitVec.ofNat w n).toNat = n := by
    rw [BitVec.toNat_ofNat, Nat.mod_eq_of_lt hn]
  have hver' : (BitVec.ofNat 8 ver).toNat = ver := hwhole (by omega)
  have hside' : (BitVec.ofNat 8 (4 * ver + 17)).toNat = 4 * ver + 17 := hwhole (by omega)
  have htotal' : (BitVec.ofNat 32 e.total).toNat = e.total := hwhole (by omega)
  have hec' : (BitVec.ofNat 32 e.ec).toNat = e.ec := hwhole (by omega)
  have hblocks' : (BitVec.ofNat 32 e.blocks).toNat = e.blocks := hwhole (by omega)
  have hdata' : (BitVec.ofNat 32 (e.total - e.ec)).toNat = e.total - e.ec := hwhole (by omega)
  exact
    { spec :=
        { h.spec with
          phase_configured := fun _ => rfl
          one_block := fun _ => by simp [hblocks]
          ec_le_total := fun _ => by simpa [hec', htotal'] using hec
          total_fits := fun _ => by simpa [htotal'] using htotal
          ec_fits := fun _ => by simpa [hec'] using hgen
          data_fits := fun _ => by simpa [hdata'] using hdata
          version_range := fun _ => by simpa [hver'] using ⟨hver, hmax⟩
          side_value := fun _ => by simp [hver', hside']
          ready_iff := State.status_ready _
          finished := nofun }
      holds :=
        { h.holds with
          data_value := fun _ => by simp [hdata', htotal', hec']
          entry := fun _ => by simpa [hver', htotal', hec', hblocks'] using hcap
          unconfigured := nofun
          grid_none := fun _ => rfl
          grid_size := fun hp => absurd rfl hp }
      build :=
        { fresh := nofun
          separators := fun (hp : 2 ≤ Phase.none.code.toNat) => absurd hp (by decide)
          timing_column := fun (hp : 4 ≤ Phase.none.code.toNat) => absurd hp (by decide) } }

/-! ### The grid -/

/-- A grid of the right size keeps the invariant in a phase whose progress it has made. -/
theorem withGrid (h : s.Inv) (hv : s.cfgValid = true) (p : Phase) (grid : List GridCell) (m : BitVec 3) (cells bits : Word)
    (hp : p ≠ .none) (hlen : grid.length = s.sideN * s.sideN)
    (hfresh : p = .allocated → ∀ r c, cellAt s.sideN grid r c = .unset)
    (hsep : 2 ≤ p.code.toNat → ∀ r, r < s.sideN → r ≤ 7 ∨ s.sideN ≤ r + 8 → cellAt s.sideN grid r 6 ≠ .unset)
    (hcol : 4 ≤ p.code.toNat → ∀ r, r < s.sideN → cellAt s.sideN grid r 6 ≠ .unset)
    (hdone : p = .done → ∀ r c, r < s.sideN → c < s.sideN → cellAt s.sideN grid r c ≠ .unset) :
    { s with grid := grid, phase := p, buildMask := m, placeCells := cells, placeBits := bits }.Inv where
  spec :=
    { h.spec with
      phase_configured := fun _ => hv
      ready_iff := State.status_ready _
      finished := hdone
      mask_range := Nat.le_of_lt_succ m.isLt }
  holds := { h.holds with grid_none := fun hnone => absurd hnone hp, grid_size := fun _ => hlen }
  build := { fresh := hfresh, separators := hsep, timing_column := hcol }

/-- Where a grid is allocated, a configuration gives its side, and the grid has that side. -/
theorem allocated (h : s.Inv) {p : Phase} (hp : s.phase = p) (hne : p ≠ .none) :
    s.cfgValid = true ∧ 21 ≤ s.sideN ∧ s.grid.length = s.sideN * s.sideN := by
  subst hp
  have hv : s.cfgValid = true := h.spec.phase_configured (Phase.one_le_code hne)
  exact ⟨hv, h.sideN_ge hv, h.holds.grid_size hne⟩

theorem freshGrid (h : s.Inv) (hv : s.cfgValid = true) :
    { s with grid := List.replicate (s.sideN * s.sideN) .unset, phase := .allocated }.Inv := by
  refine h.withGrid hv .allocated (List.replicate (s.sideN * s.sideN) .unset) s.buildMask s.placeCells s.placeBits
    (by decide) List.length_replicate (fun _ r c => ?_) (fun h => absurd h (by decide)) (fun h => absurd h (by decide)) nofun
  rw [cellAt, List.getD_eq_getElem?_getD, List.getElem?_replicate]
  split <;> rfl

/-- The grid is named by an equation, since the unifier would otherwise evaluate its literal list of stamps. -/
theorem finder (h : s.Inv) (hp : s.phase = .allocated) {grid : List GridCell}
    (hgrid : stampAll s.sideN s.grid (finderStamps s.sideN) = grid) :
    { s with grid := grid, phase := .finderDone }.Inv := by
  obtain ⟨hv, hN, hg⟩ := h.allocated hp (by decide)
  have hlen := (stampAll_length s.sideN s.grid (finderStamps s.sideN)).trans hg
  have hset {r : Nat} := stampAll_finder_separators hg hN (r := r)
  rw [hgrid] at hlen hset
  exact h.withGrid hv .finderDone grid s.buildMask s.placeCells s.placeBits (by decide) hlen nofun
    (fun _ r hr hsep => hset hr hsep) (fun h => absurd h (by decide)) nofun

theorem align (h : s.Inv) (hp : s.phase = .finderDone) : s.stampAlign.Inv := by
  obtain ⟨hv, hN, hg⟩ := h.allocated hp (by decide)
  have hlen := (alignCenters_fold_length s.sideN (alignCenters (alignAt s.tables s.cfgVersion.toNat)) s.grid).trans hg
  refine h.withGrid hv .alignDone s.stampAlign.grid s.buildMask s.placeCells s.placeBits (by decide) hlen nofun
    (fun _ r hr hsep => ?_) (fun h => absurd h (by decide)) nofun
  have hset := h.build.separators (hp ▸ show 2 ≤ Phase.finderDone.code.toNat by decide) r hr hsep
  exact (alignCenters_fold_keeps _ hg hr (by omega) hset).trans_ne hset

theorem timing (h : s.Inv) (hp : s.phase = .alignDone) : s.stampTiming.Inv := by
  obtain ⟨hv, hN, hg⟩ := h.allocated hp (by decide)
  have hset {r : Nat} := stampAll_timing_column hg hN
    (h.build.separators (hp ▸ show 2 ≤ Phase.alignDone.code.toNat by decide)) (r := r)
  exact h.withGrid hv .timingDone s.stampTiming.grid s.buildMask s.placeCells s.placeBits (by decide)
    ((stampAll_length _ _ _).trans hg) nofun (fun _ r hr _ => hset hr) (fun _ r hr => hset hr) nofun

theorem format (h : s.Inv) (hp : s.phase = .timingDone) (m : BitVec 3) (stamps : List Stamp) :
    { s with buildMask := m, grid := stampAll s.sideN s.grid stamps, phase := .formatDone }.Inv := by
  obtain ⟨hv, hN, hg⟩ := h.allocated hp (by decide)
  have hset {r : Nat} (hr : r < s.sideN) : cellAt s.sideN (stampAll s.sideN s.grid stamps) r 6 ≠ .unset := by
    have hset := h.build.timing_column (hp ▸ show 4 ≤ Phase.timingDone.code.toNat by decide) r hr
    exact (stampAll_keeps hg stamps hr (by omega) hset).trans_ne hset
  exact h.withGrid hv .formatDone (stampAll s.sideN s.grid stamps) m s.placeCells s.placeBits (by decide)
    ((stampAll_length _ _ _).trans hg) nofun (fun _ r hr _ => hset hr) (fun _ r hr => hset hr) nofun

theorem data (h : s.Inv) (hp : s.phase = .formatDone) {grid : List GridCell} (cells bits : Word)
    (hlen : grid.length = s.grid.length) (hfull : grid.count .unset = 0) :
    { s with grid := grid, placeCells := cells, placeBits := bits, phase := .done }.Inv := by
  obtain ⟨hv, hN, hg⟩ := h.allocated hp (by decide)
  have hset := (count_unset_eq_zero (hlen.trans hg)).mp hfull
  exact h.withGrid hv .done grid s.buildMask cells bits (by decide) (hlen.trans hg) nofun
    (fun _ r hr _ => hset r 6 hr (by omega)) (fun _ r hr => hset r 6 hr (by omega)) (fun _ => hset)

/-! ### The storage arrays -/

theorem codewords (h : s.Inv) {a : Nat} {bytes : List Byte} (hfit : a + bytes.length ≤ s.params.cwBytes) :
    { s with cw := s.cw.writeBytes a bytes }.Inv where
  spec := { h.spec with }
  holds :=
    { h.holds with
      cw_wf := Memory.wf_writeBytes h.holds.cw_wf a bytes
      cw_range := Memory.writeBytes_range h.holds.cw_range bytes hfit }
  build := { h.build with }

theorem payload (h : s.Inv) {a : Nat} (v : Byte) (hfit : a < s.params.plBytes) : { s with pl := s.pl.write a v }.Inv where
  spec := { h.spec with }
  holds :=
    { h.holds with
      pl_wf := Memory.wf_write h.holds.pl_wf a v
      pl_range := Memory.write_range h.holds.pl_range hfit v }
  build := { h.build with }

theorem loadGenerator (h : s.Inv) {n : Nat} (hfit : n ≤ 255) : (s.loadGenerator n).Inv where
  spec := { h.spec with gen_head := s.loadGenerator_genByte_zero n }
  holds :=
    { h.holds with
      gen_wf := State.loadGenerator_wf h.holds.gen_wf n
      gen_range := Memory.writeBytes_range h.holds.gen_range _ (by rw [genPoly_length]; omega) }
  build := { h.build with }

end State.Inv

/-- Every write keeps the invariant, the report aside. -/
theorem Change.keepsInv {i : Instr} {s t : State} (hw : WellFormed i) (h : Change i s t) (hs : s.succeed.Inv) :
    t.succeed.Inv := by
  cases h
  case result | mask | sticky =>
    exact ⟨{ hs.spec with ready_iff := State.status_ready _ },
      { hs.holds with error_sticky := fun he => absurd rfl he }, { hs.build with }⟩
  case configuration he => exact hs.configure he
  case codewords hfit => exact hs.codewords (hfit hs hw)
  case payload v _ hfit => exact hs.payload v hfit
  case payloadLength n _ hfit =>
    exact ⟨{ hs.spec with payload_fits := (Nat.mod_le n (2 ^ 16)).trans hfit }, { hs.holds with }, { hs.build with }⟩
  case noStream => exact ⟨{ hs.spec with stream_fits := Nat.zero_le _ }, { hs.holds with }, { hs.build with }⟩
  case stream hfit => exact ⟨{ hs.spec with stream_fits := hfit hs hw }, { hs.holds with }, { hs.build with }⟩
  case generator hfit => exact hs.loadGenerator (hfit hs hw)
  case freshGrid hv => exact hs.freshGrid hv
  case finder hp =>
    rw [State.stampFinder]
    generalize hgrid : stampAll s.sideN s.grid (finderStamps s.sideN) = grid
    exact hs.finder hp hgrid
  case align hp => exact hs.align hp
  case timing hp => exact hs.timing hp
  case format m stamps _ hp => exact hs.format hp m stamps
  case data cells bits _ hp hlen hfull => exact hs.data hp cells bits hlen hfull

/-- Every well-formed command keeps the invariant, whichever way it ends. -/
theorem exec_inv {i : Instr} {s t : State} (hw : WellFormed i) (hs : s.Inv) (h : exec i s = .next t) : t.Inv := by
  obtain ⟨u, hu, rfl⟩ | ⟨e, x, rfl⟩ := exec_changes h
  · exact Changes.related (R := fun a b => a.succeed.Inv → b.succeed.Inv) (fun _ => id) (fun _ _ _ hab hbc => hbc ∘ hab)
      (fun _ _ => Change.keepsInv hw) hu hs.succeed
  · exact hs.failed e x

theorem runWord_inv {w : CommandWord} {s t : State} (hs : s.Inv) (h : runWord w s = .next t) : t.Inv := by
  unfold runWord at h
  split at h
  · exact exec_inv (decode_wellFormed ‹_›) hs h
  · cases h; exact hs.failed _ _

/-- Settles O20: a word keeps the invariant, and a reset event establishes it anew. -/
theorem stepKeepsInvariant : Obligations.StepKeepsInvariant := by
  unfold Obligations.StepKeepsInvariant
  intro s t hs h
  have htaken (rest : List HostEvent) : { s with port := rest }.Inv :=
    ⟨{ hs.spec with }, { hs.holds with }, { hs.build with }⟩
  have hreset (rest : List HostEvent) : (State.afterReset { s with port := rest }).Inv :=
    State.reset_inv rest s.tables (s.draw + 1) hs.holds.params_legal
  unfold step at h
  split at h
  · cases h; exact hs
  · exact runWord_inv (htaken _) h
  · cases h; exact hreset _
  · cases h; exact hreset _

end Sys2Proof.Machine
end

section
/-! SUPPORT. What the commands leave alone: each register and each array is kept by every write outside its writers
(10_state.md R24, R27, R28, R42). -/

namespace Sys2Proof.Machine

/-- What CFG_SET writes: CFG_VALID, CFG_VERSION, CFG_ECL, CAP_* and SIDE (R28, R31, R33). -/
structure Configuration where
  valid   : Bool
  version : BitVec 8
  ecl     : BitVec 2
  total   : Word
  ec      : Word
  blocks  : Word
  data    : Word
  side    : BitVec 8

def State.configuration (s : State) : Configuration :=
  ⟨s.cfgValid, s.cfgVersion, s.cfgEcl, s.capTotal, s.capEc, s.capBlocks, s.capData, s.side⟩

theorem ne_cfgSet_of_opcode {i : Instr} (hi : opcodeOf i ∉ registerWriters 3) (ecl : BitVec 2) (ver : Nat) :
    i ≠ .cfgSet ecl ver := by
  rintro rfl; exact hi (by simp [opcodeOf, registerWriters])

/-! ### One write -/

namespace Change

variable {i : Instr} {s t : State} (h : Change i s t)
include h

theorem configuration_eq (hi : ∀ ecl ver, i ≠ .cfgSet ecl ver) : t.configuration = s.configuration := by
  cases h
  case configuration hset _ => exact absurd hset (hi _ _)
  all_goals rfl

theorem sticky_eq (hi : i ≠ .clrSticky) : t.sticky = s.sticky := by
  cases h
  case sticky hclr => exact absurd hclr hi
  all_goals rfl

theorem result_eq (hi : opcodeOf i ∉ registerWriters 1) : t.result = s.result := by
  cases h
  case result hop => exact absurd hop hi
  all_goals rfl

theorem cfgMask_eq (hi : opcodeOf i ∉ registerWriters 5) : t.cfgMask = s.cfgMask := by
  cases h
  case mask hop => exact absurd hop hi
  all_goals rfl

theorem bs_eq (hi : opcodeOf i ∉ registerWriters 11) : t.bs = s.bs := by
  have hstream : bsWriters ⊆ registerWriters 11 := by decide
  cases h
  case stream hop _ => exact absurd (hstream hop) hi
  case noStream hclear => exact absurd (hclear ▸ by decide) hi
  all_goals rfl

theorem plLen_eq (hi : opcodeOf i ∉ registerWriters 12) : t.plLen = s.plLen := by
  cases h
  case payloadLength hop _ => exact absurd hop hi
  all_goals rfl

theorem genDeg_eq (hi : opcodeOf i ∉ genWriters) : t.genDeg = s.genDeg := by
  cases h
  case generator hop _ => exact absurd hop hi
  all_goals rfl

theorem buildMask_eq (hi : opcodeOf i ∉ registerWriters 14) : t.buildMask = s.buildMask := by
  cases h
  case format hop _ => exact absurd hop hi
  all_goals rfl

theorem place_eq (hi : opcodeOf i ∉ registerWriters 15) : t.placeCells = s.placeCells ∧ t.placeBits = s.placeBits := by
  cases h
  case data hop _ _ _ => exact absurd hop hi
  all_goals exact ⟨rfl, rfl⟩

/-- A write changes no register outside the rows of R24 that list its command. -/
theorem readReg_eq {n : Nat} (hn : n ≤ 17) (h0 : n ≠ 0) (h2 : n ≠ 2) (hw : opcodeOf i ∉ registerWriters n) :
    t.readReg n = s.readReg n := by
  match n, h0, h2, hw with
  | 0, h0, _, _ => exact absurd rfl h0
  | 1, _, _, hw => exact congrArg some (h.result_eq hw)
  | 2, _, h2, _ => exact absurd rfl h2
  | 3, _, _, hw | 4, _, _, hw | 6, _, _, hw | 7, _, _, hw | 8, _, _, hw | 9, _, _, hw | 10, _, _, hw =>
    have hc := h.configuration_eq (ne_cfgSet_of_opcode hw)
    simp only [State.configuration, Configuration.mk.injEq] at hc
    simp only [State.readReg, hc]
  | 5, _, _, hw => simp only [State.readReg, h.cfgMask_eq hw]
  | 11, _, _, hw => simp only [State.readReg, State.bsLen, h.bs_eq hw]
  | 12, _, _, hw => simp only [State.readReg, h.plLen_eq hw]
  | 13, _, _, hw => simp only [State.readReg, h.genDeg_eq hw]
  | 14, _, _, hw => simp only [State.readReg, h.buildMask_eq hw]
  | 15, _, _, hw => exact congrArg some (h.place_eq hw).1
  | 16, _, _, hw => exact congrArg some (h.place_eq hw).2
  | 17, _, _, _ => rfl
  | _ + 18, _, _, _ => omega

theorem genByte_eq (hi : opcodeOf i ∉ genWriters) (k : Nat) : t.genByte k = s.genByte k := by
  cases h
  case generator hop _ => exact absurd hop hi
  all_goals rfl

theorem cwByte_eq (hi : opcodeOf i ∉ cwWriters) (a : Nat) : t.cwByte a = s.cwByte a := by
  cases h
  case codewords hop _ => exact absurd hop hi
  all_goals rfl

theorem plByte_eq (hi : opcodeOf i ∉ plWriters) (a : Nat) : t.plByte a = s.plByte a := by
  cases h
  case payload hop _ => exact absurd hop hi
  all_goals rfl

/-- Outside its writers the stream is kept, or emptied by BS_CLEAR. -/
theorem bs_prefix (hi : opcodeOf i ∉ bsWriters) : t.bs <+: s.bs := by
  cases h
  case stream hop _ => exact absurd hop hi
  case noStream => exact List.nil_prefix
  all_goals exact List.prefix_rfl

/-- Outside its writers a grid that is still allocated was so before, and is kept. -/
theorem grid_kept (hi : opcodeOf i ∉ gridWriters) (hp : t.phase ≠ .none) : s.phase ≠ .none ∧ t.grid = s.grid := by
  have hformat : registerWriters 14 ⊆ gridWriters := by decide
  have hdata : registerWriters 15 ⊆ gridWriters := by decide
  cases h
  case freshGrid hop _ | finder hop _ | align hop _ | timing hop _ => exact absurd hop hi
  case format hop _ => exact absurd (hformat hop) hi
  case data hop _ _ _ => exact absurd (hdata hop) hi
  case configuration => exact absurd rfl hp
  all_goals exact ⟨hp, rfl⟩

theorem cfgValid_rises (hs : s.cfgValid = true) : t.cfgValid = true := by
  cases h
  case configuration => rfl
  all_goals exact hs

end Change

/-! ### One command -/

/-- The error report is read in registers 0 and 2 only. -/
theorem State.readReg_report (s : State) (e : Option ErrorKind) (x : Word) (k : Bool) {n : Nat} (h0 : n ≠ 0) (h2 : n ≠ 2) :
    { s with err := e, errInfo := x, sticky := k }.readReg n = s.readReg n := by
  match n, h0, h2 with
  | 0, h0, _ => exact absurd rfl h0
  | 2, _, h2 => exact absurd rfl h2
  | 1, _, _ | 3, _, _ | 4, _, _ | 5, _, _ | 6, _, _ | 7, _, _ | 8, _, _ | 9, _, _ | 10, _, _ | 11, _, _ | 12, _, _
  | 13, _, _ | 14, _, _ | 15, _, _ | 16, _, _ | 17, _, _ | _ + 18, _, _ => rfl

/-- Settles O14: each register is kept by every write outside its row of R24. -/
theorem registersChangeOnlyByTheirWriters : Obligations.RegistersChangeOnlyByTheirWriters := by
  unfold Obligations.RegistersChangeOnlyByTheirWriters
  intro i s t n h hn h0 h2 hw
  exact exec_keeps (fun s => s.readReg n) (fun _ _ hc => hc.readReg_eq hn h0 h2 hw)
    (fun u => u.readReg_report none 0#32 u.sticky h0 h2) (fun e x => s.readReg_report (some e) (BitVec.ofNat 32 x) true h0 h2) h

/-- Settles O15: each array is kept by every write outside its row of R42. -/
theorem arraysChangeOnlyByTheirWriters : Obligations.ArraysChangeOnlyByTheirWriters := by
  unfold Obligations.ArraysChangeOnlyByTheirWriters
  intro i s t h
  refine ⟨fun hi k => ?_, fun hi k hk => ?_, fun hi a => ?_, fun hi a => ?_, fun hi hphase => ?_⟩
  · exact exec_keeps (fun s => s.genByte k) (fun _ _ hc => hc.genByte_eq hi k) (fun _ => rfl) (fun _ _ => rfl) h
  · have hprefix : t.bs <+: s.bs := exec_related (R := fun a b => b.bs <+: a.bs) (fun _ => List.prefix_rfl)
      (fun _ _ _ hab hbc => hbc.trans hab) (fun _ _ hc => hc.bs_prefix hi) (fun _ => List.prefix_rfl)
      (fun _ _ => List.prefix_rfl) h
    rw [List.prefix_iff_getElem?.mp hprefix k hk, List.getElem?_eq_getElem hk]
  · exact exec_keeps (fun s => s.cwByte a) (fun _ _ hc => hc.cwByte_eq hi a) (fun _ => rfl) (fun _ _ => rfl) h
  · exact exec_keeps (fun s => s.plByte a) (fun _ _ hc => hc.plByte_eq hi a) (fun _ => rfl) (fun _ _ => rfl) h
  · have hkept : t.phase ≠ .none → s.phase ≠ .none ∧ t.grid = s.grid :=
      exec_related (R := fun a b => b.phase ≠ .none → a.phase ≠ .none ∧ b.grid = a.grid) (fun _ hp => ⟨hp, rfl⟩)
        (fun _ _ _ hab hbc hc => ⟨(hab (hbc hc).1).1, (hbc hc).2.trans (hab (hbc hc).1).2⟩)
        (fun _ _ hc => hc.grid_kept hi) (fun _ hp => ⟨hp, rfl⟩) (fun _ _ hp => ⟨hp, rfl⟩) h
    exact (hkept hphase).2

/-- What a command does to STICKY: a failure sets it, a success keeps it, CLR_STICKY clears it (R27). -/
theorem exec_sticky {i : Instr} {s t : State} (h : exec i s = .next t) :
    (t.err ≠ none → t.sticky = true) ∧ (t.err = none → i ≠ .clrSticky → t.sticky = s.sticky) ∧
      (t.err = none → i = .clrSticky → t.sticky = false) := by
  refine ⟨fun herr => ?_, fun herr hi => ?_, fun _ hi => ?_⟩
  · obtain ⟨u, -, rfl⟩ | ⟨e, x, rfl⟩ := exec_changes h
    · exact absurd rfl herr
    · rfl
  · obtain ⟨u, hu, rfl⟩ | ⟨e, x, rfl⟩ := exec_changes h
    · exact Changes.related (R := fun a b => b.sticky = a.sticky) (fun _ => rfl) (fun _ _ _ hab hbc => hbc.trans hab)
        (fun _ _ hc => hc.sticky_eq hi) (u := u) hu
    · cases herr
  · subst hi; cases h; rfl

theorem runWord_sticky {w : CommandWord} {s t : State} (h : runWord w s = .next t) :
    (t.err ≠ none → t.sticky = true) ∧ (t.err = none → decode w ≠ .ok .clrSticky → t.sticky = s.sticky) ∧
      (t.err = none → decode w = .ok .clrSticky → t.sticky = false) := by
  unfold runWord at h
  split at h
  · next i hi =>
    rw [hi]
    simpa only [ne_eq, Except.ok.injEq] using exec_sticky h
  · cases h
    exact ⟨fun _ => rfl, nofun, nofun⟩

/-- Settles O13: a word that leaves STICKY at 0 succeeded, so it cleared it only as CLR_STICKY. -/
theorem stickyRecordsFailures : Obligations.StickyRecordsFailures := by
  unfold Obligations.StickyRecordsFailures
  refine ⟨fun w s t => runWord_sticky, fun s t h hs ht => ?_⟩
  unfold step at h
  split at h
  · cases h
    exact absurd (hs.symm.trans ht) (by decide)
  · next w rest hport =>
    refine .inl ⟨w, rest, hport, ?_⟩
    obtain ⟨hfail, hkeep, -⟩ := runWord_sticky h
    have herr : t.err = none := by
      by_contra herr
      exact absurd ((hfail herr).symm.trans ht) (by decide)
    by_contra hne
    exact absurd ((hkeep herr hne).symm.trans ht) (by simp [hs])
  · next rest hport => exact .inr (.inl ⟨rest, hport⟩)
  · next w rest hport => exact .inr (.inr ⟨w, rest, hport⟩)

/-- A CFG_SET that succeeds sets CFG_VALID (40_control.md R112). -/
theorem execCfgSet_cfgValid {ecl : BitVec 2} {ver : Nat} {s t : State} (h : execCfgSet ecl ver s = .next t)
    (herr : t.err = none) : t.cfgValid = true := by
  unfold execCfgSet at h
  split at h
  · cases h; cases herr
  · cases h; rfl

/-- Settles O16: CFG_SET alone writes the configuration; without one, the invariant gives its registers. -/
theorem cfgValidOnlyRises : Obligations.CfgValidOnlyRises := by
  unfold Obligations.CfgValidOnlyRises
  refine ⟨rfl, fun i s t h => ⟨?_, fun hs => ⟨fun ht => ⟨?_, ?_⟩, ?_⟩⟩, fun s hinv hs => ⟨?_, ?_⟩⟩
  · exact exec_related (R := fun a b => a.cfgValid = true → b.cfgValid = true) (fun _ => id)
      (fun _ _ _ hab hbc => hbc ∘ hab) (fun _ _ hc => hc.cfgValid_rises) (fun _ => id) (fun _ _ => id) h
  · by_contra hset
    have hkeep := exec_keeps State.configuration
      (fun _ _ hc => hc.configuration_eq fun ecl ver hi => hset ⟨ecl, ver, hi⟩) (fun _ => rfl) (fun _ _ => rfl) h
    exact absurd (hs.symm.trans ((congrArg Configuration.valid hkeep).symm.trans ht)) (by decide)
  · obtain ⟨u, -, rfl⟩ | ⟨e, x, rfl⟩ := exec_changes h
    · rfl
    · exact absurd (hs.symm.trans ht) (by decide)
  · rintro ⟨⟨ecl, ver, rfl⟩, herr⟩
    exact execCfgSet_cfgValid h herr
  · obtain ⟨hversion, hecl, htotal, hec, hblocks, hdata, hside⟩ := hinv.holds.unconfigured hs
    simp [State.readReg, hversion, hecl, htotal, hec, hblocks, hdata, hside]
  · simp [exec, execMxAlloc, execAssemble, execEncode, State.allocGrid, State.assembleCodewords, hs]

/-- Settles O7: registers are read off the reset state; GEN lists index 0 alone, CW and PL list nothing. -/
theorem resetStateIsAsSpecified : Obligations.ResetStateIsAsSpecified := by
  unfold Obligations.ResetStateIsAsSpecified
  refine ⟨by decide +kernel, rfl, rfl, fun k hk => ?_, rfl, fun _ => rfl, fun _ => rfl, fun _ _ => rfl⟩
  have hunwritten : State.reset.gen.read? k = none := if_neg (show ¬0 = k by omega)
  rw [State.genByte, hunwritten, Option.getD_none]

end Sys2Proof.Machine
end

section
/-! SUPPORT. The step that takes a command word, and the reading commands: what a read can do, and that it reads the same
again (20_memory.md R60, R75). -/

namespace Sys2Proof.Machine

/-! ### The next issued word (20_memory.md R60, 30_encoding.md R84) -/

theorem runWord_of_decode {w : CommandWord} {i : Instr} (h : decode w = .ok i) (s : State) : runWord w s = exec i s := by
  rw [runWord, h]

theorem step_of_command {s : State} {w : CommandWord} {rest : List HostEvent} (h : s.port = .command w :: rest) :
    step s = runWord w { s with port := rest } := by
  rw [step, h]

theorem step_of_idle {s : State} (h : s.port = []) : step s = .next s := by
  rw [step, h]

/-- A fetched 64-bit word stands first at the port, whole. -/
theorem State.withFetchWord_port (s : State) (w : CommandWord) :
    (s.withFetchWord 64 w.toNat).port = .command w :: s.port := by
  rw [State.withFetchWord, Nat.mod_eq_of_lt w.isLt, BitVec.ofNat_toNat, BitVec.setWidth_eq]

/-- Settles O6: the event at the head of the port decides the step. -/
theorem stepRunsDecodedCommand : Obligations.StepRunsDecodedCommand := by
  unfold Obligations.StepRunsDecodedCommand
  refine ⟨fun s w rest i hport hi => ?_, fun s w i hi => ?_, fun s => step_of_idle⟩
  · rw [step_of_command hport, runWord_of_decode hi]
  · rw [step_of_command (s.withFetchWord_port w), runWord_of_decode hi]
    rfl

/-! ### Two runs of a read -/

/-- The reading commands of R75: REG_READ, CW_RD, PL_RD, BS_LEN, BS_GET, GF_MUL, GF_EXP, GF_LOG, GEN_RD, MX_READ,
MX_ISDARK, MX_SIDE. -/
def readOps : List Byte :=
  [0x03#8, 0x09#8, 0x0B#8, 0x13#8, 0x14#8, 0x20#8, 0x21#8, 0x22#8, 0x31#8, 0x57#8, 0x58#8, 0x59#8]

/-- The state with another RESULT and another report: what a read may write. -/
def State.reported (s : State) (v : Word) (e : Option ErrorKind) (x : Word) (k : Bool) : State :=
  { s with result := v, err := e, errInfo := x, sticky := k }

/-- The pseudocodes of two runs of a read, from `s` and from `t`: both give RESULT the same value and write nothing else,
or both raise the same error. -/
inductive ReadsAlike (s t : State) : Except Raise State → Except Raise State → Prop
  | value (v : Word) : ReadsAlike s t (.ok (s.setResult v)) (.ok (t.setResult v))
  | error (e : Raise) : ReadsAlike s t (.error e) (.error e)

namespace ReadsAlike

variable {s t : State} {r r' q q' : Except Raise State}

theorem ite {p : Prop} [Decidable p] (h : ReadsAlike s t r r') (h' : ReadsAlike s t q q') :
    ReadsAlike s t (if p then r else q) (if p then r' else q') := by
  split
  · exact h
  · exact h'

/-- After a check that both runs make with the same outcome, the rest of the command decides. -/
theorem after {x : Except Raise Unit} {f f' : Unit → Except Raise State} (h : ReadsAlike s t (f ()) (f' ())) :
    ReadsAlike s t (x >>= f) (x >>= f') := by
  cases x with
  | ok => exact h
  | error e => exact .error e

/-- A read succeeds with RESULT alone written, or fails (60_exceptions.md R272, R273). -/
theorem ends {u : State} (h : ReadsAlike s t r r') (hs : complete s r = .next u) :
    (∃ v, u = (s.setResult v).succeed) ∨ ∃ e x, u = s.failed e x := by
  cases h <;> cases hs
  case value v => exact .inl ⟨v, rfl⟩
  case error e => exact .inr ⟨e.kind, e.info, rfl⟩

/-- A run alike from the state where the first one ended writes what that state holds already. -/
theorem again (h : ReadsAlike s t r r') (hs : complete s r = .next t) : complete t r' = .next t := by
  cases h <;> cases hs <;> rfl

end ReadsAlike

/-- A reading command runs alike from two states that differ in RESULT and the report alone; REG_READ does so if the
register it reads is the same in both. -/
theorem exec_readsAlike {i : Instr} (hi : opcodeOf i ∈ readOps) {s t : State} (hst : ∃ v e x k, t = s.reported v e x k)
    (hreg : ∀ n, i = .regRead n → t.readReg n = s.readReg n) :
    ∃ r r', exec i s = complete s r ∧ exec i t = complete t r' ∧ ReadsAlike s t r r' := by
  obtain ⟨v, e, x, k, rfl⟩ := hst
  cases i
  case bsLen | gfMul | gfExp => exact ⟨.ok _, .ok _, rfl, rfl, .value _⟩
  case cwRd | plRd | genRd => exact ⟨_, _, rfl, rfl, .ite (.error _) (.value _)⟩
  case mxRead => exact ⟨_, _, rfl, rfl, .ite (.error _) (.after (.value _))⟩
  case mxIsdark => exact ⟨_, _, rfl, rfl, .after (.after (.value _))⟩
  case mxSide => exact ⟨_, _, rfl, rfl, .after (.value _)⟩
  case regRead n =>
    refine ⟨_, _, rfl, rfl, ?_⟩
    rw [hreg n rfl]
    cases s.readReg n
    · exact .error _
    · exact .value _
  case bsGet n =>
    refine ⟨_, _, rfl, rfl, ?_⟩
    rw [show (s.reported v e x k).bs = s.bs from rfl]
    cases s.bs[n]?
    · exact .error _
    · exact .value _
  case gfLog a =>
    refine ⟨_, _, rfl, rfl, ?_⟩
    cases gfLog? a
    · exact .error _
    · exact .value _
  all_goals simp [opcodeOf, readOps] at hi

/-! ### One read, and the same read again -/

/-- Everything a reading command can do. -/
theorem exec_read_ends {i : Instr} (hi : opcodeOf i ∈ readOps) {s t : State} (h : exec i s = .next t) :
    (∃ v, t = (s.setResult v).succeed) ∨ ∃ e x, t = s.failed e x := by
  obtain ⟨r, r', hr, -, halike⟩ := exec_readsAlike hi ⟨s.result, s.err, s.errInfo, s.sticky, rfl⟩ fun _ _ => rfl
  exact halike.ends (hr.symm.trans h)

/-- A read leads to the same state again, if REG_READ still finds in its register what it read. -/
theorem exec_read_again {i : Instr} (hi : opcodeOf i ∈ readOps) {s t : State} (h : exec i s = .next t)
    (hreg : ∀ n, i = .regRead n → t.readReg n = s.readReg n) : exec i t = .next t := by
  have hst : ∃ v e x k, t = s.reported v e x k := by
    obtain ⟨v, rfl⟩ | ⟨e, x, rfl⟩ := exec_read_ends hi h
    · exact ⟨v, none, 0#32, s.sticky, rfl⟩
    · exact ⟨s.result, some e, BitVec.ofNat 32 x, true, rfl⟩
  obtain ⟨r, r', hr, hr', halike⟩ := exec_readsAlike hi hst hreg
  rw [hr', halike.again (hr.symm.trans h)]

/-- RESULT is read in register 1 only. -/
theorem State.readReg_setResult (s : State) (v : Word) {n : Nat} (h1 : n ≠ 1) : (s.setResult v).readReg n = s.readReg n := by
  match n, h1 with
  | 1, h1 => exact absurd rfl h1
  | 0, _ | 2, _ | 3, _ | 4, _ | 5, _ | 6, _ | 7, _ | 8, _ | 9, _ | 10, _ | 11, _ | 12, _ | 13, _ | 14, _ | 15, _ | 16, _
  | 17, _ | _ + 18, _ => rfl

/-- REG_READ leaves in its register what it read there, RESULT included, but for STATUS and ERR_INFO. -/
theorem exec_regRead_readReg {n : Nat} {s t : State} (h0 : n ≠ 0) (h2 : n ≠ 2) (h : exec (.regRead n) s = .next t) :
    t.readReg n = s.readReg n := by
  by_cases h1 : n = 1
  · subst h1; cases h; rfl
  · obtain ⟨v, rfl⟩ | ⟨e, x, rfl⟩ := exec_read_ends (by simp [opcodeOf, readOps]) h
    · exact ((s.setResult v).readReg_report none 0#32 s.sticky h0 h2).trans (s.readReg_setResult v h1)
    · exact s.readReg_report (some e) (BitVec.ofNat 32 x) true h0 h2

/-- Settles O18: a read writes RESULT and the report, on which no read but REG_READ depends. -/
theorem readsChangeNoStorage : Obligations.ReadsChangeNoStorage := by
  unfold Obligations.ReadsChangeNoStorage
  refine ⟨fun i s t hi h => ⟨fun herr => ?_, fun e herr => ?_, fun hne => ?_⟩, fun n s t h0 h2 h => ?_⟩
  · obtain ⟨v, rfl⟩ | ⟨e, x, rfl⟩ := exec_read_ends hi h
    · rfl
    · cases herr
  · obtain ⟨v, rfl⟩ | ⟨e', x, rfl⟩ := exec_read_ends hi h
    · cases herr
    · cases herr; exact ⟨x, rfl⟩
  · exact exec_read_again hi h fun n hn => absurd (hn ▸ rfl) hne
  · refine exec_read_again (by simp [opcodeOf, readOps]) h ?_
    rintro _ ⟨⟩
    exact exec_regRead_readReg h0 h2 h

end Sys2Proof.Machine
end

section
/-! SUPPORT. The opcode map as a bijection between accepted words and well-formed commands, and the assembler's mnemonics
(30_encoding.md R80 to R87). -/

namespace Sys2Proof

/-! ### Rows of the opcode map (R83) -/

/-- In a list whose keys differ, searching for a member's key finds the member. -/
theorem find?_key_eq_some {α β : Type} [BEq β] [LawfulBEq β] {key : α → β} {l : List α} (hl : (l.map key).Nodup) {a : α}
    (ha : a ∈ l) : l.find? (fun x => key x == key a) = some a := by
  have hsome : (l.find? fun x => key x == key a).isSome := List.find?_isSome.mpr ⟨a, ha, beq_self_eq_true (key a)⟩
  obtain ⟨x, hx⟩ := Option.isSome_iff_exists.mp hsome
  have hkey : key x = key a := by simpa using List.find?_some hx
  rw [hx, List.inj_on_of_nodup_map hl (List.mem_of_find?_eq_some hx) ha hkey]

theorem opRow?_eq_some {op : Byte} {row : OpRow} : opRow? op = some row ↔ row ∈ opTable ∧ row.op = op := by
  refine ⟨opRow?_spec, ?_⟩
  rintro ⟨hrow, rfl⟩
  exact find?_key_eq_some opTable_ops_distinct hrow

/-- The bits that the row does not use are zero in these operand fields (R81). -/
def OpRow.unusedZero (row : OpRow) (f : Fields) : Prop :=
  f.a &&& fieldA row.mask = 0#8 ∧ f.b &&& fieldB row.mask = 0#16 ∧ f.c &&& fieldC row.mask = 0#32

/-- A word decodes as a command exactly when it matches the row that builds the command (R84). -/
theorem decode_eq_ok_iff {w : CommandWord} {i : Instr} :
    decode w = .ok i ↔ ∃ row ∈ opTable, w &&& row.mask = row.fixed ∧ row.build (fieldsOf w) = i := by
  constructor
  · intro h
    obtain ⟨row, hrow, -, hmatch, rfl⟩ := decode_eq_ok h
    exact ⟨row, hrow, hmatch, rfl⟩
  · rintro ⟨row, hrow, hmatch, rfl⟩
    have hop := ((match_iff hrow w).mp hmatch).1
    simp [decode, opRow?_eq_some.mpr ⟨hrow, hop.symm⟩, hmatch]

/-! ### Operand fields and their unused bits (R81, R82) -/

/-- The bits from `n` up are zero exactly when the value is the extension of its lowest `n` bits. -/
theorem and_high_eq_zero_iff {w : Nat} (n : Nat) {m : BitVec w} (hm : m = BitVec.allOnes w <<< n) (x : BitVec w) :
    x &&& m = 0#w ↔ x = (x.extractLsb' 0 n).setWidth w := by
  subst hm
  simp only [BitVec.eq_of_getLsbD_eq_iff]
  refine forall₂_congr fun i hi => ?_
  by_cases h : i < n
  · simp [h, hi]
  · simp [h, hi, Nat.le_of_not_lt h]

/-- CH and CL make up C (R80). -/
theorem Fields.ch_append_cl (f : Fields) : f.ch ++ f.cl = f.c :=
  (BitVec.extractLsb'_append_extractLsb'_eq_extractLsb' rfl).trans BitVec.extractLsb'_eq_self

/-- CH is zero exactly when C is CL below zeros (R80). -/
theorem Fields.and_ch_eq_zero_iff (f : Fields) : f.c &&& 0xFFFF0000#32 = 0#32 ↔ f.c = 0#16 ++ f.cl := by
  rw [and_high_eq_zero_iff 16 (m := 0xFFFF0000#32) rfl, BitVec.setWidth_eq_append (by decide)]
  rfl

/-- The lowest bit as a field of one bit (format A1). -/
theorem extractLsb'_one {w : Nat} (x : BitVec w) : x.extractLsb' 0 1 = BitVec.ofBool (x.getLsbD 0) := by
  apply BitVec.eq_of_getLsbD_eq
  intro i hi
  obtain rfl := Nat.lt_one_iff.mp hi
  simp

theorem Fields.mk_eq_iff {a : Byte} {b : BitVec 16} {c : Word} {f : Fields} :
    ⟨a, b, c⟩ = f ↔ f.a = a ∧ f.b = b ∧ f.c = c := by
  cases f
  simp [eq_comm]

/-- The bits that a row does not use are zero exactly in the operand fields of the command that the row builds: format
by format, a field that is not used is zero, and a sub-field stands below zeros (R81, R82). -/
theorem unusedZero_iff : ∀ row ∈ opTable, ∀ f, row.unusedZero f ↔ operandFields (row.build f) = f := by
  have hA1 := and_high_eq_zero_iff 1 (m := 0xFE#8) rfl
  have hA2 := and_high_eq_zero_iff 2 (m := 0xFC#8) rfl
  have hA5 := and_high_eq_zero_iff 5 (m := 0xE0#8) rfl
  have hB8 := and_high_eq_zero_iff 8 (m := 0xFF00#16) rfl
  have hA (x : Byte) : x &&& 0xFF#8 = x := BitVec.and_allOnes
  have hB (x : BitVec 16) : x &&& 0xFFFF#16 = x := BitVec.and_allOnes
  have hC (x : Word) : x &&& 0xFFFFFFFF#32 = x := BitVec.and_allOnes
  simp only [opTable, opRowsControl, opRowsPacker, opRowsCoding, opRowsMatrix, List.forall_mem_append,
    List.forall_mem_cons]
  simp [OpRow.unusedZero, fieldA, fieldB, fieldC, operandFields, Fields.zero, Fields.ofA, Fields.ofAB, Fields.ofABC,
    Fields.mk_eq_iff, Fields.ch_append_cl, Fields.and_ch_eq_zero_iff, hA1, hA2, hA5, hB8, hA, hB, hC,
    extractLsb'_one, -BitVec.extractLsb'_toNat]

/-- A sub-field reads back from the field that holds it. -/
theorem extractLsb'_setWidth_self {n w : Nat} (h : n ≤ w) (x : BitVec n) : (x.setWidth w).extractLsb' 0 n = x := by
  rw [← BitVec.setWidth_eq_extractLsb' h, BitVec.setWidth_setWidth_of_le x h, BitVec.setWidth_eq]

/-- The row of a well-formed command's opcode builds the command from its operand fields: operands that fit their
sub-fields read back from them (R82, R83). -/
theorem build_operandFields {i : Instr} (h : WellFormed i) :
    ∃ row, opRow? (opcodeOf i) = some row ∧ row.build (operandFields i) = i := by
  cases i
  case nop | clrSticky | bsClear | bsLen | mxAlloc | mxFinder | mxAlign | mxTiming | mxFormat | mxSide | assemble |
      encode | cfgMask | gfLog =>
    exact ⟨_, rfl, rfl⟩
  case bsPutbit b => cases b <;> exact ⟨_, rfl, rfl⟩
  all_goals
    refine ⟨_, rfl, ?_⟩
    simp only [WellFormed, Instr.wellFormed, Bool.and_eq_true, decide_eq_true_eq, Nat.reducePow] at h
    simp [operandFields, Fields.ofA, Fields.ofAB, Fields.ofABC, extractLsb'_setWidth_self, Nat.mod_eq_of_lt, h]

/-- Every row's command has the row's opcode. -/
theorem opcodeOf_build : ∀ row ∈ opTable, ∀ f, opcodeOf (row.build f) = row.op := by
  simp [opTable, opRowsControl, opRowsPacker, opRowsCoding, opRowsMatrix, opcodeOf]

/-! ### Words and commands (R84) -/

theorem decode_encode {i : Instr} (h : WellFormed i) : decode (encode i) = .ok i := by
  obtain ⟨row, hrow, hbuild⟩ := build_operandFields h
  obtain ⟨ha, hb, hc⟩ := (unusedZero_iff row (opRow?_spec hrow).1 (operandFields i)).mpr (congrArg operandFields hbuild)
  exact (decode_packWord hrow ha hb hc).trans (congrArg Except.ok hbuild)

/-- The command that a word decodes to has the word's opcode and operand fields. -/
theorem fields_of_decode {w : CommandWord} {i : Instr} (h : decode w = .ok i) :
    opcodeOf i = fieldOp w ∧ operandFields i = fieldsOf w := by
  obtain ⟨row, hrow, hmatch, rfl⟩ := decode_eq_ok_iff.mp h
  obtain ⟨hop, hzero⟩ := (match_iff hrow w).mp hmatch
  exact ⟨(opcodeOf_build row hrow _).trans hop.symm, (unusedZero_iff row hrow _).mp hzero⟩

theorem encode_of_decode {w : CommandWord} {i : Instr} (h : decode w = .ok i) : encode i = w := by
  obtain ⟨hop, hfields⟩ := fields_of_decode h
  rw [encode, hop, hfields, packWord_fields]

/-- A word that matches a row matches the rows with its OP, which is this one row (R83). -/
theorem match_iff_op_of_match {w : CommandWord} {row row' : OpRow} (hrow : row ∈ opTable)
    (hmatch : w &&& row.mask = row.fixed) (hrow' : row' ∈ opTable) :
    w &&& row'.mask = row'.fixed ↔ row'.op = fieldOp w := by
  refine ⟨fun h => ((match_iff hrow' w).mp h).1.symm, fun hop => ?_⟩
  have hop' : row.op = row'.op := ((match_iff hrow w).mp hmatch).1.symm.trans hop.symm
  rwa [← List.inj_on_of_nodup_map opTable_ops_distinct hrow hrow' hop']

namespace Machine

/-- A word that matches no row raises IllegalCommand with its OP (R84, R85). -/
theorem runWord_of_no_match {w : CommandWord} (h : ∀ row ∈ opTable, w &&& row.mask ≠ row.fixed) (s : State) :
    runWord w s = .next (s.failed .illegalCommand (fieldOp w).toNat) := by
  unfold runWord
  split
  case h_1 i hi =>
    obtain ⟨row, hrow, hmatch, -⟩ := decode_eq_ok_iff.mp hi
    exact absurd hmatch (h row hrow)
  case h_2 => exact rejectWord_eq _ s

/-- Settles O1: a command's operand fields leave the unused bits zero, and its row builds it back from them. -/
theorem decodeInvertsEncode : Obligations.DecodeInvertsEncode := by
  unfold Obligations.DecodeInvertsEncode
  exact fun i => decode_encode

/-- Settles O2: the command built by a row has the word's fields, and a word is the packing of its fields. -/
theorem encodeInvertsDecode : Obligations.EncodeInvertsDecode := by
  unfold Obligations.EncodeInvertsDecode
  exact fun w i h => ⟨decode_wellFormed h, encode_of_decode h⟩

/-- Settles O3: a word matches the row of its OP and no other, or none. -/
theorem everyWordIsOneCommandOrIllegal : Obligations.EveryWordIsOneCommandOrIllegal := by
  unfold Obligations.EveryWordIsOneCommandOrIllegal
  intro w s
  by_cases h : ∃ row ∈ opTable, w &&& row.mask = row.fixed
  · obtain ⟨row, hrow, hmatch⟩ := h
    have hdecode := decode_eq_ok_iff.mpr ⟨row, hrow, hmatch, rfl⟩
    obtain ⟨hop, hfields⟩ := fields_of_decode hdecode
    exact .inl ⟨_, hdecode, runWord_of_decode hdecode s, hop, hfields, fun _ => match_iff_op_of_match hrow hmatch⟩
  · push Not at h
    exact .inr ⟨h, runWord_of_no_match h s⟩

/-- A word with a row's OP and a non-zero bit that the row does not use raises IllegalCommand (R81, R85). -/
theorem unusedBitsRaise_of_opRow {op : Byte} {row : OpRow} (h : opRow? op = some row) :
    UnusedBitsRaise op (fieldA row.mask) (fieldB row.mask) (fieldC row.mask) := by
  obtain ⟨hrow, rfl⟩ := opRow?_eq_some.mp h
  intro w s hop hbits
  rw [← hop]
  refine runWord_of_no_match (fun row' hrow' hmatch' => ?_) s
  obtain ⟨-, ha, hb, hc⟩ := (match_iff hrow w).mp ((match_iff_op_of_match hrow' hmatch' hrow).mpr hop.symm)
  obtain ha' | hb' | hc' := hbits
  · exact ha' ha
  · exact hb' hb
  · exact hc' hc

/-- The reserved values of OP (R85). -/
abbrev ReservedOp (n : Nat) : Prop :=
  (0x05 ≤ n ∧ n ≤ 0x07) ∨ (0x0D ≤ n ∧ n ≤ 0x0F) ∨ (0x16 ≤ n ∧ n ≤ 0x1F) ∨ (0x23 ≤ n ∧ n ≤ 0x2F) ∨
    (0x33 ≤ n ∧ n ≤ 0x3F) ∨ (0x41 ≤ n ∧ n ≤ 0x4F) ∨ (0x5A ≤ n ∧ n ≤ 0x5F) ∨ 0x62 ≤ n

theorem opTable_ops_not_reserved : ∀ row ∈ opTable, ¬ ReservedOp row.op.toNat := by
  decide

/-- Settles O4: no row has a reserved OP, and a word with a row's OP that does not match the row has an unused bit set. -/
theorem reservedAndUnusedBitsAreIllegal : Obligations.ReservedAndUnusedBitsAreIllegal := by
  unfold Obligations.ReservedAndUnusedBitsAreIllegal
  constructor
  · rintro w s _ rfl hreserved
    refine runWord_of_no_match (fun row hrow hmatch => ?_) s
    have hop : fieldOp w = row.op := ((match_iff hrow w).mp hmatch).1
    exact opTable_ops_not_reserved row hrow (hop ▸ hreserved)
  · intro w s row hrow hop hunused
    refine unusedBitsRaise_of_opRow (opRow?_eq_some.mpr ⟨hrow, hop.symm⟩) w s rfl ?_
    simpa only [ne_eq, match_iff hrow, hop, true_and, not_and_or] using hunused

/-- Settles O5: the decoder is run on each of the words. -/
theorem sampleWordsDecode : Obligations.SampleWordsDecode := by
  unfold Obligations.SampleWordsDecode
  exact ⟨rfl, rfl, rfl, rfl, rfl, rfl, rfl, rfl, rfl, rfl, rfl, rfl, rfl⟩

/-! ### Mnemonics and operands (R83, R87) -/

/-- No two rows have the same mnemonic. -/
theorem opTable_mnemonics_distinct : (opTable.map (fun r => r.mnemonic.toList)).Nodup := by
  decide +kernel

/-- The one-bit operand reads back exactly when it is a bit (format A1). -/
theorem toNat_decide_eq_one_iff {b : Nat} : (decide (b = 1)).toNat = b ↔ b < 2 := by
  by_cases h : b = 1
  · simp [h]
  · have hzero : (decide (b = 1)).toNat = 0 := by simp [h]
    omega

/-- In every row the assembler takes as many operands as the command has, and those that it narrows to bits fit. -/
theorem eq_of_instrOf : ∀ row ∈ opTable, ∀ operands i, instrOf row.op.toNat operands = some i →
    row.op = opcodeOf i ∧ syntaxOperands i = operands := by
  simp only [opTable, opRowsControl, opRowsPacker, opRowsCoding, opRowsMatrix, List.forall_mem_append,
    List.forall_mem_cons, List.not_mem_nil, false_implies, implies_true, and_true]
  and_intros
  all_goals rintro (_ | ⟨a, _ | ⟨b, _ | ⟨c, _ | ⟨d, _ | _⟩⟩⟩⟩) i h
  -- A list of another length gives no command; a row without a check gives the command of these operands.
  any_goals cases h
  any_goals exact ⟨rfl, rfl⟩
  -- The nine rows with operands that are bits: CFG_SET, CFG_MASK, CW_WR, PL_WR, BS_PUT, BS_PUTBIT, GF_MUL, GF_LOG, FMT_ENC.
  all_goals
    obtain ⟨hfit, ⟨⟩⟩ := Option.ite_none_right_eq_some.mp h
    simpa [opcodeOf, syntaxOperands, Nat.mod_eq_iff_lt, toNat_decide_eq_one_iff] using hfit

theorem instrOf_syntaxOperands (i : Instr) : instrOf (opcodeOf i).toNat (syntaxOperands i) = some i := by
  cases i
  case bsPutbit b => cases b <;> rfl
  case cfgSet | cfgMask | cwWr | plWr | bsPut | gfLog | fmtEnc =>
    exact (if_pos (BitVec.isLt _)).trans (by rw [BitVec.ofNat_toNat, BitVec.setWidth_eq])
  case gfMul a b => exact (if_pos ⟨a.isLt, b.isLt⟩).trans (by simp only [BitVec.ofNat_toNat, BitVec.setWidth_eq])
  all_goals rfl

/-- What the assembler accepts: the mnemonic of a row, with operands from which the row's command comes and fits. -/
theorem commandOf_eq_some {mnemonic : List Char} {operands : List Nat} {i : Instr} :
    commandOf mnemonic operands = some i ↔
      ∃ row ∈ opTable, row.mnemonic.toList = mnemonic ∧ instrOf row.op.toNat operands = some i ∧ WellFormed i := by
  constructor
  · intro h
    unfold commandOf at h
    split at h
    case h_1 => cases h
    case h_2 row hrow =>
      obtain ⟨hi, hwf⟩ := Option.filter_eq_some_iff.mp h
      exact ⟨row, List.mem_of_find?_eq_some hrow, by simpa using List.find?_some hrow, hi, hwf⟩
  · rintro ⟨row, hrow, rfl, hi, hwf⟩
    rw [commandOf, find?_key_eq_some opTable_mnemonics_distinct hrow]
    simp [hi, hwf]

/-- Settles O56: mnemonics and opcodes each name one row, and a row's command has exactly the operands of its line. -/
theorem assembledCommandDecodesToItself : Obligations.AssembledCommandDecodesToItself := by
  unfold Obligations.AssembledCommandDecodesToItself
  constructor
  · intro mnemonic operands i h
    obtain ⟨row, hrow, hmnemonic, hi, hwf⟩ := commandOf_eq_some.mp h
    obtain ⟨hop, hoperands⟩ := eq_of_instrOf row hrow operands i hi
    exact ⟨hwf, decode_encode hwf, hoperands.symm, row, hrow, hmnemonic, hop⟩
  · intro i hwf row hrow hop
    exact commandOf_eq_some.mpr ⟨row, hrow, rfl, hop ▸ instrOf_syntaxOperands i, hwf⟩

end Machine

end Sys2Proof
end

section
/-! SUPPORT. Control, configuration and memory access: a command that one check guards, the lookup of CFG_SET, the register
file of REG_READ, and where a mask over 7 is refused (40_control.md). -/

namespace Sys2Proof.Machine

/-! ### Commands with one check (60_exceptions.md R272, R273) -/

section
variable {s t : State} {e : Raise} {p : Prop} [Decidable p]

theorem complete_check_of_not (h : ¬p) : complete s (if p then .error e else .ok t) = .next t.succeed := by
  rw [if_neg h, complete_ok]

theorem complete_check_of (h : p) : complete s (if p then .error e else .ok t) = .next (s.failed e.kind e.info) := by
  rw [if_pos h, complete_error]

end

/-! ### Unused bits (30_encoding.md R81) -/

/-- The masks of the bits of A, B and C that a row does not use. -/
def OpRow.unusedMasks (row : OpRow) : Byte × BitVec 16 × Word := (fieldA row.mask, fieldB row.mask, fieldC row.mask)

theorem unusedBitsRaise_of_unusedMasks {op a : Byte} {b : BitVec 16} {c : Word}
    (h : (opRow? op).map OpRow.unusedMasks = some (a, b, c)) : UnusedBitsRaise op a b c := by
  obtain ⟨row, hrow, ⟨⟩⟩ := Option.map_eq_some_iff.mp h
  exact unusedBitsRaise_of_opRow hrow

/-! ### CFG_SET (R111, R112) -/

theorem exec_cfgSet_of_usable {s : State} {ecl : BitVec 2} {ver : Nat} {e : CapEntry}
    (h : cfgLookup s.params s.tables ver ecl = some e) :
    exec (.cfgSet ecl ver) s = .next (s.configure ver ecl e).succeed := by
  simp only [exec, execCfgSet, h, complete_ok]

theorem exec_cfgSet_of_unusable {s : State} {ecl : BitVec 2} {ver : Nat} (h : cfgLookup s.params s.tables ver ecl = none) :
    exec (.cfgSet ecl ver) s = .next (s.failed .unsupportedConfiguration (cfgInfo ver ecl)) := by
  simp only [exec, execCfgSet, h, complete_error]

/-- Every check of R111 that fails makes the lookup fail. -/
theorem cfgLookup_eq_none {p : Params} {t : Tables} {ver : Nat} {ecl : BitVec 2}
    (h : ver < 1 ∨ p.maxVersion < ver ∨ capAt t ver ecl = none ∨ ∃ e, capAt t ver ecl = some e ∧
      (e.blocks ≠ 1 ∨ e.total < e.ec ∨ p.cwBytes < e.total ∨ 255 < e.ec ∨ p.bsBits < 8 * (e.total - e.ec))) :
    cfgLookup p t ver ecl = none := by
  refine Option.eq_none_iff_forall_ne_some.mpr fun e he => ?_
  obtain ⟨hver, hmax, hcap, hchecks⟩ := cfgLookup_eq_some.mp he
  obtain hver' | hmax' | hcap' | ⟨e', hcap', hfail⟩ := h
  · omega
  · omega
  · cases hcap.symm.trans hcap'
  · cases hcap.symm.trans hcap'
    omega

/-- Under the constraints of 00_scope.md R9 the registers hold the values of a usable entry whole. -/
theorem State.configure_toNat (s : State) {ver : Nat} {ecl : BitVec 2} {e : CapEntry} (hp : s.params.Legal)
    (he : cfgLookup s.params s.tables ver ecl = some e) :
    (s.configure ver ecl e).cfgVersion.toNat = ver ∧ (s.configure ver ecl e).capTotal.toNat = e.total ∧
      (s.configure ver ecl e).capEc.toNat = e.ec ∧ (s.configure ver ecl e).capData.toNat = e.total - e.ec ∧
      (s.configure ver ecl e).side.toNat = 4 * ver + 17 := by
  obtain ⟨-, hmax, -, -, -, htotal, hgen, -⟩ := cfgLookup_eq_some.mp he
  obtain ⟨-, hmax40, hcwBytes, -⟩ := hp
  simp only [State.configure, BitVec.toNat_ofNat]
  omega

/-- Settles O22: CFG_SET follows the lookup, and the lookup fails where one of R111's checks does. -/
theorem cfgSetFollowsTheCapacityTable : Obligations.CfgSetFollowsTheCapacityTable := by
  unfold Obligations.CfgSetFollowsTheCapacityTable
  refine ⟨fun s ecl ver e hver hmax hcap hblocks hec htotal hgen hdata hp => ?_, fun s ecl ver h => ?_,
    unusedBitsRaise_of_unusedMasks rfl⟩
  · have husable := cfgLookup_eq_some.mpr ⟨hver, hmax, hcap, hblocks, hec, htotal, hgen, hdata⟩
    refine ⟨_, exec_cfgSet_of_usable husable, ?_, s.configure_toNat hp husable⟩
    rw [State.configure, hblocks]
    rfl
  · exact exec_cfgSet_of_unusable (cfgLookup_eq_none h)

/-! ### CFG_MASK and the commands that use the mask (R113) -/

theorem stampFormat_of_wide_mask {s : State} (h : 7 < s.cfgMask.toNat) :
    s.stampFormat = .error ⟨.invalidMaskPattern, s.cfgMask.toNat⟩ := if_pos h

theorem exec_mxFormat_of_wide_mask {s : State} (hp : s.phase = .timingDone) (h : 7 < s.cfgMask.toNat) :
    exec .mxFormat s = .next (s.failed .invalidMaskPattern s.cfgMask.toNat) := by
  simp only [exec, execMxFormat, requirePhase_of_eq hp, except_bind_ok, stampFormat_of_wide_mask h, complete_error]

/-- The phases before MX_FORMAT complete, so that a build reaches the check of the mask. -/
theorem buildGrid_of_wide_mask {s : State} (hv : s.cfgValid = true) (h : 7 < s.cfgMask.toNat) :
    s.buildGrid = .error ⟨.invalidMaskPattern, s.cfgMask.toNat⟩ := by
  rw [State.buildGrid, allocGrid_eq_ok.mpr ⟨hv, rfl⟩, except_bind_ok, stampFormat_of_wide_mask, except_bind_error]
  · rfl
  · exact h

/-- ENCODE assembles before it builds (46_assembly.md R246), so the mask is checked when the payload fits. -/
theorem exec_encode_of_wide_mask {s : State} (hv : s.cfgValid = true) (hD : 8 * s.capData.toNat ≤ s.params.bsBits)
    (hL : s.payloadBits ≤ 8 * s.capData.toNat) (h : 7 < s.cfgMask.toNat) :
    exec .encode s = .next (s.failed .invalidMaskPattern s.cfgMask.toNat) := by
  obtain ⟨a, ha⟩ := assembleCodewords_of_fits hv hD hL
  have hbuild : a.buildGrid = .error ⟨.invalidMaskPattern, s.cfgMask.toNat⟩ := by
    obtain ⟨-, -, bs, -, rfl⟩ := assembleCodewords_eq_ok.mp ha
    exact buildGrid_of_wide_mask hv h
  simp only [exec, execEncode, ha, hbuild, except_bind_ok, except_bind_error, complete_error]

/-! ### The length of the stream (41_packer.md R130) -/

/-- The part that BS_PUT and BS_PUTBIT share: append the low `w` bits of `v` to the stream (R131). -/
def State.appendStream (s : State) (v w : Nat) : Except Raise State :=
  appendBits s.params.bsBits s.bs v w >>= fun bs => .ok { s with bs := bs }

theorem execBsPutbit_eq (b : Bool) (s : State) : execBsPutbit b s = complete s (s.appendStream b.toNat 1) := by
  rw [execBsPutbit, State.appendStream]
  cases appendBits s.params.bsBits s.bs b.toNat 1 <;> rfl

theorem execBsPut_of_le {width : Nat} (h : width ≤ 32) (value : Word) (s : State) :
    execBsPut width value s = complete s (s.appendStream value.toNat width) := by
  rw [execBsPut, if_neg (Nat.not_lt.mpr h), State.appendStream]
  cases appendBits s.params.bsBits s.bs value.toNat width <;> rfl

theorem execBsPut_of_gt {width : Nat} (h : 32 < width) (value : Word) (s : State) :
    execBsPut width value s = .next (s.failed .illegalCommand 0x11) := by
  rw [execBsPut, if_pos h, complete_error]

/-- A command that appends lengthens the stream or fails. -/
theorem complete_appendStream_length {s t : State} {v w : Nat} (h : complete s (s.appendStream v w) = .next t) :
    s.bs.length ≤ t.bs.length := by
  obtain ⟨u, hu, rfl⟩ | ⟨e, -, rfl⟩ := complete_eq_next.mp h
  · obtain ⟨bs, hbs, ⟨⟩⟩ := except_bind_eq_ok.mp hu
    exact (Nat.le_add_right _ w).trans (appendBits_length_le hbs).1.ge
  · exact le_rfl

/-- Only BS_CLEAR, ASSEMBLE and ENCODE start a fresh stream; the others that write BS append. -/
theorem exec_bs_length {i : Instr} {s t : State} (hclear : i ≠ .bsClear) (hassemble : i ≠ .assemble)
    (hencode : i ≠ .encode) (h : exec i s = .next t) : s.bs.length ≤ t.bs.length := by
  by_cases hi : opcodeOf i ∈ registerWriters 11
  · cases i
    case bsClear => exact absurd rfl hclear
    case assemble => exact absurd rfl hassemble
    case encode => exact absurd rfl hencode
    case bsPutbit b =>
      rw [exec, execBsPutbit_eq] at h
      exact complete_appendStream_length h
    case bsPut width value =>
      rw [exec] at h
      by_cases hwidth : width ≤ 32
      · rw [execBsPut_of_le hwidth] at h
        exact complete_appendStream_length h
      · rw [execBsPut_of_gt (Nat.not_le.mp hwidth)] at h
        cases h; exact le_rfl
    all_goals simp [opcodeOf, registerWriters] at hi
  · exact (congrArg List.length (exec_keeps State.bs (fun _ _ hc => hc.bs_eq hi) (fun _ => rfl) (fun _ _ => rfl) h)).ge

/-- Settles O21: each command is its one write; a wide mask is stored and refused by the phase that uses it. -/
theorem oneFieldCommandsWriteTheirField : Obligations.OneFieldCommandsWriteTheirField := by
  unfold Obligations.OneFieldCommandsWriteTheirField
  refine ⟨fun _ => rfl, fun _ _ => rfl, fun _ => rfl, fun _ => rfl, ?wideMask, ?stream,
    unusedBitsRaise_of_unusedMasks rfl, unusedBitsRaise_of_unusedMasks rfl, unusedBitsRaise_of_unusedMasks rfl,
    unusedBitsRaise_of_unusedMasks rfl⟩
  case wideMask =>
    rintro m s _ hm ⟨⟩
    exact ⟨fun hp => exec_mxFormat_of_wide_mask hp hm,
      fun hinv hv hfits => exec_encode_of_wide_mask hv (hinv.spec.data_fits hv) hfits hm⟩
  case stream =>
    intro i s t h hshorter
    by_contra hi
    push Not at hi
    obtain ⟨hclear, hassemble, hencode⟩ := hi
    exact absurd (exec_bs_length hclear hassemble hencode h) hshorter.not_ge

/-! ### REG_READ (R114) -/

/-- The registers in the order of their numbers (10_state.md R24). -/
def State.registers (s : State) : List Word :=
  [s.status, s.result, s.errInfo, s.cfgVersion.zeroExtend 32, s.cfgEcl.zeroExtend 32, s.cfgMask.zeroExtend 32,
    s.capTotal, s.capEc, s.capBlocks, s.capData, s.side.zeroExtend 32, BitVec.ofNat 32 s.bs.length,
    s.plLen.zeroExtend 32, s.genDeg.zeroExtend 32, s.buildMask.zeroExtend 32, s.placeCells, s.placeBits, 0x51524331#32]

theorem State.readReg_eq_registers (s : State) (n : Nat) : s.readReg n = s.registers[n]? := by
  match n with
  | 0 | 1 | 2 | 3 | 4 | 5 | 6 | 7 | 8 | 9 | 10 | 11 | 12 | 13 | 14 | 15 | 16 | 17 | _ + 18 => rfl

theorem exec_regRead_of_lt {s : State} {n : Nat} (h : n < s.registers.length) :
    exec (.regRead n) s = .next (s.setResult s.registers[n]).succeed := by
  simp only [exec, execRegRead, s.readReg_eq_registers, List.getElem?_eq_getElem h, complete_ok]

theorem exec_regRead_of_ge {s : State} {n : Nat} (h : s.registers.length ≤ n) :
    exec (.regRead n) s = .next (s.failed .illegalCommand 0x03) := by
  simp only [exec, execRegRead, s.readReg_eq_registers, List.getElem?_eq_none h, complete_error]

/-- Settles O23: REG_READ looks its number up in the list of the 18 registers. -/
theorem regReadReturnsTheNumberedRegister : Obligations.RegReadReturnsTheNumberedRegister := by
  unfold Obligations.RegReadReturnsTheNumberedRegister
  exact ⟨fun _ _ => exec_regRead_of_lt, fun _ _ => exec_regRead_of_ge, unusedBitsRaise_of_unusedMasks rfl⟩

/-! ### The codeword RAM and the payload RAM (R116 to R120) -/

/-- Settles O25: an access checks its address, then writes or reads that byte alone. -/
theorem codewordRamAccess : Obligations.CodewordRamAccess := by
  unfold Obligations.CodewordRamAccess
  refine ⟨fun s v a ha => ?_, fun s a ha => complete_check_of_not (Nat.not_le.mpr ha),
    fun s v a ha => ⟨complete_check_of ha, complete_check_of ha⟩,
    unusedBitsRaise_of_unusedMasks rfl, unusedBitsRaise_of_unusedMasks rfl⟩
  refine ⟨_, complete_check_of_not (Nat.not_le.mpr ha), rfl, ?_, fun b hb => ?_⟩
  · exact (s.cwByte_of_write a a v).trans (if_pos rfl)
  · exact (s.cwByte_of_write a b v).trans (if_neg hb)

/-- Settles O26: an access checks its address or length; within R9's constraints PL_LEN holds a length whole. -/
theorem payloadRamAccess : Obligations.PayloadRamAccess := by
  unfold Obligations.PayloadRamAccess
  refine ⟨fun s v a ha => ?write, fun s a ha => complete_check_of_not (Nat.not_le.mpr ha), fun s n hn hp => ?length,
    fun s v a ha => ⟨complete_check_of ha, complete_check_of ha⟩, fun s n hn => complete_check_of hn,
    unusedBitsRaise_of_unusedMasks rfl, unusedBitsRaise_of_unusedMasks rfl, unusedBitsRaise_of_unusedMasks rfl⟩
  case write =>
    refine ⟨_, complete_check_of_not (Nat.not_le.mpr ha), rfl, ?_, fun b hb => ?_⟩
    · exact (s.plByte_of_write a a v).trans (if_pos rfl)
    · exact (s.plByte_of_write a b v).trans (if_neg hb)
  case length =>
    obtain ⟨-, -, -, hplBytes, -⟩ := hp
    have hfits : n < 2 ^ 16 := by omega
    refine ⟨_, complete_check_of_not (Nat.not_lt.mpr hn), rfl, ?_⟩
    exact (BitVec.toNat_ofNat n 16).trans (Nat.mod_eq_of_lt hfits)

end Sys2Proof.Machine
end

section
/-! SUPPORT. The packer, command by command: appending a value or a bit, reading the length or a bit, and storing bytes of
the stream in CW (41_packer.md). -/

namespace Sys2Proof.Machine

/-! ### BS_PUT (R131, R132) -/

/-- An append that fits leaves the stream with the bits of the value behind it. -/
theorem complete_appendStream_of_fits {s : State} {v w : Nat} (h : s.bs.length + w ≤ s.params.bsBits) :
    complete s (s.appendStream v w) = .next { s with bs := s.bs ++ bitsMsb v w }.succeed := by
  rw [State.appendStream, appendBits_of_fits h, except_bind_ok, complete_ok]

theorem complete_appendStream_of_full {s : State} {v w : Nat} (h : s.params.bsBits < s.bs.length + w) :
    complete s (s.appendStream v w) = .next (s.failed .rangeError (s.bs.length + w)) := by
  rw [State.appendStream, appendBits_of_full h, except_bind_error, complete_error]

theorem exec_bsPut_of_fits {s : State} {width : Nat} (value : Word) (hwidth : width ≤ 32)
    (h : s.bs.length + width ≤ s.params.bsBits) :
    exec (.bsPut width value) s = .next { s with bs := s.bs ++ bitsMsb value.toNat width }.succeed :=
  (execBsPut_of_le hwidth value s).trans (complete_appendStream_of_fits h)

/-- Settles O27: the stream after BS_PUT is the old stream followed by the value's bits, most significant first. -/
theorem bsPutAppendsMsbFirst : Obligations.BsPutAppendsMsbFirst := by
  unfold Obligations.BsPutAppendsMsbFirst
  refine ⟨fun s width value hwidth hfits => ?fits, fun s width value hwidth hfull => ?full, fun s width value hwidth => ?wide,
    unusedBitsRaise_of_unusedMasks rfl⟩
  case fits =>
    refine ⟨_, exec_bsPut_of_fits value hwidth hfits, rfl, ?_, fun i hi => ?_, fun i hi => ?_⟩
    · simp
    · exact List.getElem?_append_left hi
    · exact (getElem?_append_offset _ _ rfl i).trans (bitsMsb_getElem? _ hi)
  case full => exact (execBsPut_of_le hwidth value s).trans (complete_appendStream_of_full hfull)
  case wide => exact execBsPut_of_gt hwidth value s

/-! ### BS_STORE (R136) -/

theorem exec_bsStore_of_fits {s : State} {dst n : Nat} (hlen : 8 * n ≤ s.bs.length) (hdst : dst + n ≤ s.params.cwBytes) :
    exec (.bsStore dst n) s = .next { s with cw := s.cw.writeBytes dst (streamBytes s.bs n) }.succeed := by
  rw [exec, execBsStore, if_neg (Nat.not_lt.mpr hlen), if_neg (Nat.not_lt.mpr hdst), complete_ok]

/-- The stream's length is checked before the destination, whatever the destination is. -/
theorem exec_bsStore_of_short {s : State} {dst n : Nat} (hlen : s.bs.length < 8 * n) :
    exec (.bsStore dst n) s = .next (s.failed .indexError (8 * n)) := by
  rw [exec, execBsStore, if_pos hlen, complete_error]

theorem exec_bsStore_of_past_end {s : State} {dst n : Nat} (hlen : 8 * n ≤ s.bs.length) (hdst : s.params.cwBytes < dst + n) :
    exec (.bsStore dst n) s = .next (s.failed .rangeError (dst + n)) := by
  rw [exec, execBsStore, if_neg (Nat.not_lt.mpr hlen), if_pos hdst, complete_error]

/-- A run of bytes written to CW reads back from its own addresses. -/
theorem State.cwByte_of_writeBytes_inside (s : State) (a : Nat) {bytes : List Byte} {k : Nat} {v : Byte}
    (h : bytes[k]? = some v) : { s with cw := s.cw.writeBytes a bytes }.cwByte (a + k) = v := by
  obtain ⟨hk, rfl⟩ := List.getElem?_eq_some_iff.mp h
  rw [State.cwByte, Memory.read?_writeBytes_inside _ _ _ _ hk, Option.getD_some]

theorem State.cwByte_of_writeBytes_outside (s : State) {a b : Nat} {bytes : List Byte}
    (h : b < a ∨ a + bytes.length ≤ b) : { s with cw := s.cw.writeBytes a bytes }.cwByte b = s.cwByte b := by
  rw [State.cwByte, Memory.read?_writeBytes_outside _ _ _ _ h]; rfl

/-- Within the stream, bit 8k + j is bit 7 − j of byte k (20_memory.md R71). -/
theorem getElem?_eq_streamByte_getLsbD {bs : List Bool} {k j : Nat} (hj : j < 8) (h : 8 * k + j < bs.length) :
    bs[8 * k + j]? = some ((streamByte bs k).getLsbD (7 - j)) := by
  rw [streamByte_getLsbD bs k hj, List.getD_eq_getElem _ _ h, List.getElem?_eq_getElem h]

/-- Settles O30: BS_STORE writes the first n bytes of the stream to n addresses and leaves every other byte of CW. -/
theorem bsStoreWritesStreamBytes : Obligations.BsStoreWritesStreamBytes := by
  unfold Obligations.BsStoreWritesStreamBytes
  refine ⟨fun s dst n hlen hdst => ?fits, fun s dst n => exec_bsStore_of_short, fun s dst n => exec_bsStore_of_past_end,
    unusedBitsRaise_of_unusedMasks rfl⟩
  refine ⟨_, exec_bsStore_of_fits hlen hdst, rfl, fun k j hk hj => ?stored, fun a ha => ?kept⟩
  case stored =>
    have hbyte := s.cwByte_of_writeBytes_inside dst (streamBytes_getElem? s.bs hk)
    rw [getElem?_eq_streamByte_getLsbD hj (by omega), ← hbyte]
    rfl
  case kept => exact s.cwByte_of_writeBytes_outside (by rwa [streamBytes_length])

/-! ### A byte through the stream (R137) -/

/-- Settles O31: BS_PUT puts bit 7 − j of b at bit 8k + j of the stream, where BS_STORE takes bit 7 − j of CW[k]. -/
theorem putThenStoreGivesTheByteBack : Obligations.PutThenStoreGivesTheByteBack := by
  unfold Obligations.PutThenStoreGivesTheByteBack
  intro s b k hbs hbits hcw
  obtain ⟨t, hput, ht, hlen, -, hnew⟩ := bsPutAppendsMsbFirst.1 s 8 (b.zeroExtend 32) (by decide) (by omega)
  have hparams : t.params = s.params := by rw [ht]
  obtain ⟨u, hstore, hu, hbytes, -⟩ := bsStoreWritesStreamBytes.1 t 0 (k + 1) (by omega) (by rw [hparams]; omega)
  refine ⟨t, u, hput, hstore, by rw [hu], BitVec.eq_of_getMsbD_eq fun j hj => ?_⟩
  have happended := hnew j hj
  have hstored := hbytes k j k.lt_succ_self hj
  rw [hbs, hstored, Nat.zero_add, Option.some_inj] at happended
  have hlow : 7 - j < 32 := by omega
  simpa [BitVec.getMsbD, hj, hlow] using happended

/-! ### BS_PUTBIT (R133) -/

theorem bitsMsb_toNat_one (b : Bool) : bitsMsb b.toNat 1 = [b] := by cases b <;> rfl

/-- BS_PUTBIT and BS_PUT of width 1 append the same bit. -/
theorem exec_bsPutbit_eq_bsPut (b : Bool) (s : State) :
    exec (.bsPutbit b) s = exec (.bsPut 1 (if b then 1#32 else 0#32)) s := by
  have hvalue : (if b then 1#32 else 0#32).toNat = b.toNat := by cases b <;> rfl
  rw [exec, exec, execBsPutbit_eq, execBsPut_of_le (by decide), hvalue]

/-- Settles O28: BS_PUTBIT is an append of width 1. -/
theorem bsPutbitAppendsOneBit : Obligations.BsPutbitAppendsOneBit := by
  unfold Obligations.BsPutbitAppendsOneBit
  refine ⟨fun s b hfits => ?fits, fun s b hfull => ?full, fun s b => exec_bsPutbit_eq_bsPut b s,
    unusedBitsRaise_of_unusedMasks rfl⟩
  case fits =>
    rw [exec, execBsPutbit_eq, complete_appendStream_of_fits hfits, bitsMsb_toNat_one]
    rfl
  case full => exact (execBsPutbit_eq b s).trans (complete_appendStream_of_full (Nat.lt_succ_of_le hfull))

/-! ### BS_LEN and BS_GET (R134, R135) -/

theorem exec_bsGet_of_lt {s : State} {i : Nat} (h : i < s.bs.length) :
    exec (.bsGet i) s = .next (s.setResult (if s.bs[i] then 1#32 else 0#32)).succeed := by
  have hvalue (b : Bool) : BitVec.ofNat 32 b.toNat = if b then 1#32 else 0#32 := by cases b <;> rfl
  simp only [exec, execBsGet, List.getElem?_eq_getElem h, complete_ok, hvalue]

theorem exec_bsGet_of_ge {s : State} {i : Nat} (h : s.bs.length ≤ i) :
    exec (.bsGet i) s = .next (s.failed .indexError i) := by
  simp only [exec, execBsGet, List.getElem?_eq_none h, complete_error]

/-- Settles O29: BS_LEN returns the length; BS_GET looks its index up in the stream. -/
theorem streamReads : Obligations.StreamReads := by
  unfold Obligations.StreamReads
  exact ⟨fun _ => rfl, fun _ _ => exec_bsGet_of_lt, fun _ _ => exec_bsGet_of_ge, unusedBitsRaise_of_unusedMasks rfl,
    unusedBitsRaise_of_unusedMasks rfl⟩

end Sys2Proof.Machine
end

section
/-! SUPPORT. The field GF(2^8): the ROM tables as powers of α, the laws of the multiplier, and the multiplier against the
carry-less product modulo 0x11D (42_galois.md). -/

namespace Sys2Proof.Machine

/-! ### The tables (R150, R151) -/

@[simp] theorem gfExp_zero : gfExp 0 = 0x01#8 := rfl

@[simp] theorem gfLog?_zero : gfLog? 0#8 = none := rfl

theorem gfExp_succ : ∀ i < 255, gfExp (i + 1) = xtime (gfExp i) := by decide +kernel

theorem gfExp_255 : gfExp 255 = gfExp 0 := by decide

theorem gfLog?_gfExp : ∀ i < 255, gfLog? (gfExp i) = some i := by decide +kernel

theorem exists_mem_gfLog? : ∀ a : Byte, a ≠ 0#8 → ∃ k ∈ gfLog? a, k < 255 ∧ gfExp k = a := by decide +kernel

/-- The exponent table reaches every byte but zero within its period. -/
theorem exists_gfExp_eq (a : Byte) (ha : a ≠ 0#8) : ∃ k < 255, gfExp k = a := by
  obtain ⟨k, -, hk⟩ := exists_mem_gfLog? a ha
  exact ⟨k, hk⟩

/-- `xtime` is the doubling step of the spec, which reduces by 0x11D where the double leaves the byte. -/
theorem toNat_xtime : ∀ v : Byte,
    (xtime v).toNat = if v.toNat.testBit 7 then (v.toNat <<< 1) ^^^ 0x11D else v.toNat <<< 1 := by
  decide +kernel

theorem gfExp_injOn {i j : Nat} (hi : i < 255) (hj : j < 255) (h : gfExp i = gfExp j) : i = j :=
  Option.some_inj.mp ((gfLog?_gfExp i hi).symm.trans (h ▸ gfLog?_gfExp j hj))

/-- Every byte is zero or a power of α. -/
theorem byte_cases {P : Byte → Prop} (zero : P 0#8) (power : ∀ k < 255, P (gfExp k)) (a : Byte) : P a := by
  by_cases ha : a = 0#8
  · exact ha ▸ zero
  · obtain ⟨k, hk, rfl⟩ := exists_gfExp_eq a ha
    exact power k hk

/-- Settles O32: the recurrence is that of `xtime`, and the logarithm table inverts the exponent table. -/
theorem fieldTablesAreExpAndLog : Obligations.FieldTablesAreExpAndLog := by
  unfold Obligations.FieldTablesAreExpAndLog
  refine ⟨gfExp_zero, fun i hi => ?_, gfLog?_zero, fun a ha => ?_⟩
  · rw [gfExp_succ i hi, toNat_xtime]
  · obtain ⟨k, hk, rfl⟩ := exists_gfExp_eq a ha
    exact ⟨k, Nat.le_of_lt_succ hk, gfLog?_gfExp k hk, rfl, fun j hj h => gfExp_injOn (Nat.lt_succ_of_le hj) hk h⟩

/-! ### Multiplication adds exponents (R152) -/

theorem gfMul_gfExp {i j : Nat} (hi : i < 255) (hj : j < 255) : gfMul (gfExp i) (gfExp j) = gfExp ((i + j) % 255) := by
  rw [gfMul, gfLog?_gfExp i hi, gfLog?_gfExp j hj]

theorem gfMul_comm (a b : Byte) : gfMul a b = gfMul b a := by
  cases a using byte_cases with
  | zero => simp
  | power i hi =>
    cases b using byte_cases with
    | zero => simp
    | power j hj => rw [gfMul_gfExp hi hj, gfMul_gfExp hj hi, Nat.add_comm]

theorem gfMul_assoc (a b c : Byte) : gfMul (gfMul a b) c = gfMul a (gfMul b c) := by
  have hmod (n : Nat) : n % 255 < 255 := Nat.mod_lt n (by decide)
  cases a using byte_cases with
  | zero => simp
  | power i hi =>
    cases b using byte_cases with
    | zero => simp
    | power j hj =>
      cases c using byte_cases with
      | zero => simp
      | power k hk =>
        rw [gfMul_gfExp hi hj, gfMul_gfExp hj hk, gfMul_gfExp (hmod _) hk, gfMul_gfExp hi (hmod _), Nat.mod_add_mod,
          Nat.add_mod_mod, Nat.add_assoc]

@[simp] theorem gfMul_one (a : Byte) : gfMul a 0x01#8 = a := by
  cases a using byte_cases with
  | zero => rfl
  | power i hi => rw [← gfExp_zero, gfMul_gfExp hi (by decide), Nat.add_zero, Nat.mod_eq_of_lt hi]

theorem gfMul_gfExp_inverse {k : Nat} (hk : k < 255) : gfMul (gfExp k) (gfExp ((255 - k) % 255)) = 0x01#8 := by
  rw [gfMul_gfExp hk (Nat.mod_lt _ (by decide)), Nat.add_mod_mod, Nat.add_sub_cancel' hk.le, Nat.mod_self, gfExp_zero]

/-! ### Multiplication by a power of α is repeated doubling, which is additive -/

/-- A step that adds `c` where its bit is set is additive in the bit and the sum together. -/
theorem ite_xor (p q : Bool) (u v c : Nat) :
    (if (p ^^ q) = true then u ^^^ v ^^^ c else u ^^^ v) = (if p then u ^^^ c else u) ^^^ (if q then v ^^^ c else v) := by
  cases p <;> cases q <;> simp [Nat.xor_comm, Nat.xor_left_comm]

theorem xtime_xor (a b : Byte) : xtime (a ^^^ b) = xtime a ^^^ xtime b := by
  apply BitVec.eq_of_toNat_eq
  simp only [BitVec.toNat_xor, toNat_xtime, Nat.testBit_xor, Nat.shiftLeft_xor_distrib, ite_xor]

theorem iterate_xtime_xor (k : Nat) (a b : Byte) : xtime^[k] (a ^^^ b) = xtime^[k] a ^^^ xtime^[k] b :=
  Function.Semiconj₂.iterate xtime_xor k a b

theorem iterate_xtime_zero (k : Nat) : xtime^[k] 0#8 = 0#8 := Function.iterate_fixed rfl k

/-- The table read with exponents modulo 255 is the sequence of all powers of α. -/
theorem gfExp_mod (n : Nat) : gfExp (n % 255) = xtime^[n] 0x01#8 := by
  induction n with
  | zero => rfl
  | succ n ih =>
    have hn : n % 255 < 255 := Nat.mod_lt n (by decide)
    rw [Function.iterate_succ_apply', ← ih, ← gfExp_succ _ hn, ← Nat.mod_add_mod]
    obtain hlast | hinner : n % 255 + 1 = 255 ∨ n % 255 + 1 < 255 := by omega
    · rw [hlast, Nat.mod_self, gfExp_255]
    · rw [Nat.mod_eq_of_lt hinner]

theorem gfMul_gfExp_right (a : Byte) {k : Nat} (hk : k < 255) : gfMul a (gfExp k) = xtime^[k] a := by
  cases a using byte_cases with
  | zero => rw [gfMul_zero_left, iterate_xtime_zero]
  | power i hi =>
    rw [gfMul_gfExp hi hk, gfExp_mod, Nat.add_comm, Function.iterate_add_apply, ← gfExp_mod i, Nat.mod_eq_of_lt hi]

theorem gfMul_xor_left (a b c : Byte) : gfMul (a ^^^ b) c = gfMul a c ^^^ gfMul b c := by
  cases c using byte_cases with
  | zero => simp
  | power k hk => simp only [gfMul_gfExp_right _ hk, iterate_xtime_xor]

theorem gfMul_xor_right (a b c : Byte) : gfMul a (b ^^^ c) = gfMul a b ^^^ gfMul a c := by
  simp only [gfMul_comm a, gfMul_xor_left]

/-! ### Carry-less multiplication modulo 0x11D (R156 (e))

Both products are additive in each operand, so that they agree where they agree on the powers α^0 to α^7, the bytes with
one set bit. -/

theorem reduceModulo_xor (u v : Nat) : reduceModulo (u ^^^ v) = reduceModulo u ^^^ reduceModulo v := by
  refine List.foldl_hom₂ _ (· ^^^ ·) _ _ _ u v fun u v i => ?_
  rw [Nat.testBit_xor, ite_xor]

theorem carrylessProduct_xor_left (a a' b : Nat) :
    carrylessProduct (a ^^^ a') b = carrylessProduct a b ^^^ carrylessProduct a' b := by
  refine List.foldl_hom₂ _ (· ^^^ ·) _ _ _ 0 0 fun u v k => ?_
  rw [Nat.shiftLeft_xor_distrib]
  cases b.testBit k <;> simp [Nat.xor_comm, Nat.xor_left_comm]

theorem carrylessProduct_xor_right (a b b' : Nat) :
    carrylessProduct a (b ^^^ b') = carrylessProduct a b ^^^ carrylessProduct a b' := by
  refine List.foldl_hom₂ _ (· ^^^ ·) _ _ _ 0 0 fun u v k => ?_
  rw [Nat.testBit_xor, ite_xor]

theorem toNat_gfExp_of_lt_eight : ∀ k < 8, (gfExp k).toNat = 2 ^ k := by decide

theorem carrylessProduct_two_pow : ∀ i < 8, ∀ j < 8, carrylessProduct (2 ^ i) (2 ^ j) = 2 ^ (i + j) := by decide

theorem reduceModulo_two_pow : ∀ n < 15, reduceModulo (2 ^ n) = (gfExp n).toNat := by decide

/-- A byte is the sum of the powers of α at its set bits. -/
theorem eq_foldl_gfExp : ∀ a : Byte,
    a = (List.range 8).foldl (fun sum k => if a.getLsbD k then sum ^^^ gfExp k else sum) 0#8 := by
  decide +kernel

/-- What holds of the bytes with one set bit and passes to sums holds of every byte. -/
theorem byte_induction {P : Byte → Prop} (bit : ∀ k < 8, P (gfExp k)) (sum : ∀ a b, P a → P b → P (a ^^^ b)) (a : Byte) :
    P a := by
  have hzero : P 0#8 := by simpa using sum _ _ (bit 0 (by decide)) (bit 0 (by decide))
  rw [eq_foldl_gfExp a]
  refine List.foldlRecOn _ _ hzero fun b hb k hk => ?_
  split
  · exact sum b _ hb (bit k (List.mem_range.mp hk))
  · exact hb

theorem toNat_gfMul (a b : Byte) : (gfMul a b).toNat = reduceModulo (carrylessProduct a.toNat b.toNat) := by
  induction a using byte_induction with
  | sum a a' ha ha' =>
    rw [gfMul_xor_left, BitVec.toNat_xor, BitVec.toNat_xor, carrylessProduct_xor_left, reduceModulo_xor, ha, ha']
  | bit i hi =>
    induction b using byte_induction with
    | sum b b' hb hb' =>
      rw [gfMul_xor_right, BitVec.toNat_xor, BitVec.toNat_xor, carrylessProduct_xor_right, reduceModulo_xor, hb, hb']
    | bit j hj =>
      rw [gfMul_gfExp (by omega) (by omega), Nat.mod_eq_of_lt (by omega), toNat_gfExp_of_lt_eight i hi,
        toNat_gfExp_of_lt_eight j hj, carrylessProduct_two_pow i hi j hj, reduceModulo_two_pow _ (by omega)]

/-- Settles O33: on powers of α the laws are those of exponents modulo 255; sums go through `xtime`. -/
theorem fieldLaws : Obligations.FieldLaws := by
  unfold Obligations.FieldLaws
  refine ⟨gfMul_comm, gfMul_zero_right, fun a ha => ?_, fun i hi => gfLog?_gfExp i (Nat.lt_succ_of_le hi), gfMul_assoc,
    gfMul_xor_left, gfMul_one, fun a ha => ?_, toNat_gfMul⟩
  all_goals obtain ⟨k, hk, rfl⟩ := exists_gfExp_eq a ha
  · exact ⟨k, gfLog?_gfExp k hk, rfl⟩
  · exact ⟨k, gfLog?_gfExp k hk, gfMul_gfExp_inverse hk⟩

/-! ### The commands (R153, R154, R155) -/

theorem exec_gfMul (a b : Byte) (s : State) :
    exec (.gfMul a b) s = .next (s.setResult (zext32 (gfMul a b))).succeed := rfl

theorem exec_gfLog_gfExp {k : Nat} (hk : k < 255) (s : State) :
    exec (.gfLog (gfExp k)) s = .next (s.setResult (BitVec.ofNat 32 k)).succeed := by
  simp only [exec, execGfLog, gfLog?_gfExp k hk, complete_ok]

theorem zext32_gfMul (a b : Byte) :
    zext32 (gfMul a b) = BitVec.ofNat 32 (reduceModulo (carrylessProduct a.toNat b.toNat)) := by
  rw [← toNat_gfMul, BitVec.ofNat_toNat, zext32]

/-- Settles O34: the commands return the multiplier's product and the table entries. -/
theorem fieldCommandsReturnFieldValues : Obligations.FieldCommandsReturnFieldValues := by
  unfold Obligations.FieldCommandsReturnFieldValues
  refine ⟨fun s a b => ?product, fun _ _ _ => rfl, fun s a k ha hk => ?logarithm, fun _ => rfl,
    unusedBitsRaise_of_unusedMasks rfl, unusedBitsRaise_of_unusedMasks rfl, unusedBitsRaise_of_unusedMasks rfl⟩
  case product => rw [exec_gfMul, zext32_gfMul]; rfl
  case logarithm => rw [← ha, exec_gfLog_gfExp (Nat.lt_succ_of_le hk)]; rfl

end Sys2Proof.Machine
end

section
/-! SUPPORT. Reed-Solomon: polynomial values, the generator and its roots, the division of R172 as the spec's loop, its
linearity and syndromes, and the commands that load the generator (43_reed_solomon.md). -/

namespace Sys2Proof.Machine

/-! ### Values of polynomials

A value is additive in the coefficients of two polynomials of one length and goes with a scaling of them. -/

@[simp] theorem polyValue_nil (x : Byte) : polyValue [] x = 0#8 := rfl

theorem polyValue_zero_cons (p : List Byte) (x : Byte) : polyValue (0#8 :: p) x = polyValue p x := by
  simp [polyValue]

theorem polyValue_concat (p : List Byte) (c x : Byte) : polyValue (p ++ [c]) x = gfMul (polyValue p x) x ^^^ c := by
  simp [polyValue]

/-- Multiplying by a power of x keeps a root. -/
theorem polyValue_append_replicate_zero {p : List Byte} {x : Byte} (h : polyValue p x = 0#8) (m : Nat) :
    polyValue (p ++ List.replicate m 0#8) x = 0#8 := by
  induction m with
  | zero => simpa using h
  | succ m ih => rw [List.replicate_succ', ← List.append_assoc, polyValue_concat, ih]; simp

theorem polyValue_map_gfMul (p : List Byte) (c x : Byte) :
    polyValue (p.map (gfMul · c)) x = gfMul (polyValue p x) c := by
  induction p using List.reverseRecOn with
  | nil => simp
  | append_singleton p a ih =>
    rw [List.map_append, List.map_singleton, polyValue_concat, polyValue_concat, ih, gfMul_xor_left, gfMul_assoc,
      gfMul_assoc, gfMul_comm c]

theorem polyValue_zipWith_xor {p q : List Byte} (h : p.length = q.length) (x : Byte) :
    polyValue (List.zipWith (· ^^^ ·) p q) x = polyValue p x ^^^ polyValue q x := by
  induction p using List.reverseRecOn generalizing q with
  | nil => simp [List.length_eq_zero_iff.mp h.symm]
  | append_singleton p a ih =>
    obtain rfl | ⟨q, b, rfl⟩ := q.eq_nil_or_concat'
    · simp at h
    · have hlen : p.length = q.length := by simpa using h
      rw [List.zipWith_append hlen, List.zipWith_cons_cons, List.zipWith_nil_left, polyValue_concat, polyValue_concat,
        polyValue_concat, ih hlen, gfMul_xor_left]
      ac_rfl

/-- Filling a polynomial up with zeros makes room for a lower part. -/
theorem polyValue_append (p q : List Byte) (x : Byte) :
    polyValue (p ++ q) x = polyValue (p ++ List.replicate q.length 0#8) x ^^^ polyValue q x := by
  induction q using List.reverseRecOn with
  | nil => simp
  | append_singleton q c ih =>
    rw [← List.append_assoc, polyValue_concat, ih, List.length_append, List.length_singleton, List.replicate_succ',
      ← List.append_assoc, polyValue_concat, polyValue_concat, gfMul_xor_left, BitVec.xor_zero, BitVec.xor_assoc]

/-! ### The generator (R170, R171) -/

theorem mulLinear_getElem? (p : List Byte) (r : Byte) {k : Nat} (hk : k ≤ p.length) :
    (mulLinear p r)[k]? =
      some ((if k < p.length then p.getD k 0#8 else 0#8) ^^^ (if 1 ≤ k then gfMul (p.getD (k - 1) 0#8) r else 0#8)) := by
  have hhi : (p ++ [0#8])[k]? = some (if k < p.length then p.getD k 0#8 else 0#8) := by
    obtain hlt | rfl := hk.lt_or_eq
    · rw [if_pos hlt, List.getElem?_append_left hlt, List.getD_eq_getElem _ _ hlt, List.getElem?_eq_getElem hlt]
    · simp
  have hlo : (0#8 :: p.map (gfMul · r))[k]? = some (if 1 ≤ k then gfMul (p.getD (k - 1) 0#8) r else 0#8) := by
    cases k with
    | zero => rfl
    | succ k => simp [Nat.lt_of_succ_le hk]
  rw [mulLinear, List.getElem?_zipWith, hhi, hlo]

/-- `mulLinear` multiplies by x + r. -/
theorem polyValue_mulLinear (p : List Byte) (r x : Byte) :
    polyValue (mulLinear p r) x = gfMul (polyValue p x) (x ^^^ r) := by
  rw [mulLinear, polyValue_zipWith_xor (by simp), polyValue_concat, polyValue_zero_cons, polyValue_map_gfMul,
    gfMul_xor_right, BitVec.xor_zero]

/-- The factor of the last step has the new root; the earlier roots stay. -/
theorem polyValue_genPoly {n i : Nat} (hi : i < n) : polyValue (genPoly n) (gfExp i) = 0#8 := by
  induction n with
  | zero => omega
  | succ n ih =>
    rw [genPoly_succ, polyValue_mulLinear]
    obtain hlt | rfl := Nat.lt_succ_iff_lt_or_eq.mp hi
    · rw [ih hlt, gfMul_zero_left]
    · rw [BitVec.xor_self, gfMul_zero_right]

/-- Settles O35: each step multiplies by its linear factor. -/
theorem generatorIsTheProduct : Obligations.GeneratorIsTheProduct := by
  unfold Obligations.GeneratorIsTheProduct
  refine ⟨genPoly_zero, genPoly_succ, fun p r => ⟨mulLinear_length p r, fun k => mulLinear_getElem? p r⟩,
    fun n => ⟨genPoly_length n, ?_⟩, fun n i => polyValue_genPoly⟩
  obtain ⟨p, hp⟩ := genPoly_head n
  rw [hp, List.getElem?_cons_zero]

/-! ### One step of the division -/

@[simp] theorem xorInto_nil_left (ys : List Byte) : xorInto [] ys = [] := by cases ys <;> rfl

/-- XOR into the front is the xor with the sequence filled up with zeros. -/
theorem xorInto_eq_zipWith {xs ys : List Byte} (h : ys.length ≤ xs.length) :
    xorInto xs ys = List.zipWith (· ^^^ ·) xs (ys ++ List.replicate (xs.length - ys.length) 0#8) := by
  induction xs generalizing ys with
  | nil => simp
  | cons x xs ih =>
    cases ys with
    | nil => simpa [xorInto, List.replicate_succ] using ih (ys := []) (Nat.zero_le xs.length)
    | cons y ys => simpa [xorInto] using ih (Nat.le_of_succ_le_succ h)

/-- A copy scaled by zero is zero. -/
theorem xorInto_map_gfMul_zero (xs p : List Byte) : xorInto xs (p.map (gfMul · 0#8)) = xs := by
  induction xs generalizing p with
  | nil => simp
  | cons x xs ih =>
    cases p with
    | nil => rfl
    | cons k p => rw [List.map_cons, xorInto, ih, gfMul_zero_right, BitVec.xor_zero]

/-- Skipping the factors of zero (R172) changes nothing. -/
theorem divide_cons (g : List Byte) (len : Nat) (c : Byte) (rest : List Byte) :
    divide g (len + 1) (c :: rest) = divide g len (xorInto rest (g.tail.map (gfMul · c))) := by
  rw [divide]
  split
  case isTrue hc => rw [hc, xorInto_map_gfMul_zero]
  case isFalse => rfl

/-- A copy of the monic generator scaled by the leading byte cancels that byte. -/
theorem xorInto_map_genPoly (n : Nat) (c : Byte) (rest : List Byte) :
    xorInto (c :: rest) ((genPoly n).map (gfMul · c)) = 0#8 :: xorInto rest ((genPoly n).tail.map (gfMul · c)) := by
  obtain ⟨p, hp⟩ := genPoly_head n
  rw [hp, List.map_cons, xorInto, gfMul_comm, gfMul_one, BitVec.xor_self, List.tail_cons]

/-! ### The division is the spec's loop (R172) -/

/-- The inner loop over the coefficients of g is one `xorInto` behind the positions before the window. -/
theorem foldl_set_eq_xorInto (g : List Byte) (c : Byte) (front buf : List Byte) (h : g.length ≤ buf.length) :
    (List.range g.length).foldl
        (fun b k => b.set (front.length + k) (b.getD (front.length + k) 0#8 ^^^ gfMul (g.getD k 0#8) c)) (front ++ buf) =
      front ++ xorInto buf (g.map (gfMul · c)) := by
  induction g generalizing front buf with
  | nil => cases buf <;> rfl
  | cons a g ih =>
    obtain ⟨b, buf, rfl⟩ := List.exists_cons_of_length_pos (Nat.zero_lt_of_lt h)
    have ih := ih (front ++ [b ^^^ gfMul a c]) buf (Nat.le_of_succ_le_succ h)
    rw [List.length_append, List.length_singleton] at ih
    simpa [List.range_succ_eq_map, List.foldl_map, Nat.add_assoc, Nat.add_comm 1, xorInto] using ih

theorem xorWindow_eq_xorInto {g front buf : List Byte} {n : Nat} (c : Byte) (hg : g.length = n + 1)
    (h : g.length ≤ buf.length) :
    xorWindow g c n front.length (front ++ buf) = front ++ xorInto buf (g.map (gfMul · c)) := by
  rw [xorWindow, ← hg, foldl_set_eq_xorInto g c front buf h]

/-- One position of the spec's outer loop: buf[i] is the factor of the step. -/
def literalStep (g : List Byte) (n : Nat) (buf : List Byte) (i : Nat) : List Byte :=
  if buf.getD i 0#8 = 0#8 then buf else xorWindow g (buf.getD i 0#8) n i buf

theorem rsRemLiteral_eq_foldl (data : List Byte) (n : Nat) :
    rsRemLiteral data n =
      ((List.range data.length).foldl (literalStep (genPoly n) n) (data ++ List.replicate n 0#8)).drop data.length := rfl

theorem literalStep_eq_xorInto {n : Nat} (front : List Byte) (c : Byte) {rest : List Byte} (h : n ≤ rest.length) :
    literalStep (genPoly n) n (front ++ c :: rest) front.length =
      front ++ 0#8 :: xorInto rest ((genPoly n).tail.map (gfMul · c)) := by
  have hc : (front ++ c :: rest).getD front.length 0#8 = c := by simp
  rw [literalStep, hc]
  split
  case isTrue hzero => rw [hzero, xorInto_map_gfMul_zero]
  case isFalse =>
    rw [xorWindow_eq_xorInto c (genPoly_length n) (by simpa using h), xorInto_map_genPoly]

/-- The spec's outer loop leaves a zero at each position it has passed (R172), and behind them what `divide` computes. -/
theorem foldl_literalStep {n len : Nat} (front : List Byte) {buf : List Byte} (h : len + n ≤ buf.length) :
    (List.range' front.length len).foldl (literalStep (genPoly n) n) (front ++ buf) =
      front ++ List.replicate len 0#8 ++ divide (genPoly n) len buf := by
  induction len generalizing front buf with
  | zero => simp [divide]
  | succ len ih =>
    obtain ⟨c, rest, rfl⟩ := List.exists_cons_of_length_pos (l := buf) (by omega)
    rw [List.length_cons] at h
    have ih := ih (front ++ [0#8]) (buf := xorInto rest ((genPoly n).tail.map (gfMul · c))) (by simp; omega)
    rw [List.length_append, List.length_singleton] at ih
    rw [List.range'_succ, List.foldl_cons, literalStep_eq_xorInto front c (by omega), divide_cons]
    simpa [List.replicate_succ] using ih

theorem rsRem_eq_rsRemLiteral (data : List Byte) (n : Nat) : rsRem data n = rsRemLiteral data n := by
  have hloop := foldl_literalStep (n := n) (len := data.length) [] (buf := data ++ List.replicate n 0#8) (by simp)
  rw [List.length_nil, ← List.range_eq_range', List.nil_append, List.nil_append] at hloop
  rw [rsRemLiteral_eq_foldl, hloop, List.drop_left' List.length_replicate, rsRem]

/-- Settles O37: behind the positions it has passed, the spec's buffer is the buffer of `divide`. -/
theorem remainderIsTheSpecLoop : Obligations.RemainderIsTheSpecLoop := by
  unfold Obligations.RemainderIsTheSpecLoop
  exact rsRem_eq_rsRemLiteral

/-! ### Linearity (R177 (d)) -/

theorem xorInto_zipWith_xor {xs xs' ys ys' : List Byte} (hx : xs.length = xs'.length) (hy : ys.length = ys'.length) :
    xorInto (List.zipWith (· ^^^ ·) xs xs') (List.zipWith (· ^^^ ·) ys ys') =
      List.zipWith (· ^^^ ·) (xorInto xs ys) (xorInto xs' ys') := by
  induction xs generalizing xs' ys ys' with
  | nil => simp
  | cons x xs ih =>
    obtain ⟨x', xs', rfl⟩ := List.exists_cons_of_length_eq_add_one hx.symm
    cases ys with
    | nil => simp [List.length_eq_zero_iff.mp hy.symm, xorInto]
    | cons y ys =>
      obtain ⟨y', ys', rfl⟩ := List.exists_cons_of_length_eq_add_one hy.symm
      have ih := ih (Nat.succ_inj.mp hx) (Nat.succ_inj.mp hy)
      have hhead : x ^^^ x' ^^^ (y ^^^ y') = x ^^^ y ^^^ (x' ^^^ y') := by ac_rfl
      simp only [List.zipWith_cons_cons, xorInto, ih, hhead]

theorem map_gfMul_xor (p : List Byte) (c c' : Byte) :
    p.map (gfMul · (c ^^^ c')) = List.zipWith (· ^^^ ·) (p.map (gfMul · c)) (p.map (gfMul · c')) := by
  simp only [gfMul_xor_right, List.zipWith_map, List.zipWith_self]

theorem divide_zipWith_xor (g : List Byte) (len : Nat) {buf buf' : List Byte} (h : buf.length = buf'.length) :
    divide g len (List.zipWith (· ^^^ ·) buf buf') =
      List.zipWith (· ^^^ ·) (divide g len buf) (divide g len buf') := by
  induction len generalizing buf buf' with
  | zero => rfl
  | succ len ih =>
    cases buf with
    | nil => rfl
    | cons c rest =>
      obtain ⟨c', rest', rfl⟩ := List.exists_cons_of_length_eq_add_one h.symm
      have hrest : rest.length = rest'.length := Nat.succ_inj.mp h
      rw [List.zipWith_cons_cons, divide_cons, divide_cons, divide_cons, map_gfMul_xor, xorInto_zipWith_xor hrest (by simp),
        ih (by simpa using hrest)]

/-- Settles O39: every step of the division is additive in the buffer. -/
theorem remainderIsLinear : Obligations.RemainderIsLinear := by
  unfold Obligations.RemainderIsLinear
  refine ⟨rsRem_length, fun d1 d2 n h => ?_⟩
  have hbuf : List.zipWith (· ^^^ ·) d1 d2 ++ List.replicate n 0#8 =
      List.zipWith (· ^^^ ·) (d1 ++ List.replicate n 0#8) (d2 ++ List.replicate n 0#8) := by
    simp [List.zipWith_append h]
  rw [rsRem, hbuf, divide_zipWith_xor _ _ (by simpa using h), rsRem, rsRem, ← h, List.length_zipWith, ← h, Nat.min_self]

/-! ### Syndromes (R177 (c)) -/

/-- Subtracting a polynomial with root x, aligned at the highest powers, keeps the value at x. -/
theorem polyValue_xorInto {q buf : List Byte} {x : Byte} (hroot : polyValue q x = 0#8) (h : q.length ≤ buf.length) :
    polyValue (xorInto buf q) x = polyValue buf x := by
  rw [xorInto_eq_zipWith h, polyValue_zipWith_xor (by simp [h]), polyValue_append_replicate_zero hroot, BitVec.xor_zero]

/-- A step subtracts a multiple of the generator, so that the buffer keeps its value at each root. -/
theorem polyValue_divide {n i len : Nat} {buf : List Byte} (hi : i < n) (h : len + n ≤ buf.length) :
    polyValue (divide (genPoly n) len buf) (gfExp i) = polyValue buf (gfExp i) := by
  induction len generalizing buf with
  | zero => rfl
  | succ len ih =>
    obtain ⟨c, rest, rfl⟩ := List.exists_cons_of_length_pos (l := buf) (by omega)
    rw [List.length_cons] at h
    have hscaled : polyValue ((genPoly n).map (gfMul · c)) (gfExp i) = 0#8 := by
      rw [polyValue_map_gfMul, polyValue_genPoly hi, gfMul_zero_left]
    rw [divide_cons, ih (by rw [xorInto_length]; omega), ← polyValue_zero_cons, ← xorInto_map_genPoly,
      polyValue_xorInto hscaled (by rw [List.length_map, genPoly_length, List.length_cons]; omega)]

/-- Settles O40: the zero-filled data and the remainder have one value at each root, so that their xor, the codeword, has
the value 0. -/
theorem codewordSyndromesAreZero : Obligations.CodewordSyndromesAreZero := by
  unfold Obligations.CodewordSyndromesAreZero
  intro data n i _ hi
  have hrem : polyValue (rsRem data n) (gfExp i) = polyValue (data ++ List.replicate n 0#8) (gfExp i) :=
    polyValue_divide hi (by simp)
  rw [polyValue_append, rsRem_length, hrem, BitVec.xor_self]

/-! ### The commands (R173, R174, R175) -/

theorem State.loadGenerator_genDeg_toNat (s : State) {n : Nat} (hn : n ≤ Config.genMax) :
    (s.loadGenerator n).genDeg.toNat = n :=
  (BitVec.toNat_ofNat n 8).trans (Nat.mod_eq_of_lt (Nat.lt_succ_of_le hn))

/-- GEN[0..n] reads back as gen(n) after a load. -/
theorem genPoly_getElem?_eq_genByte (s : State) {n k : Nat} (hk : k ≤ n) :
    (genPoly n)[k]? = some ((s.loadGenerator n).genByte k) := by
  have hlt : k < (genPoly n).length := by rw [genPoly_length]; omega
  rw [s.loadGenerator_genByte, if_pos hk, List.getElem?_eq_getElem hlt, List.getD_eq_getElem _ _ hlt]

theorem State.loadGenerator_genByte_of_lt (s : State) {n k : Nat} (hk : n < k) :
    (s.loadGenerator n).genByte k = s.genByte k := by
  rw [s.loadGenerator_genByte, if_neg (Nat.not_le.mpr hk)]

/-- Settles O36: RS_GEN is one load of the generator; GEN_RD checks its index. -/
theorem generatorBufferCommands : Obligations.GeneratorBufferCommands := by
  unfold Obligations.GeneratorBufferCommands
  refine ⟨fun s n hn => ?load, fun s k hk => complete_check_of_not (Nat.not_lt.mpr hk), fun s k hk => complete_check_of hk,
    unusedBitsRaise_of_unusedMasks rfl, unusedBitsRaise_of_unusedMasks rfl⟩
  case load =>
    exact ⟨(s.loadGenerator n).succeed, rfl, rfl, s.loadGenerator_genDeg_toNat hn,
      fun k => genPoly_getElem?_eq_genByte s, fun k => s.loadGenerator_genByte_of_lt⟩

theorem exec_rsEnc_of_fits {s : State} {n src len dst : Nat} (hsrc : src + len ≤ s.params.cwBytes)
    (hdst : dst + n ≤ s.params.cwBytes) :
    exec (.rsEnc n src len dst) s =
      .next { s.loadGenerator n with cw := s.cw.writeBytes dst (rsRem (s.cwBytes src len) n) }.succeed := by
  rw [exec, execRsEnc, if_neg (Nat.not_lt.mpr hsrc), if_neg (Nat.not_lt.mpr hdst), complete_ok]

/-- The source range is checked before the destination, whatever the destination is. -/
theorem exec_rsEnc_of_source_past_end {s : State} {n src len dst : Nat} (hsrc : s.params.cwBytes < src + len) :
    exec (.rsEnc n src len dst) s = .next (s.failed .rangeError (src + len)) := by
  rw [exec, execRsEnc, if_pos hsrc, complete_error]

theorem exec_rsEnc_of_past_end {s : State} {n src len dst : Nat} (hsrc : src + len ≤ s.params.cwBytes)
    (hdst : s.params.cwBytes < dst + n) : exec (.rsEnc n src len dst) s = .next (s.failed .rangeError (dst + n)) := by
  rw [exec, execRsEnc, if_neg (Nat.not_lt.mpr hsrc), if_pos hdst, complete_error]

/-- Settles O38: RS_ENC is a load of the generator and a run of writes of the remainder of the source bytes of `s`. -/
theorem rsEncWritesTheRemainder : Obligations.RsEncWritesTheRemainder := by
  unfold Obligations.RsEncWritesTheRemainder
  refine ⟨fun s n src len dst hn hsrc hdst => ?fits, fun s n src len dst => exec_rsEnc_of_source_past_end,
    fun s n src len dst => exec_rsEnc_of_past_end⟩
  refine ⟨_, exec_rsEnc_of_fits hsrc hdst, rfl, fun k hk => ?written, fun a ha => ?kept, s.loadGenerator_genDeg_toNat hn,
    fun k => genPoly_getElem?_eq_genByte s, fun k => s.loadGenerator_genByte_of_lt⟩
  case written =>
    have hlt : k < (rsRem (s.cwBytes src len) n).length := by rwa [rsRem_length]
    have hget := List.getElem?_eq_getElem hlt
    have hbyte := (s.loadGenerator n).cwByte_of_writeBytes_inside dst hget
    rw [← State.cwBytes, ← rsRem_eq_rsRemLiteral, hget, ← hbyte]
    rfl
  case kept => exact (s.loadGenerator n).cwByte_of_writeBytes_outside (by rwa [rsRem_length])

end Sys2Proof.Machine
end

section
/-! SUPPORT. The BCH (15,5) format coder: its reduction modulo 0x537 as one round for each bit position, additive in the
value, and the table and the laws of its codes (44_format_bch.md). -/

namespace Sys2Proof.Machine

/-! ### Bit lengths (R13) -/

theorem bitlen_le_iff {v n : Nat} : bitlen v ≤ n ↔ v < 2 ^ n := by
  rw [bitlen]
  split
  case isTrue h => simp [h]
  case isFalse h => rw [Nat.succ_le_iff, Nat.log2_lt h]

theorem bitlen_eq_succ_of_testBit {v n : Nat} (hv : v < 2 ^ (n + 1)) (hbit : v.testBit n = true) : bitlen v = n + 1 :=
  Nat.le_antisymm (bitlen_le_iff.mpr hv) (Nat.lt_of_not_le fun h =>
    Nat.not_lt.mpr (Nat.ge_two_pow_of_testBit hbit) (bitlen_le_iff.mp h))

/-! ### The reduction goes bit by bit (R190)

The loop jumps from one leading bit to the next. It passes the clear bits between them as rounds that do nothing, and
rounds at fixed positions are additive where the loop's test of the leading bit is not. -/

/-- The round at position k: the generator's leading bit clears bit 10 + k if it is set. -/
def bchRound (k v : Nat) : Nat := if v.testBit (10 + k) then v ^^^ (0x537 <<< k) else v

/-- The rounds at the positions n - 1 down to 0. -/
def bchRounds : Nat → Nat → Nat
  | 0, v => v
  | n + 1, v => bchRounds n (bchRound n v)

theorem bchRound_xor (k u v : Nat) : bchRound k (u ^^^ v) = bchRound k u ^^^ bchRound k v := by
  rw [bchRound, Nat.testBit_xor, ite_xor, bchRound, bchRound]

theorem bchRounds_xor (n u v : Nat) : bchRounds n (u ^^^ v) = bchRounds n u ^^^ bchRounds n v := by
  induction n generalizing u v with
  | zero => rfl
  | succ n ih => rw [bchRounds, bchRound_xor, ih, bchRounds, bchRounds]

/-- From bit 10 + k on the value and the shifted generator are one bit each, and the two bits cancel. -/
theorem bchRound_lt {k v : Nat} (hv : v < 2 ^ (10 + (k + 1))) : bchRound k v < 2 ^ (10 + k) := by
  have hlead : v >>> (10 + k) = (v.testBit (10 + k)).toNat := by
    rw [Nat.toNat_testBit, Nat.shiftRight_eq_div_pow, Nat.mod_eq_of_lt]
    exact Nat.div_lt_of_lt_mul hv
  have hgen : (0x537 <<< k) >>> (10 + k) = 1 := by
    rw [Nat.add_comm, Nat.shiftRight_add, Nat.shiftLeft_shiftRight]; rfl
  have hclear : bchRound k v >>> (10 + k) = 0 := by
    rw [bchRound]
    split
    case isTrue hbit => rw [Nat.shiftRight_xor_distrib, hlead, hbit, hgen]; rfl
    case isFalse hbit => rw [hlead, Bool.eq_false_of_not_eq_true hbit, Bool.toNat_false]
  rwa [Nat.shiftRight_eq_div_pow, Nat.div_eq_zero_iff_lt (Nat.two_pow_pos _)] at hclear

theorem bchRounds_lt {n v : Nat} (hv : v < 2 ^ (10 + n)) : bchRounds n v < 2 ^ 10 := by
  induction n generalizing v with
  | zero => exact hv
  | succ n ih => exact ih (bchRound_lt hv)

theorem bchReduce_of_lt {fuel v : Nat} (hv : v < 2 ^ 10) : bchReduce fuel v = v := by
  cases fuel with
  | zero => rfl
  | succ fuel => rw [bchReduce, if_neg (Nat.not_le.mpr (Nat.lt_succ_of_le (bitlen_le_iff.mpr hv)))]

theorem bchReduce_eq_bchRounds {n fuel v : Nat} (hfuel : n ≤ fuel) (hv : v < 2 ^ (10 + n)) :
    bchReduce fuel v = bchRounds n v := by
  induction n generalizing fuel v with
  | zero => exact bchReduce_of_lt hv
  | succ n ih =>
    have hround := bchRound_lt hv
    rw [bchRounds]
    by_cases hbit : v.testBit (10 + n) = true
    · obtain ⟨fuel, rfl⟩ := Nat.exists_eq_add_of_lt hfuel
      have hlen : bitlen v = 11 + n := (bitlen_eq_succ_of_testBit hv hbit).trans (Nat.succ_add 10 n).symm
      rw [← ih (Nat.le_add_right n fuel) hround, bchReduce, hlen, if_pos (Nat.le_add_right 11 n),
        Nat.add_sub_cancel_left, bchRound, if_pos hbit]
    · rw [bchRound, if_neg hbit] at hround ⊢
      exact ih (Nat.le_of_succ_le hfuel) hround

/-! ### Codes without their mask (R192)

d · x^10 and its remainder share no bit, so that their union is their sum. -/

/-- The remainder of d · x^10 modulo 0x537. -/
def formatRemainder (d : Nat) : Nat := bchRounds 5 (d <<< 10)

theorem formatRemainder_xor (d e : Nat) : formatRemainder (d ^^^ e) = formatRemainder d ^^^ formatRemainder e := by
  rw [formatRemainder, Nat.shiftLeft_xor_distrib, bchRounds_xor, formatRemainder, formatRemainder]

theorem shiftLeft_or_eq_xor {i r : Nat} (hr : r < 2 ^ i) (d : Nat) : d <<< i ||| r = d <<< i ^^^ r := by
  refine Nat.eq_of_testBit_eq fun j => ?_
  rw [Nat.testBit_or, Nat.testBit_xor, Nat.testBit_shiftLeft]
  obtain hj | hj := Nat.lt_or_ge j i
  · simp [Nat.not_le.mpr hj]
  · simp [Nat.testBit_lt_two_pow (hr.trans_le (Nat.pow_le_pow_right Nat.two_pos hj))]

section
variable {d : Nat} (hd : d < 32)
include hd

theorem shiftLeft_ten_lt : d <<< 10 < 2 ^ 15 := Nat.shiftLeft_lt (n := 5) hd

theorem formatRemainder_lt : formatRemainder d < 2 ^ 10 := bchRounds_lt (shiftLeft_ten_lt hd)

theorem bchFormat_xor_mask : bchFormat d ^^^ 0x5412 = d <<< 10 ^^^ formatRemainder d := by
  rw [bchFormat, Nat.xor_xor_cancel_right, bchReduce_eq_bchRounds le_rfl (shiftLeft_ten_lt hd), ← formatRemainder,
    shiftLeft_or_eq_xor (formatRemainder_lt hd)]

theorem bchFormat_xor_mask_shiftRight : (bchFormat d ^^^ 0x5412) >>> 10 = d := by
  rw [bchFormat_xor_mask hd, Nat.shiftRight_xor_distrib, Nat.shiftLeft_shiftRight,
    Nat.shiftRight_eq_zero _ _ (formatRemainder_lt hd), Nat.xor_zero]

theorem bchFormat_xor_mask_mod : (bchFormat d ^^^ 0x5412) % 1024 = formatRemainder d := by
  rw [bchFormat_xor_mask hd, Nat.xor_mod_two_pow (n := 10), Nat.mod_eq_of_lt (formatRemainder_lt hd),
    Nat.shiftLeft_eq, Nat.mul_mod_left, Nat.zero_xor]

/-- The remainder is its own remainder, so that the sum of d · x^10 and its remainder has the remainder 0. -/
theorem bchReduce_bchFormat_xor_mask : bchReduce 5 (bchFormat d ^^^ 0x5412) = 0 := by
  have hrem := formatRemainder_lt hd
  have hcode : d <<< 10 ^^^ formatRemainder d < 2 ^ 15 :=
    Nat.xor_lt_two_pow (shiftLeft_ten_lt hd) (hrem.trans (by decide))
  rw [bchFormat_xor_mask hd, bchReduce_eq_bchRounds le_rfl hcode, bchRounds_xor, ← formatRemainder,
    ← bchReduce_eq_bchRounds le_rfl (hrem.trans (by decide)), bchReduce_of_lt hrem, Nat.xor_self]

end

theorem bchFormat_injOn {d e : Nat} (hd : d < 32) (he : e < 32) (h : bchFormat d = bchFormat e) : d = e := by
  rw [← bchFormat_xor_mask_shiftRight hd, h, bchFormat_xor_mask_shiftRight he]

/-! ### FMT_ENC (R191) -/

/-- The code table of R192. -/
def formatCodes : List Nat :=
  [0x5412, 0x5125, 0x5E7C, 0x5B4B, 0x45F9, 0x40CE, 0x4F97, 0x4AA0, 0x77C4, 0x72F3, 0x7DAA, 0x789D, 0x662F, 0x6318, 0x6C41,
    0x6976, 0x1689, 0x13BE, 0x1CE7, 0x19D0, 0x0762, 0x0255, 0x0D0C, 0x083B, 0x355F, 0x3068, 0x3F31, 0x3A06, 0x24B4, 0x2183,
    0x2EDA, 0x2BED]

theorem bchFormat_eq_formatCodes : ∀ d < 32, bchFormat d = formatCodes.getD d 0 := by decide

theorem exec_fmtEnc (d : BitVec 5) (s : State) :
    exec (.fmtEnc d) s = .next (s.setResult (BitVec.ofNat 32 (formatCodes.getD d.toNat 0))).succeed := by
  rw [← bchFormat_eq_formatCodes d.toNat d.isLt]
  rfl

/-- Settles O41: FMT_ENC is a read of the table; the laws are those of the remainder, which is additive. -/
theorem formatCodeTableAndLaws : Obligations.FormatCodeTableAndLaws := by
  unfold Obligations.FormatCodeTableAndLaws
  refine ⟨fun s d => exec_fmtEnc d s, fun d hd => ⟨bchFormat_xor_mask_shiftRight hd, bchReduce_bchFormat_xor_mask hd⟩,
    fun d e => bchFormat_injOn, fun d e hd he => ?linear, unusedBitsRaise_of_unusedMasks rfl⟩
  case linear =>
    have hsum : d ^^^ e < 32 := Nat.xor_lt_two_pow (n := 5) hd he
    rw [bchFormat_xor_mask_mod hsum, formatRemainder_xor, bchFormat_xor_mask_mod hd, bchFormat_xor_mask_mod he]

end Sys2Proof.Machine
end

section
/-! SUPPORT. The matrix builder's commands: the mask formulas, the order of the phases, a fresh grid and the reads of the
grid (45_matrix.md R200, R201, R211, R212, R226 to R228). -/

namespace Sys2Proof.Machine

/-! ### MASK_EVAL (R211, R212) -/

/-- The formulas of R211, for every number of a pattern; a number over 7 has none and flips nothing. -/
theorem maskFlip_eq_true_iff {p i j : Nat} : maskFlip p i j = true ↔
    (p = 0 ∧ (i + j) % 2 = 0) ∨ (p = 1 ∧ i % 2 = 0) ∨ (p = 2 ∧ j % 3 = 0) ∨ (p = 3 ∧ (i + j) % 3 = 0) ∨
      (p = 4 ∧ (i / 2 + j / 3) % 2 = 0) ∨ (p = 5 ∧ (i * j) % 2 + (i * j) % 3 = 0) ∨
      (p = 6 ∧ ((i * j) % 2 + (i * j) % 3) % 2 = 0) ∨ (p = 7 ∧ ((i * j) % 3 + (i + j) % 2) % 2 = 0) := by
  match p with
  | 0 | 1 | 2 | 3 | 4 | 5 | 6 | 7 | _ + 8 => simp [maskFlip]

theorem ofNat_toNat_bool (b : Bool) : BitVec.ofNat 32 b.toNat = if b = true then 1#32 else 0#32 := by
  cases b <;> rfl

theorem exec_maskEval_of_le {p : Nat} (hp : p ≤ 7) (i j : Nat) (s : State) :
    exec (.maskEval p i j) s = .next (s.setResult (if maskFlip p i j = true then 1#32 else 0#32)).succeed := by
  rw [← ofNat_toNat_bool]
  exact complete_check_of_not (Nat.not_lt.mpr hp)

/-- Settles O42: the result is 1 exactly where the formula of the pattern holds. -/
theorem maskEvalComputesTheFormulas : Obligations.MaskEvalComputesTheFormulas := by
  unfold Obligations.MaskEvalComputesTheFormulas
  refine ⟨fun s i j p hp => ?_, fun s i j p hp => complete_check_of hp, unusedBitsRaise_of_unusedMasks rfl⟩
  simp only [exec_maskEval_of_le hp, maskFlip_eq_true_iff]
  rfl

/-! ### A fresh grid (R201) -/

/-- The state after a successful MX_ALLOC, the report aside. -/
def State.freshGrid (s : State) : State :=
  { s with grid := List.replicate (s.sideN * s.sideN) .unset, phase := .allocated }

theorem allocGrid_of_configured {s : State} (hv : s.cfgValid = true) : s.allocGrid = .ok s.freshGrid := if_pos hv

theorem exec_mxAlloc_of_configured {s : State} (hv : s.cfgValid = true) :
    exec .mxAlloc s = .next s.freshGrid.succeed := by
  rw [exec, execMxAlloc, allocGrid_of_configured hv, complete_ok]

theorem exec_mxAlloc_of_unconfigured {s : State} (hv : s.cfgValid = false) :
    exec .mxAlloc s = .next (s.failed .unsupportedConfiguration 0) := by
  rw [exec, execMxAlloc, State.allocGrid, hv, if_neg (by decide), complete_error]

/-- Settles O44: the fresh grid is N · N copies of UNSET. -/
theorem mxAllocGivesAFreshGrid : Obligations.MxAllocGivesAFreshGrid := by
  unfold Obligations.MxAllocGivesAFreshGrid
  refine ⟨fun s hv => ?_, fun s hv => exec_mxAlloc_of_unconfigured hv, unusedBitsRaise_of_unusedMasks rfl⟩
  exact ⟨_, exec_mxAlloc_of_configured hv, rfl, List.length_replicate, fun cell => List.eq_of_mem_replicate⟩

/-! ### Commands behind a phase check (R200) -/

section
variable {s : State} {p : Phase} {f : Unit → Except Raise State}

theorem complete_requirePhase_of_eq (h : s.phase = p) : complete s (requirePhase s p >>= f) = complete s (f ()) := by
  rw [requirePhase_of_eq h, except_bind_ok]

theorem complete_requirePhase_of_ne (h : s.phase ≠ p) :
    complete s (requirePhase s p >>= f) = .next (s.failed .sequenceError s.phase.code.toNat) := by
  rw [requirePhase_of_ne h, except_bind_error, complete_error]

end

/-- A command that needs phase `p` and raises SequenceError in every other; where it succeeds, it leads to phase `q`. -/
structure LeadsFrom (p q : Phase) (i : Instr) : Prop where
  refused : ∀ s : State, s.phase ≠ p → exec i s = .next (s.failed .sequenceError s.phase.code.toNat)
  leads : ∀ s t : State, exec i s = .next t → t.err = none → s.phase = p ∧ t.phase = q

theorem leadsFrom_of_body {p q : Phase} {i : Instr} {body : State → Except Raise State}
    (hexec : ∀ s, exec i s = complete s (requirePhase s p >>= fun _ => body s))
    (hbody : ∀ s u, body s = .ok u → u.phase = q) : LeadsFrom p q i where
  refused s h := (hexec s).trans (complete_requirePhase_of_ne h)
  leads s t h herr := by
    rw [hexec] at h
    obtain ⟨u, hu, rfl⟩ | ⟨e, -, rfl⟩ := complete_eq_next.mp h
    · obtain ⟨_, hphase, hu⟩ := except_bind_eq_ok.mp hu
      exact ⟨requirePhase_eq_ok.mp hphase, hbody s u hu⟩
    · cases herr

theorem leadsFrom_mxFinder : LeadsFrom .allocated .finderDone .mxFinder :=
  leadsFrom_of_body (fun _ => rfl) fun s _ hu => Except.ok.inj hu ▸ s.stampFinder_phase

theorem leadsFrom_mxAlign : LeadsFrom .finderDone .alignDone .mxAlign :=
  leadsFrom_of_body (fun _ => rfl) fun s _ hu => Except.ok.inj hu ▸ s.stampAlign_phase

theorem leadsFrom_mxTiming : LeadsFrom .alignDone .timingDone .mxTiming :=
  leadsFrom_of_body (fun _ => rfl) fun s _ hu => Except.ok.inj hu ▸ s.stampTiming_phase

theorem leadsFrom_mxFormat : LeadsFrom .timingDone .formatDone .mxFormat :=
  leadsFrom_of_body (fun _ => rfl) fun _ _ hu => by obtain ⟨-, rfl⟩ := stampFormat_eq_ok.mp hu; rfl

theorem leadsFrom_mxPlace (src count : Nat) : LeadsFrom .formatDone .done (.mxPlace src count) :=
  leadsFrom_of_body (fun _ => rfl) fun _ _ hu => by obtain ⟨-, -, rfl⟩ := placeCodewords_eq_ok.mp hu; rfl

/-! ### No way back but MX_ALLOC and CFG_SET (R200) -/

theorem buildGrid_phase {s u : State} (h : s.buildGrid = .ok u) : u.phase = .done := by
  obtain ⟨a, -, h⟩ := except_bind_eq_ok.mp h
  obtain ⟨b, -, h⟩ := except_bind_eq_ok.mp h
  obtain ⟨-, -, rfl⟩ := placeCodewords_eq_ok.mp h
  rfl

/-- An ENCODE that succeeds leaves a finished grid (46_assembly.md R246). -/
theorem exec_encode_phase {s t : State} (h : exec .encode s = .next t) (herr : t.err = none) : t.phase = .done := by
  obtain ⟨u, hu, rfl⟩ | ⟨e, -, rfl⟩ := complete_eq_next.mp h
  · obtain ⟨a, -, hu⟩ := except_bind_eq_ok.mp hu
    obtain ⟨g, hg, ⟨⟩⟩ := except_bind_eq_ok.mp hu
    exact (buildGrid_phase hg : g.phase = .done)
  · cases herr

/-- The commands that write neither the grid nor the configuration keep the phase. -/
theorem Change.phase_eq {i : Instr} {s t : State} (h : Change i s t) (hi : opcodeOf i ∉ gridWriters)
    (hcfg : ∀ ecl ver, i ≠ .cfgSet ecl ver) : t.phase = s.phase := by
  have hformat : registerWriters 14 ⊆ gridWriters := by decide
  have hdata : registerWriters 15 ⊆ gridWriters := by decide
  cases h
  case configuration hset _ => exact absurd hset (hcfg _ _)
  case freshGrid hop _ | finder hop _ | align hop _ | timing hop _ => exact absurd hop hi
  case format hop _ => exact absurd (hformat hop) hi
  case data hop _ _ _ => exact absurd (hdata hop) hi
  all_goals rfl

theorem LeadsFrom.rises {p q : Phase} {i : Instr} (h : LeadsFrom p q i) (hpq : p.code.toNat ≤ q.code.toNat) {s t : State}
    (hexec : exec i s = .next t) (herr : t.err = none) : s.phase.code.toNat ≤ t.phase.code.toNat := by
  obtain ⟨rfl, rfl⟩ := h.leads s t hexec herr
  exact hpq

theorem Phase.code_le_done (p : Phase) : p.code.toNat ≤ Phase.done.code.toNat := by cases p <;> decide

/-- Every success but that of MX_ALLOC and of CFG_SET keeps the phase or raises it. -/
theorem exec_phase_rises {i : Instr} {s t : State} (halloc : i ≠ .mxAlloc) (hcfg : ∀ ecl ver, i ≠ .cfgSet ecl ver)
    (h : exec i s = .next t) (herr : t.err = none) : s.phase.code.toNat ≤ t.phase.code.toNat := by
  by_cases hi : opcodeOf i ∈ gridWriters
  · cases i
    case mxAlloc => exact absurd rfl halloc
    case mxFinder => exact leadsFrom_mxFinder.rises (by decide) h herr
    case mxAlign => exact leadsFrom_mxAlign.rises (by decide) h herr
    case mxTiming => exact leadsFrom_mxTiming.rises (by decide) h herr
    case mxFormat => exact leadsFrom_mxFormat.rises (by decide) h herr
    case mxPlace src count => exact (leadsFrom_mxPlace src count).rises (by decide) h herr
    case encode => rw [exec_encode_phase h herr]; exact s.phase.code_le_done
    all_goals simp [opcodeOf, gridWriters] at hi
  · exact (congrArg (fun p : Phase => p.code.toNat)
      (exec_keeps State.phase (fun _ _ hc => hc.phase_eq hi hcfg) (fun _ => rfl) (fun _ _ => rfl) h)).ge

/-- Settles O43: the five phases are `LeadsFrom`; of the others only MX_ALLOC and CFG_SET can lower the phase. -/
theorem buildCommandsFollowThePhaseOrder : Obligations.BuildCommandsFollowThePhaseOrder := by
  unfold Obligations.BuildCommandsFollowThePhaseOrder
  have row {p q : Phase} {i : Instr} (h : LeadsFrom p q i) (s : State) :
      (s.phase.code ≠ p.code → exec i s = .next (s.failed .sequenceError s.phase.code.toNat)) ∧
        ∀ t, exec i s = .next t → t.err = none → s.phase.code = p.code ∧ t.phase.code = q.code := by
    simpa only [ne_eq, Phase.code_inj] using And.intro (h.refused s) (h.leads s)
  refine ⟨fun s => exec_mxAlloc_of_unconfigured, fun s hv => ⟨_, exec_mxAlloc_of_configured hv, rfl, rfl⟩,
    fun s src count => ?rows, fun i s t h hlower => ?back⟩
  case rows =>
    simp only [List.forall_mem_cons, List.not_mem_nil, false_implies, implies_true, and_true]
    exact ⟨row leadsFrom_mxFinder s, row leadsFrom_mxAlign s, row leadsFrom_mxTiming s, row leadsFrom_mxFormat s,
      row (leadsFrom_mxPlace src count) s⟩
  case back =>
    by_contra hi
    push Not at hi
    obtain ⟨halloc, hcfg⟩ := hi
    obtain ⟨u, -, rfl⟩ | ⟨e, x, rfl⟩ := exec_cases h
    · exact absurd (exec_phase_rises halloc hcfg h rfl) hlower.not_ge
    · exact absurd hlower (lt_irrefl _)

/-! ### Reads of the grid (R226, R227, R228) -/

section
variable {s : State} {r c : Nat}

theorem requireInside_of_lt (hr : r < s.sideN) (hc : c < s.sideN) : requireInside s r c = .ok () :=
  if_neg (by omega)

theorem requireInside_of_ge (h : s.sideN ≤ r ∨ s.sideN ≤ c) :
    requireInside s r c = .error ⟨.indexError, (r <<< 16) ||| c⟩ := if_pos h

theorem exec_mxRead_of_none (h : s.phase = .none) (r c : Nat) :
    exec (.mxRead r c) s = .next (s.failed .sequenceError 0) := by
  rw [exec, execMxRead, if_pos h, complete_error]

/-- With a grid, MX_READ checks the coordinates only. -/
theorem exec_mxRead_of_grid (h : s.phase ≠ .none) (r c : Nat) :
    exec (.mxRead r c) s =
      complete s (requireInside s r c >>= fun _ => .ok (s.setResult (cellAt s.sideN s.grid r c).code)) := by
  rw [exec, execMxRead, if_neg h]

/-- On the finished grid, MX_ISDARK checks the coordinates only. -/
theorem exec_mxIsdark_of_done (h : s.phase = .done) (r c : Nat) :
    exec (.mxIsdark r c) s = complete s (requireInside s r c >>= fun _ =>
      .ok (s.setResult (if cellAt s.sideN s.grid r c = .dark then 1#32 else 0#32))) :=
  complete_requirePhase_of_eq h

end

/-- Settles O51: each read makes its checks in order and then returns what stands in the grid or in SIDE. -/
theorem gridReads : Obligations.GridReads := by
  unfold Obligations.GridReads
  refine ⟨fun s r c hp hr hc => ?_, fun s r c hp hr hc => ?_, fun s hp => complete_requirePhase_of_eq hp,
    fun s r c hp => exec_mxRead_of_none hp r c,
    fun s r c hp => ⟨complete_requirePhase_of_ne hp, complete_requirePhase_of_ne hp⟩,
    fun s r c hout => ⟨fun hp => ?_, fun hp => ?_⟩,
    unusedBitsRaise_of_unusedMasks rfl, unusedBitsRaise_of_unusedMasks rfl, unusedBitsRaise_of_unusedMasks rfl⟩
  · rw [exec_mxRead_of_grid hp, requireInside_of_lt hr hc]
    cases cellAt s.sideN s.grid r c <;> rfl
  · rw [exec_mxIsdark_of_done hp, requireInside_of_lt hr hc]
    rfl
  · rw [exec_mxRead_of_grid hp, requireInside_of_ge hout, except_bind_error, complete_error]
  · rw [exec_mxIsdark_of_done hp, requireInside_of_ge hout, except_bind_error, complete_error]

end Sys2Proof.Machine
end

section
/-! SUPPORT. The structural patterns on the grid: which cells the finder, timing and format stamps name, and what the grid
holds after them (45_matrix.md R202, R203, R206 to R210). -/

namespace Sys2Proof.Machine

/-! ### A run of stamps (00_scope.md R16) -/

section
variable {N : Nat} {grid : List GridCell} (hg : grid.length = N * N) {r c : Nat} (hr : r < N) (hc : c < N)
include hg hr hc

/-- An UNSET cell takes the value of a stamp of the run that names it, or stays UNSET where none does. -/
theorem cellAt_stampAll_of_unset (stamps : List Stamp) (h : cellAt N grid r c = .unset) :
    (∃ st ∈ stamps, st.row = r ∧ st.col = c ∧ cellAt N (stampAll N grid stamps) r c = GridCell.ofBit st.dark) ∨
      (∀ st ∈ stamps, ¬(st.row = r ∧ st.col = c)) ∧ cellAt N (stampAll N grid stamps) r c = .unset := by
  rw [cellAt_stampAll hg stamps hr hc, if_neg (not_not_intro h)]
  cases hfind : stamps.find? (fun st => st.at r c) with
  | none => exact .inr ⟨by simpa [Stamp.at] using List.find?_eq_none.mp hfind, rfl⟩
  | some st =>
    have hat : st.row = r ∧ st.col = c := by simpa [Stamp.at] using List.find?_some hfind
    exact .inl ⟨st, List.mem_of_find?_eq_some hfind, hat.1, hat.2, rfl⟩

/-- A cell that no stamp of the run names keeps its value. -/
theorem cellAt_stampAll_of_not_named {stamps : List Stamp} (h : ∀ st ∈ stamps, ¬(st.row = r ∧ st.col = c)) :
    cellAt N (stampAll N grid stamps) r c = cellAt N grid r c := by
  by_cases hu : cellAt N grid r c = .unset
  · obtain ⟨st, hst, hrow, hcol, -⟩ | ⟨-, hstay⟩ := cellAt_stampAll_of_unset hg hr hc stamps hu
    · exact absurd ⟨hrow, hcol⟩ (h st hst)
    · rw [hstay, hu]
  · exact stampAll_keeps hg stamps hr hc hu

/-- An UNSET cell takes the value of a stamp that names it when all that name it agree. -/
theorem cellAt_stampAll_of_named {stamps : List Stamp} {st : Stamp} (hst : st ∈ stamps) (hrow : st.row = r)
    (hcol : st.col = c) (hagree : ∀ st' ∈ stamps, st'.row = r → st'.col = c → st'.dark = st.dark)
    (hu : cellAt N grid r c = .unset) : cellAt N (stampAll N grid stamps) r c = GridCell.ofBit st.dark := by
  obtain ⟨st', hst', hrow', hcol', hset⟩ | ⟨hnone, -⟩ := cellAt_stampAll_of_unset hg hr hc stamps hu
  · rw [hset, hagree st' hst' hrow' hcol']
  · exact absurd ⟨hrow, hcol⟩ (hnone st hst)

end

/-! ### A square pattern (R202, R204) -/

/-- The stamps of a square pattern around (R, C): the offsets lo, …, lo + n − 1 in both directions. -/
def patternStamps (lo : Int) (n : Nat) (dark : Int → Int → Bool) (R C : Int) : List Stamp :=
  (offsets lo n).flatMap fun r => (offsets lo n).map fun c => ⟨R + r, C + c, dark r c⟩

theorem finderStampsAt_eq (R C : Int) : finderStampsAt R C = patternStamps (-1) 9 finderDark R C := rfl

theorem alignStampsAt_eq (a b : Nat) : alignStampsAt a b = patternStamps (-2) 5 alignDark a b := rfl

theorem mem_patternStamps {lo : Int} {n : Nat} {dark : Int → Int → Bool} {R C : Int} {st : Stamp} :
    st ∈ patternStamps lo n dark R C ↔
      (lo ≤ st.row - R ∧ st.row - R < lo + n) ∧ (lo ≤ st.col - C ∧ st.col - C < lo + n) ∧
        st.dark = dark (st.row - R) (st.col - C) := by
  simp only [patternStamps, List.mem_flatMap, List.mem_map, mem_offsets]
  constructor
  · rintro ⟨r, hr, c, hc, rfl⟩
    simp only [add_sub_cancel_left]
    exact ⟨hr, hc, trivial⟩
  · rintro ⟨hr, hc, hdark⟩
    refine ⟨st.row - R, hr, st.col - C, hc, ?_⟩
    rw [add_sub_cancel, add_sub_cancel, ← hdark]

/-- Stamping a square pattern: a set cell stays; an UNSET cell of the square takes the pattern. -/
theorem cellAt_patternStamps {N : Nat} {grid : List GridCell} (hg : grid.length = N * N) (lo : Int) (n : Nat)
    (dark : Int → Int → Bool) (R C : Int) {r c : Nat} (hr : r < N) (hc : c < N) :
    cellAt N (stampAll N grid (patternStamps lo n dark R C)) r c =
      if cellAt N grid r c ≠ .unset then cellAt N grid r c
      else if (lo ≤ (r : Int) - R ∧ (r : Int) - R < lo + n) ∧ (lo ≤ (c : Int) - C ∧ (c : Int) - C < lo + n) then
        GridCell.ofBit (dark (r - R) (c - C))
      else .unset := by
  by_cases hu : cellAt N grid r c = .unset
  · rw [if_neg (not_not_intro hu)]
    obtain ⟨st, hst, hrow, hcol, hset⟩ | ⟨hnone, hstay⟩ := cellAt_stampAll_of_unset hg hr hc (patternStamps lo n dark R C) hu
    · obtain ⟨hin, hin', hdark⟩ := mem_patternStamps.mp hst
      rw [hrow] at hin hdark
      rw [hcol] at hin' hdark
      rw [hset, hdark, if_pos ⟨hin, hin'⟩]
    · rw [hstay, if_neg fun hin => ?_]
      exact hnone ⟨r, c, dark (r - R) (c - C)⟩ (mem_patternStamps.mpr ⟨hin.1, hin.2, rfl⟩) ⟨rfl, rfl⟩
  · rw [stampAll_keeps hg _ hr hc hu, if_pos hu]

/-! ### MX_FINDER (R202, R203) -/

theorem finderDark_picture :
    ((List.range 9).map fun r =>
      String.ofList ((List.range 9).map fun c => if finderDark ((r : Int) - 1) ((c : Int) - 1) then '#' else '.')) =
    [".........", ".#######.", ".#.....#.", ".#.###.#.", ".#.###.#.", ".#.###.#.", ".#.....#.", ".#######.", "........."] := by
  decide

/-- Where corners overlap, at sides that no configuration gives, the first one in the order of R203 counts. -/
theorem cellAt_finderStamps {N : Nat} {grid : List GridCell} (hg : grid.length = N * N) {r c : Nat} (hr : r < N)
    (hc : c < N) :
    cellAt N (stampAll N grid (finderStamps N)) r c =
      if cellAt N grid r c ≠ .unset then cellAt N grid r c
      else if r ≤ 7 ∧ c ≤ 7 then GridCell.ofBit (finderDark r c)
      else if r ≤ 7 ∧ N ≤ c + 8 then GridCell.ofBit (finderDark r ((c : Int) - ((N : Int) - 7)))
      else if N ≤ r + 8 ∧ c ≤ 7 then GridCell.ofBit (finderDark ((r : Int) - ((N : Int) - 7)) c)
      else .unset := by
  have hlow (x : Nat) : (-1 ≤ (x : Int) - 0 ∧ (x : Int) - 0 < -1 + (9 : Nat)) ↔ x ≤ 7 := by omega
  have hhigh (x : Nat) (hx : x < N) :
      (-1 ≤ (x : Int) - ((N : Int) - 7) ∧ (x : Int) - ((N : Int) - 7) < -1 + (9 : Nat)) ↔ N ≤ x + 8 := by omega
  simp only [finderStamps, finderStampsAt_eq, stampAll_append]
  rw [cellAt_patternStamps (by simpa using hg) _ _ _ _ _ hr hc, cellAt_patternStamps (by simpa using hg) _ _ _ _ _ hr hc,
    cellAt_patternStamps hg _ _ _ _ _ hr hc]
  simp only [hlow, hhigh r hr, hhigh c hc]
  by_cases hu : cellAt N grid r c = .unset
  · simp only [hu, ne_eq, not_true, if_false, sub_zero]
    by_cases htop : r ≤ 7 ∧ c ≤ 7
    · simp [if_pos htop]
    by_cases hright : r ≤ 7 ∧ N ≤ c + 8
    · simp [if_neg htop, if_pos hright]
    · simp [if_neg htop, if_neg hright]
  · simp [hu]

/-- The phase command in its own phase ends in its stamps. -/
theorem exec_mxFinder_of_phase {s : State} (hp : s.phase = .allocated) : exec .mxFinder s = .next s.stampFinder.succeed :=
  complete_requirePhase_of_eq hp

/-- The grid is generalized, since a comparison of the states would otherwise evaluate the literal list of stamps. -/
theorem State.stampFinder_succeed_eq (s : State) :
    s.stampFinder.succeed =
      { s with grid := s.stampFinder.succeed.grid, phase := .finderDone, err := none, errInfo := 0#32 } := by
  rw [State.succeed_grid, State.stampFinder]
  generalize stampAll s.sideN s.grid (finderStamps s.sideN) = grid
  rfl

/-- Settles O45: the three patterns are stamped corner by corner. -/
theorem mxFinderStampsTheThreeCorners : Obligations.MxFinderStampsTheThreeCorners := by
  unfold Obligations.MxFinderStampsTheThreeCorners
  refine ⟨finderDark_picture, fun s hinv hp => ?_, leadsFrom_mxFinder.refused, unusedBitsRaise_of_unusedMasks rfl⟩
  obtain ⟨-, -, hg⟩ := hinv.allocated hp (by decide)
  refine ⟨_, exec_mxFinder_of_phase hp, s.stampFinder_succeed_eq, fun r c hr hc => ?_⟩
  rw [State.succeed_grid, State.stampFinder_grid, cellAt_finderStamps hg hr hc]

/-! ### MX_TIMING (R206, R207) -/

theorem cellAt_timingStamps {N : Nat} {grid : List GridCell} (hg : grid.length = N * N) {r c : Nat} (hr : r < N)
    (hc : c < N) :
    cellAt N (stampAll N grid (timingStamps N)) r c =
      if cellAt N grid r c ≠ .unset then cellAt N grid r c
      else if r = 6 ∧ 8 ≤ c ∧ c + 9 ≤ N then GridCell.ofBit (decide (c % 2 = 0))
      else if c = 6 ∧ 8 ≤ r ∧ r + 9 ≤ N then GridCell.ofBit (decide (r % 2 = 0))
      else .unset := by
  by_cases hu : cellAt N grid r c = .unset
  · rw [if_neg (not_not_intro hu)]
    obtain ⟨st, hst, hrow, hcol, hset⟩ | ⟨hnone, hstay⟩ := cellAt_stampAll_of_unset hg hr hc (timingStamps N) hu
    · obtain ⟨k, hk8, hk9, rfl | rfl⟩ := mem_timingStamps.mp hst
      · obtain rfl : r = 6 := Int.ofNat_inj.mp hrow.symm
        obtain rfl : c = k := Int.ofNat_inj.mp hcol.symm
        rw [hset, if_pos ⟨rfl, hk8, hk9⟩]
      · obtain rfl : r = k := Int.ofNat_inj.mp hrow.symm
        obtain rfl : c = 6 := Int.ofNat_inj.mp hcol.symm
        rw [hset, if_neg (by omega), if_pos ⟨rfl, hk8, hk9⟩]
    · have hrow : ¬(r = 6 ∧ 8 ≤ c ∧ c + 9 ≤ N) := fun ⟨h6, hc8, hc9⟩ =>
        hnone _ (mem_timingStamps.mpr ⟨c, hc8, hc9, .inl rfl⟩) ⟨by simp [h6], rfl⟩
      have hcol : ¬(c = 6 ∧ 8 ≤ r ∧ r + 9 ≤ N) := fun ⟨h6, hr8, hr9⟩ =>
        hnone _ (mem_timingStamps.mpr ⟨r, hr8, hr9, .inr rfl⟩) ⟨rfl, by simp [h6]⟩
      rw [hstay, if_neg hrow, if_neg hcol]
  · rw [stampAll_keeps hg _ hr hc hu, if_pos hu]

theorem exec_mxTiming_of_phase {s : State} (hp : s.phase = .alignDone) : exec .mxTiming s = .next s.stampTiming.succeed :=
  complete_requirePhase_of_eq hp

/-- Settles O47: the timing stamps name the cells of row 6 and column 6 between the separators. -/
theorem mxTimingAlternatesByParity : Obligations.MxTimingAlternatesByParity := by
  unfold Obligations.MxTimingAlternatesByParity
  refine ⟨fun s hinv hp => ?_, leadsFrom_mxTiming.refused, unusedBitsRaise_of_unusedMasks rfl⟩
  obtain ⟨-, -, hg⟩ := hinv.allocated hp (by decide)
  exact ⟨_, exec_mxTiming_of_phase hp, rfl, fun r c hr hc => cellAt_timingStamps hg hr hc⟩

/-! ### MX_FORMAT (R208, R209, R210) -/

theorem mem_formatStamps {N code : Nat} {st : Stamp} :
    st ∈ formatStamps N code ↔
      (∃ i < 15, st = ⟨formatRowV N i, 8, code.testBit i⟩ ∨ st = ⟨8, formatColH N i, code.testBit i⟩) ∨
        st = ⟨(N : Int) - 8, 8, true⟩ := by
  simp only [formatStamps, List.mem_append, List.mem_flatMap, List.mem_range, List.mem_cons, List.not_mem_nil, or_false]

section
variable {N i j r c : Nat} (hN : 21 ≤ N) (hi : i < 15)
include hN hi

/-- Copy V takes a different row for each bit, and none of them is the row of the dark module. -/
theorem formatRowV_inj (hj : j < 15) (h : formatRowV N i = formatRowV N j) : i = j := by
  unfold formatRowV at h; omega

theorem formatRowV_ne_darkRow : formatRowV N i ≠ (N : Int) - 8 := by
  unfold formatRowV; omega

/-- Copy H takes a different column for each bit, and none of them is the column of copy V. -/
theorem formatColH_inj (hj : j < 15) (h : formatColH N i = formatColH N j) : i = j := by
  unfold formatColH at h; omega

theorem formatColH_ne_eight : formatColH N i ≠ 8 := by
  unfold formatColH; omega

theorem formatRowV_eq (hr : r = if i ≤ 5 then i else if i ≤ 7 then i + 1 else N - 15 + i) :
    formatRowV N i = r ∧ r < N := by
  unfold formatRowV
  split_ifs at hr <;> omega

theorem formatColH_eq (hc : c = if i ≤ 7 then N - 1 - i else if i = 8 then 7 else 14 - i) :
    formatColH N i = c ∧ c < N := by
  unfold formatColH
  split_ifs at hc <;> omega

theorem row_of_formatRowV (h : formatRowV N i = r) : r ≤ 5 ∨ r = 7 ∨ r = 8 ∨ N ≤ r + 8 := by
  unfold formatRowV at h; omega

theorem col_of_formatColH (h : formatColH N i = c) : N ≤ c + 8 ∨ c = 7 ∨ c ≤ 5 := by
  unfold formatColH at h; omega

end

section
variable {N : Nat} {grid : List GridCell} (hg : grid.length = N * N) (hN : 21 ≤ N) (code : Nat)
include hg hN

theorem cellAt_formatStamps_row {i r : Nat} (hi : i < 15)
    (hr : r = if i ≤ 5 then i else if i ≤ 7 then i + 1 else N - 15 + i) (hu : cellAt N grid r 8 = .unset) :
    cellAt N (stampAll N grid (formatStamps N code)) r 8 = GridCell.ofBit (code.testBit i) := by
  obtain ⟨hrow, hlt⟩ := formatRowV_eq hN hi hr
  refine cellAt_stampAll_of_named hg hlt (by omega) (st := ⟨formatRowV N i, 8, code.testBit i⟩)
    (mem_formatStamps.mpr (.inl ⟨i, hi, .inl rfl⟩)) hrow rfl (fun st hst hrow' hcol' => ?_) hu
  obtain ⟨j, hj, rfl | rfl⟩ | rfl := mem_formatStamps.mp hst
  · rw [formatRowV_inj hN hj hi (hrow'.trans hrow.symm)]
  · exact absurd hcol' (formatColH_ne_eight hN hj)
  · exact absurd (hrow.trans hrow'.symm) (formatRowV_ne_darkRow hN hi)

theorem cellAt_formatStamps_column {i c : Nat} (hi : i < 15)
    (hc : c = if i ≤ 7 then N - 1 - i else if i = 8 then 7 else 14 - i) (hu : cellAt N grid 8 c = .unset) :
    cellAt N (stampAll N grid (formatStamps N code)) 8 c = GridCell.ofBit (code.testBit i) := by
  obtain ⟨hcol, hlt⟩ := formatColH_eq hN hi hc
  have hne : (c : Int) ≠ 8 := hcol ▸ formatColH_ne_eight hN hi
  refine cellAt_stampAll_of_named hg (by omega) hlt (st := ⟨8, formatColH N i, code.testBit i⟩)
    (mem_formatStamps.mpr (.inl ⟨i, hi, .inr rfl⟩)) rfl hcol (fun st hst hrow' hcol' => ?_) hu
  obtain ⟨j, hj, rfl | rfl⟩ | rfl := mem_formatStamps.mp hst
  · exact absurd hcol'.symm hne
  · rw [formatColH_inj hN hj hi (hcol'.trans hcol.symm)]
  · exact absurd hcol'.symm hne

theorem cellAt_formatStamps_dark (hu : cellAt N grid (N - 8) 8 = .unset) :
    cellAt N (stampAll N grid (formatStamps N code)) (N - 8) 8 = .dark := by
  have hrow : (N : Int) - 8 = ((N - 8 : Nat) : Int) := by omega
  refine cellAt_stampAll_of_named hg (by omega) (by omega) (st := ⟨(N : Int) - 8, 8, true⟩)
    (mem_formatStamps.mpr (.inr rfl)) hrow rfl (fun st hst hrow' hcol' => ?_) hu
  obtain ⟨j, hj, rfl | rfl⟩ | rfl := mem_formatStamps.mp hst
  · exact absurd (hrow'.trans hrow.symm) (formatRowV_ne_darkRow hN hj)
  · exact absurd hcol' (formatColH_ne_eight hN hj)
  · rfl

theorem cellAt_formatStamps_elsewhere {r c : Nat} (hr : r < N) (hc : c < N)
    (hV : ¬(c = 8 ∧ (r ≤ 5 ∨ r = 7 ∨ r = 8 ∨ N ≤ r + 8))) (hH : ¬(r = 8 ∧ (N ≤ c + 8 ∨ c = 7 ∨ c ≤ 5))) :
    cellAt N (stampAll N grid (formatStamps N code)) r c = cellAt N grid r c := by
  refine cellAt_stampAll_of_not_named hg hr hc fun st hst hnamed => ?_
  obtain ⟨j, hj, rfl | rfl⟩ | rfl := mem_formatStamps.mp hst
  · exact hV ⟨(Int.ofNat_inj.mp hnamed.2).symm, row_of_formatRowV hN hj hnamed.1⟩
  · exact hH ⟨(Int.ofNat_inj.mp hnamed.1).symm, col_of_formatColH hN hj hnamed.2⟩
  · simp only at hnamed
    omega

end

theorem formatCode_of_le (ecl : BitVec 2) {m : Nat} (hm : m ≤ 7) : formatCode ecl m = bchFormat (ecl.toNat * 8 + m) := by
  rw [formatCode, ← Nat.shiftLeft_add_eq_or_of_lt (Nat.lt_succ_of_le hm), Nat.shiftLeft_eq]

/-- The state after a successful MX_FORMAT, the report aside. -/
def State.formatted (s : State) : State :=
  { s with
    buildMask := BitVec.ofNat 3 s.cfgMask.toNat
    grid := stampAll s.sideN s.grid (formatStamps s.sideN (formatCode s.cfgEcl s.cfgMask.toNat))
    phase := .formatDone }

theorem stampFormat_of_pattern {s : State} (hm : s.cfgMask.toNat ≤ 7) : s.stampFormat = .ok s.formatted :=
  if_neg (Nat.not_lt.mpr hm)

theorem exec_mxFormat_of_phase {s : State} (hp : s.phase = .timingDone) (hm : s.cfgMask.toNat ≤ 7) :
    exec .mxFormat s = .next s.formatted.succeed := by
  rw [exec, execMxFormat, complete_requirePhase_of_eq hp, stampFormat_of_pattern hm, complete_ok]

/-- Settles O48: the format stamps name 31 distinct cells, one for each bit of either copy and the dark module. -/
theorem mxFormatPlacesBothCopies : Obligations.MxFormatPlacesBothCopies := by
  unfold Obligations.MxFormatPlacesBothCopies
  refine ⟨fun s hinv hp hm => ?_, fun s => exec_mxFormat_of_wide_mask, leadsFrom_mxFormat.refused,
    unusedBitsRaise_of_unusedMasks rfl⟩
  obtain ⟨-, hN, hg⟩ := hinv.allocated hp (by decide)
  rw [← formatCode_of_le s.cfgEcl hm]
  exact ⟨_, exec_mxFormat_of_phase hp hm, rfl, Nat.mod_eq_of_lt (Nat.lt_succ_of_le hm),
    fun r c hr hc hset => stampAll_keeps hg _ hr hc hset,
    fun i hi r hr hu => cellAt_formatStamps_row hg hN _ hi hr hu,
    fun i hi c hc hu => cellAt_formatStamps_column hg hN _ hi hc hu,
    fun hu => cellAt_formatStamps_dark hg hN _ hu,
    fun r c hr hc hV hH => cellAt_formatStamps_elsewhere hg hN _ hr hc hV hH⟩

end Sys2Proof.Machine
end

section
/-! SUPPORT. The alignment patterns: one center, a run of centers, and the order in which the table gives them
(45_matrix.md R204, R205). -/

namespace Sys2Proof.Machine

/-! ### One center -/

/-- The center (a, b) lies in the grid, was UNSET in `grid`, and has (r, c) in its 5 × 5 range. -/
structure CoveredBy (N : Nat) (grid : List GridCell) (r c a b : Nat) : Prop where
  row_lt : a < N
  col_lt : b < N
  free : cellAt N grid a b = .unset
  row_near : ((r : Int) - a).natAbs ≤ 2
  col_near : ((c : Int) - b).natAbs ≤ 2

section
variable {N : Nat} {grid : List GridCell} (hg : grid.length = N * N) {r c : Nat} (hr : r < N) (hc : c < N)
include hg hr hc

/-- Everything one center does to a cell inside the grid. -/
theorem cellAt_alignCenter (a b : Nat) :
    cellAt N (alignCenter N grid (a, b)) r c =
      if N ≤ a ∨ N ≤ b ∨ cellAt N grid a b ≠ .unset then cellAt N grid r c
      else if cellAt N grid r c ≠ .unset then cellAt N grid r c
      else if ((r : Int) - a).natAbs ≤ 2 ∧ ((c : Int) - b).natAbs ≤ 2 then
        GridCell.ofBit (alignDark ((r : Int) - a) ((c : Int) - b))
      else .unset := by
  have hwindow (x y : Nat) : (-2 ≤ (x : Int) - y ∧ (x : Int) - y < -2 + (5 : Nat)) ↔ ((x : Int) - y).natAbs ≤ 2 := by
    omega
  unfold alignCenter
  by_cases hout : N ≤ a ∨ N ≤ b
  · rw [if_pos hout, if_pos (or_assoc.mp (.inl hout))]
  by_cases hset : cellAt N grid a b ≠ .unset
  · rw [if_neg hout, if_pos hset, if_pos (.inr (.inr hset))]
  · rw [if_neg hout, if_neg hset, if_neg fun h => (or_assoc.mpr h).elim hout hset, alignStampsAt_eq,
      cellAt_patternStamps hg _ _ _ _ _ hr hc]
    simp only [hwindow]

/-- A cell that one center sets takes its pattern. -/
theorem alignCenter_sets {a b : Nat} (hu : cellAt N grid r c = .unset)
    (hset : cellAt N (alignCenter N grid (a, b)) r c ≠ .unset) :
    CoveredBy N grid r c a b ∧
      cellAt N (alignCenter N grid (a, b)) r c = GridCell.ofBit (alignDark ((r : Int) - a) ((c : Int) - b)) := by
  rw [cellAt_alignCenter hg hr hc] at hset ⊢
  by_cases hskip : N ≤ a ∨ N ≤ b ∨ cellAt N grid a b ≠ .unset
  · rw [if_pos hskip] at hset
    exact absurd hu hset
  rw [if_neg hskip, if_neg (not_not_intro hu)] at hset ⊢
  by_cases hnear : ((r : Int) - a).natAbs ≤ 2 ∧ ((c : Int) - b).natAbs ≤ 2
  · rw [if_pos hnear]
    push Not at hskip
    obtain ⟨ha, hb, hfree⟩ := hskip
    exact ⟨⟨ha, hb, hfree, hnear.1, hnear.2⟩, rfl⟩
  · rw [if_neg hnear] at hset
    exact absurd rfl hset

/-- A center sets every cell of its range. -/
theorem alignCenter_sets_of_covered {a b : Nat} (h : CoveredBy N grid r c a b) :
    cellAt N (alignCenter N grid (a, b)) r c ≠ .unset := by
  obtain ⟨ha, hb, hfree, hrow, hcol⟩ := h
  rw [cellAt_alignCenter hg hr hc, if_neg (by simp [hfree, ha, hb])]
  split
  · assumption
  · rw [if_pos ⟨hrow, hcol⟩]
    exact GridCell.ofBit_ne_unset _

/-! ### A run of centers -/

theorem cellAt_unset_of_fold {centers : List (Nat × Nat)}
    (h : cellAt N (centers.foldl (alignCenter N) grid) r c = .unset) : cellAt N grid r c = .unset := by
  by_contra hset
  exact hset ((alignCenters_fold_keeps centers hg hr hc hset).symm.trans h)

/-- A cell that a run of centers sets has the pattern of one of them that was free before the run. -/
theorem alignCenters_fold_sets {centers : List (Nat × Nat)} (hu : cellAt N grid r c = .unset)
    (hset : cellAt N (centers.foldl (alignCenter N) grid) r c ≠ .unset) :
    ∃ a b, (a, b) ∈ centers ∧ CoveredBy N grid r c a b ∧
      cellAt N (centers.foldl (alignCenter N) grid) r c = GridCell.ofBit (alignDark ((r : Int) - a) ((c : Int) - b)) := by
  induction centers generalizing grid with
  | nil => exact absurd hu hset
  | cons center centers ih =>
    obtain ⟨a, b⟩ := center
    have hlen : (alignCenter N grid (a, b)).length = N * N := (alignCenter_length N grid (a, b)).trans hg
    rw [List.foldl_cons] at hset ⊢
    by_cases hfirst : cellAt N (alignCenter N grid (a, b)) r c = .unset
    · obtain ⟨a', b', hmem, ⟨ha, hb, hfree, hrow, hcol⟩, hpattern⟩ := ih hlen hfirst hset
      have hfree' : cellAt N grid a' b' = .unset :=
        cellAt_unset_of_fold (centers := [(a, b)]) hg ha hb hfree
      exact ⟨a', b', List.mem_cons_of_mem _ hmem, ⟨ha, hb, hfree', hrow, hcol⟩, hpattern⟩
    · obtain ⟨hcovered, hpattern⟩ := alignCenter_sets hg hr hc hu hfirst
      exact ⟨a, b, List.mem_cons_self, hcovered,
        (alignCenters_fold_keeps centers hlen hr hc hfirst).trans hpattern⟩

/-- Every center of the run in the grid ends set: when its turn comes it is set already or sets itself. -/
theorem alignCenters_fold_sets_center {centers : List (Nat × Nat)} (hmem : (r, c) ∈ centers) :
    cellAt N (centers.foldl (alignCenter N) grid) r c ≠ .unset := by
  obtain ⟨before, after, rfl⟩ := List.append_of_mem hmem
  have hlen := (alignCenters_fold_length N before grid).trans hg
  rw [List.foldl_append, List.foldl_cons]
  generalize before.foldl (alignCenter N) grid = mid at hlen
  have hset : cellAt N (alignCenter N mid (r, c)) r c ≠ .unset := by
    by_cases hfree : cellAt N mid r c = .unset
    · exact alignCenter_sets_of_covered hlen hr hc ⟨hr, hc, hfree, by omega, by omega⟩
    · rwa [alignCenter_keeps hlen _ hr hc hfree]
  rw [alignCenters_fold_keeps after ((alignCenter_length N mid (r, c)).trans hlen) hr hc hset]
  exact hset

/-- In a run whose centers are no closer than 5 in either coordinate unless they agree in it, the cells around a free
center take its pattern: no other center comes near them. -/
theorem alignCenters_fold_of_covered {centers : List (Nat × Nat)} {a b : Nat}
    (hfar : ∀ p ∈ centers, (p.1 = a ∨ 5 ≤ ((p.1 : Int) - a).natAbs) ∧ (p.2 = b ∨ 5 ≤ ((p.2 : Int) - b).natAbs))
    (hmem : (a, b) ∈ centers) (hcovered : CoveredBy N grid r c a b) (hu : cellAt N grid r c = .unset) :
    cellAt N (centers.foldl (alignCenter N) grid) r c = GridCell.ofBit (alignDark ((r : Int) - a) ((c : Int) - b)) := by
  obtain ⟨ha, hb, hfree, hrow, hcol⟩ := hcovered
  have hset : cellAt N (centers.foldl (alignCenter N) grid) r c ≠ .unset := by
    -- The first turn of (a, b): no center before it is near enough to have set it.
    obtain ⟨before, after, rfl, hfirst⟩ := List.eq_append_cons_of_mem hmem
    have hlen := (alignCenters_fold_length N before grid).trans hg
    have hstill : cellAt N (before.foldl (alignCenter N) grid) a b = .unset := by
      by_contra hearly
      obtain ⟨a', b', hmem', ⟨-, -, -, hrow', hcol'⟩, -⟩ := alignCenters_fold_sets hg ha hb hfree hearly
      obtain ⟨hfar1, hfar2⟩ := hfar (a', b') (List.mem_append_left _ hmem')
      obtain rfl : a' = a := by omega
      obtain rfl : b' = b := by omega
      exact hfirst hmem'
    rw [List.foldl_append, List.foldl_cons]
    have hturn := alignCenter_sets_of_covered hlen hr hc ⟨ha, hb, hstill, hrow, hcol⟩
    rw [alignCenters_fold_keeps after ((alignCenter_length N _ (a, b)).trans hlen) hr hc hturn]
    exact hturn
  obtain ⟨a', b', hmem', ⟨-, -, -, hrow', hcol'⟩, hpattern⟩ := alignCenters_fold_sets hg hr hc hu hset
  obtain ⟨hfar1, hfar2⟩ := hfar (a', b') hmem'
  obtain rfl : a' = a := by omega
  obtain rfl : b' = b := by omega
  exact hpattern

end

/-! ### The pairs of coordinates, rows outermost (R205) -/

theorem mem_alignCenters {coords : List Nat} {a b : Nat} : (a, b) ∈ alignCenters coords ↔ a ∈ coords ∧ b ∈ coords :=
  List.pair_mem_product

theorem alignCenters_length (coords : List Nat) : (alignCenters coords).length = coords.length * coords.length :=
  List.length_product coords coords

/-- Pair k of the product of two lists, the first list outermost. -/
theorem getElem?_flatMap_pairs {rows cols : List Nat} {q j a b : Nat} (ha : rows[q]? = some a) (hb : cols[j]? = some b) :
    (rows.flatMap fun x => cols.map fun y => (x, y))[cols.length * q + j]? = some (a, b) := by
  have hj : j < cols.length := (List.getElem?_eq_some_iff.mp hb).1
  induction rows generalizing q with
  | nil => simp at ha
  | cons x rows ih =>
    rw [List.flatMap_cons]
    cases q with
    | zero =>
      obtain rfl : x = a := by simpa using ha
      rw [Nat.mul_zero, Nat.zero_add, List.getElem?_append_left (by simpa using hj), List.getElem?_map, hb, Option.map_some]
    | succ q =>
      rw [Nat.mul_succ, Nat.add_right_comm, Nat.add_comm, getElem?_append_offset _ _ (List.length_map _)]
      exact ih (by simpa using ha)

theorem alignCenters_getElem? {coords : List Nat} {k a b : Nat} (ha : coords[k / coords.length]? = some a)
    (hb : coords[k % coords.length]? = some b) : (alignCenters coords)[k]? = some (a, b) := by
  have h := getElem?_flatMap_pairs ha hb
  rwa [Nat.div_add_mod] at h

/-- The grid after the first `k` centers of a run. -/
def gridAfter (N : Nat) (grid : List GridCell) (centers : List (Nat × Nat)) (k : Nat) : List GridCell :=
  (centers.take k).foldl (alignCenter N) grid

theorem gridAfter_succ {N : Nat} (grid : List GridCell) {centers : List (Nat × Nat)} {k : Nat} {center : Nat × Nat}
    (h : centers[k]? = some center) :
    gridAfter N grid centers (k + 1) = alignCenter N (gridAfter N grid centers k) center := by
  rw [gridAfter, List.take_add_one, h, Option.toList_some, List.foldl_append, List.foldl_cons, List.foldl_nil, gridAfter]

theorem exec_mxAlign_of_phase {s : State} (hp : s.phase = .finderDone) : exec .mxAlign s = .next s.stampAlign.succeed :=
  complete_requirePhase_of_eq hp

/-- Settles O46: the command is a run of the table's centers, followed center by center. -/
theorem mxAlignStampsAroundFreeCenters : Obligations.MxAlignStampsAroundFreeCenters := by
  unfold Obligations.MxAlignStampsAroundFreeCenters
  refine ⟨fun s coords hinv hp hcoords => ?_, leadsFrom_mxAlign.refused, unusedBitsRaise_of_unusedMasks rfl⟩
  obtain ⟨-, -, hg⟩ := hinv.allocated hp (by decide)
  refine ⟨_, exec_mxAlign_of_phase hp, rfl, ?_⟩
  rw [State.succeed_grid, State.stampAlign_grid, ← hcoords]
  refine ⟨⟨gridAfter s.sideN s.grid (alignCenters coords), rfl, ?whole, fun k a b _ ha hb r c hr hc => ?step⟩,
    fun r c hr hc => ⟨fun hset => alignCenters_fold_keeps _ hg hr hc hset, fun hu hset => ?origin⟩,
    fun a ha b hb haN hbN => alignCenters_fold_sets_center hg haN hbN (mem_alignCenters.mpr ⟨ha, hb⟩),
    fun hspaced a ha b hb haN hbN hfree r c hr hc hrow hcol hu => ?apart⟩
  case whole => rw [gridAfter, ← alignCenters_length, List.take_length]
  case step =>
    rw [gridAfter_succ _ (alignCenters_getElem? ha hb)]
    exact cellAt_alignCenter ((alignCenters_fold_length _ _ _).trans hg) hr hc a b
  case origin =>
    obtain ⟨a, b, hmem, ⟨haN, hbN, hfree, hrow, hcol⟩, hpattern⟩ := alignCenters_fold_sets hg hr hc hu hset
    obtain ⟨ha, hb⟩ := mem_alignCenters.mp hmem
    exact ⟨a, ha, b, hb, haN, hbN, hfree, hrow, hcol, hpattern⟩
  case apart =>
    have hfar {x y : Nat} (hx : x ∈ coords) (hy : y ∈ coords) : x = y ∨ 5 ≤ ((x : Int) - y).natAbs := by
      have hxy := hspaced x hx y hy
      have hyx := hspaced y hy x hx
      omega
    refine alignCenters_fold_of_covered hg hr hc (fun p hp => ?_) (mem_alignCenters.mpr ⟨ha, hb⟩)
      ⟨haN, hbN, hfree, hrow, hcol⟩ hu
    obtain ⟨hp1, hp2⟩ := mem_alignCenters.mp hp
    exact ⟨hfar hp1 ha, hfar hp2 hb⟩

end Sys2Proof.Machine
end

section
/-! SUPPORT. The zigzag traversal, index by index, and the placement of the codeword bits along it (45_matrix.md R213, R215
to R217). -/

namespace Sys2Proof.Machine

/-! ### One pair of columns (R216) -/

theorem getElem?_flatMap_two {α β : Type} (f g : α → β) (l : List α) (j : Nat) :
    (l.flatMap fun a => [f a, g a])[2 * j]? = l[j]?.map f ∧ (l.flatMap fun a => [f a, g a])[2 * j + 1]? = l[j]?.map g := by
  induction l generalizing j with
  | nil => exact ⟨rfl, rfl⟩
  | cons a l ih =>
    cases j with
    | zero => exact ⟨rfl, rfl⟩
    | succ j => exact ih j

theorem zigzagPair_getElem? {N j : Nat} (col : Nat) (up : Bool) (hj : j < N) :
    (zigzagPair N col up)[2 * j]? = some (if up then N - 1 - j else j, col) ∧
      (zigzagPair N col up)[2 * j + 1]? = some (if up then N - 1 - j else j, col - 1) := by
  have hrow : (if up then (List.range N).reverse else List.range N)[j]? = some (if up then N - 1 - j else j) := by
    cases up
    · exact List.getElem?_range hj
    · rw [if_pos rfl, List.getElem?_reverse (by simpa using hj), List.length_range, if_pos rfl]
      exact List.getElem?_range (by omega)
  unfold zigzagPair
  rw [(getElem?_flatMap_two _ _ _ j).1, (getElem?_flatMap_two _ _ _ j).2, hrow]
  exact ⟨rfl, rfl⟩

/-! ### The pairs in order (R216) -/

/-- The right column of the pair that stands `2p` columns into a tail that starts at `col`: one further left where a tail
from right of column 6 has reached column 6. -/
def pairColumn (col p : Nat) : Nat := if col % 2 = 1 ∨ 6 < col - 2 * p then col - 2 * p else col - 1 - 2 * p

/-- The column at which a round of the traversal starts its pair. -/
def roundColumn (col : Nat) : Nat := if col = 6 then 5 else col

theorem roundColumn_cases (col : Nat) : col = 6 ∧ roundColumn col = 5 ∨ col ≠ 6 ∧ roundColumn col = col := by
  unfold roundColumn; split_ifs <;> omega

theorem zigzagFrom_round (N fuel : Nat) {col : Nat} (up : Bool) (h0 : col ≠ 0) :
    zigzagFrom N (fuel + 1) col up =
      zigzagPair N (roundColumn col) up ++ zigzagFrom N fuel (roundColumn col - 2) (!up) := by
  rw [zigzagFrom, if_neg h0, roundColumn]

theorem pairColumn_zero {col : Nat} (hcol : col % 2 = 1 ∨ 6 ≤ col) : pairColumn col 0 = roundColumn col := by
  unfold pairColumn roundColumn; split_ifs <;> omega

theorem pairColumn_roundColumn (col p : Nat) :
    pairColumn (roundColumn col - 2) p = pairColumn col (p + 1) := by
  unfold pairColumn roundColumn; split_ifs <;> omega

/-- A pair of a tail is a pair of columns of its own, turned once for each pair before it. -/
theorem zigzagFrom_getElem? {N p k : Nat} (hk : k < 2 * N) {fuel col : Nat} (up : Bool) (hfuel : col ≤ fuel)
    (hcol : (col % 2 = 1 ∧ col ≤ 5) ∨ (col % 2 = 0 ∧ 6 ≤ col)) (hp : 2 * p < col) :
    (zigzagFrom N fuel col up)[2 * N * p + k]? = (zigzagPair N (pairColumn col p) (up == decide (p % 2 = 0)))[k]? := by
  induction p generalizing fuel col up with
  | zero =>
    obtain ⟨fuel, rfl⟩ := Nat.exists_eq_add_one_of_ne_zero (show fuel ≠ 0 by omega)
    rw [zigzagFrom_round N fuel up (by omega), Nat.mul_zero, Nat.zero_add, List.getElem?_append_left (by simpa using hk),
      pairColumn_zero (by omega)]
    simp
  | succ p ih =>
    obtain ⟨fuel, rfl⟩ := Nat.exists_eq_add_one_of_ne_zero (show fuel ≠ 0 by omega)
    have hturn : ((!up) == decide (p % 2 = 0)) = (up == decide ((p + 1) % 2 = 0)) := by
      obtain h | h := Nat.mod_two_eq_zero_or_one p <;> simp [h, Nat.add_mod]
    have hround := roundColumn_cases col
    rw [zigzagFrom_round N fuel up (by omega), Nat.mul_succ, Nat.add_right_comm, Nat.add_comm,
      getElem?_append_offset _ _ (zigzagPair_length _ _ _), ih (!up) (by omega) (by omega) (by omega),
      pairColumn_roundColumn, hturn]

/-- Entry by entry, the traversal of a grid of odd side is its pairs of columns in order, upward first. -/
theorem zigzag_getElem? {N p j : Nat} (hN : 9 ≤ N) (hodd : N % 2 = 1) (hp : p < (N - 1) / 2) (hj : j < N) :
    (zigzag N)[2 * N * p + 2 * j]? = some (if p % 2 = 0 then N - 1 - j else j, pairColumn (N - 1) p) ∧
      (zigzag N)[2 * N * p + 2 * j + 1]? = some (if p % 2 = 0 then N - 1 - j else j, pairColumn (N - 1) p - 1) := by
  have hpair {k : Nat} (hk : k < 2 * N) :
      (zigzag N)[2 * N * p + k]? = (zigzagPair N (pairColumn (N - 1) p) (decide (p % 2 = 0)))[k]? := by
    rw [zigzag, zigzagFrom_getElem? hk true (by omega) (by omega) (by omega), Bool.true_beq]
  have hget := zigzagPair_getElem? (pairColumn (N - 1) p) (decide (p % 2 = 0)) hj
  simp only [decide_eq_true_eq] at hget
  rw [Nat.add_assoc, hpair (by omega), hpair (by omega)]
  exact hget

theorem zigzag_length {N : Nat} (hN : 9 ≤ N) (hodd : N % 2 = 1) : (zigzag N).length = N * (N - 1) := by
  rw [zigzag, (zigzagFrom_spec N N (N - 1) true (by omega) (by omega)).2.2, if_neg (by omega)]

/-- Settles O49: the traversal is followed pair by pair; its entries are those of `zigzagFrom_spec`. -/
theorem zigzagVisitsEveryDataColumnCellOnce : Obligations.ZigzagVisitsEveryDataColumnCellOnce := by
  unfold Obligations.ZigzagVisitsEveryDataColumnCellOnce
  intro N hN hodd
  refine ⟨fun p j row col hp hj hrow hcol => ?_, zigzag_length hN hodd, zigzag_nodup hN hodd, mem_zigzag hN hodd⟩
  have hcolumn : pairColumn (N - 1) p = col := by
    rw [hcol]; unfold pairColumn; split_ifs <;> omega
  rw [hrow, ← hcolumn]
  exact zigzag_getElem? hN hodd hp hj

/-! ### The placer's count (R215, R217) -/

section
variable {N : Nat} (cw : List Byte) (mask : Nat)

/-- A visit turns at most one UNSET cell into a counted one. -/
theorem placeCell_count_add_unset {p : Placer} (hg : p.grid.length = N * N) {rc : Nat × Nat} (hr : rc.1 < N)
    (hc : rc.2 < N) :
    (placeCell N cw mask p rc).count + (placeCell N cw mask p rc).grid.count .unset = p.count + p.grid.count .unset := by
  have hlt : rc.1 * N + rc.2 < p.grid.length := hg ▸ offset_lt hr hc
  unfold placeCell
  by_cases hu : cellAt N p.grid rc.1 rc.2 = .unset
  · rw [if_pos hu]
    have hcell : p.grid[rc.1 * N + rc.2] = .unset := by rwa [cellAt, List.getD_eq_getElem _ _ hlt] at hu
    have hpos : 0 < p.grid.count .unset := List.count_pos_iff.mpr (hcell ▸ List.getElem_mem hlt)
    simp only [setCell, List.count_set hlt, hcell, beq_self_eq_true, if_true, beq_iff_eq, GridCell.ofBit_ne_unset, if_false]
    omega
  · rw [if_neg hu]

/-- Along a run inside the grid, the counted cells and the UNSET ones stay as many together. -/
theorem placeCells_count_add_unset {run : List (Nat × Nat)} {p : Placer} (hg : p.grid.length = N * N)
    (hin : ∀ rc ∈ run, rc.1 < N ∧ rc.2 < N) :
    (run.foldl (placeCell N cw mask) p).count + (run.foldl (placeCell N cw mask) p).grid.count .unset =
      p.count + p.grid.count .unset := by
  induction run generalizing p with
  | nil => rfl
  | cons rc run ih =>
    obtain ⟨⟨hr, hc⟩, hrun⟩ := List.forall_mem_cons.mp hin
    rw [List.foldl_cons, ih ((placeCell_length N cw mask p rc).trans hg) hrun, placeCell_count_add_unset cw mask hg hr hc]

/-! ### A whole placement (R215, R217) -/

variable {grid : List GridCell} (hN : 9 ≤ N) (hodd : N % 2 = 1) (hg : grid.length = N * N)
include hN hodd

theorem zigzag_inside : ∀ rc ∈ zigzag N, rc.1 < N ∧ rc.2 < N := fun rc hrc => by
  obtain ⟨hr, hc, -⟩ := (mem_zigzag hN hodd rc.1 rc.2).mp hrc
  exact ⟨hr, hc⟩

include hg

theorem placeAll_keeps {r c : Nat} (hc : c < N) (hset : cellAt N grid r c ≠ .unset) :
    cellAt N (placeAll N cw mask grid).grid r c = cellAt N grid r c := by
  obtain ⟨-, -, hkeep, -⟩ := placeCells_spec cw mask (zigzag N) (p := ⟨grid, 0⟩) hg (zigzag_inside hN hodd)
    (zigzag_nodup hN hodd)
  exact hkeep r c hc (.inr hset)

/-- The k-th UNSET cell of the traversal takes bit k, masked. -/
theorem placeAll_places {k r c : Nat}
    (hk : ((zigzag N).filter (fun p => cellAt N grid p.1 p.2 = .unset))[k]? = some (r, c)) :
    cellAt N (placeAll N cw mask grid).grid r c = GridCell.ofBit (dataBit cw k ^^ maskFlip mask r c) := by
  obtain ⟨-, -, -, hplaced⟩ := placeCells_spec cw mask (zigzag N) (p := ⟨grid, 0⟩) hg (zigzag_inside hN hodd)
    (zigzag_nodup hN hodd)
  rw [placeAll, hplaced k r c hk, Nat.zero_add]

variable (h6 : ∀ r, r < N → cellAt N grid r 6 ≠ .unset)
include h6

theorem placeAll_unset_eq_zero : (placeAll N cw mask grid).grid.count .unset = 0 :=
  (count_unset_eq_zero ((placeCells_length N cw mask (zigzag N) ⟨grid, 0⟩).trans hg)).mpr fun _ _ =>
    placeAll_fills hN hodd cw mask hg h6

/-- The count is the number of cells that were UNSET, since none is left. -/
theorem placeAll_count : (placeAll N cw mask grid).count = grid.count .unset := by
  have htotal := placeCells_count_add_unset cw mask (p := ⟨grid, 0⟩) hg (zigzag_inside hN hodd)
  have hnone := placeAll_unset_eq_zero cw mask hN hodd hg h6
  rw [placeAll] at hnone ⊢
  rw [hnone, Nat.add_zero] at htotal
  exact htotal.trans (Nat.zero_add _)

end

/-- Bit k of the codewords MX_PLACE reads (20_memory.md R72), or `false` past their end. -/
theorem dataBit_cwBytes (s : State) (src count k : Nat) :
    dataBit (s.cwBytes src count) k =
      if k < 8 * count then (s.cwByte (src + k / 8)).getLsbD (7 - k % 8) else false := by
  rw [dataBit, State.cwBytes_length]
  split
  case isTrue h => exact codewordBit_cwBytes s src h
  case isFalse => rfl

/-! ### MX_PLACE (R215) -/

/-- What MX_PLACE computes from the codewords of its range. -/
def State.placement (s : State) (src count : Nat) : Placer :=
  placeAll s.sideN (s.cwBytes src count) s.buildMask.toNat s.grid

/-- The state after a successful MX_PLACE, the report aside. -/
def State.placed (s : State) (src count : Nat) : State :=
  { s with
    grid := (s.placement src count).grid
    placeCells := BitVec.ofNat 32 (s.placement src count).count
    placeBits := BitVec.ofNat 32 (min (s.placement src count).count (8 * count))
    phase := .done }

theorem exec_mxPlace_of_full {s : State} {src count : Nat} (hp : s.phase = .formatDone)
    (hfit : src + count ≤ s.params.cwBytes) (hfull : (s.placement src count).grid.count .unset = 0) :
    exec (.mxPlace src count) s = .next (s.placed src count).succeed := by
  rw [exec, execMxPlace, complete_requirePhase_of_eq hp, placeCodewords_eq_ok.mpr ⟨hfit, hfull, rfl⟩, complete_ok]
  rfl

theorem exec_mxPlace_of_past_end {s : State} {src count : Nat} (hp : s.phase = .formatDone)
    (hfit : s.params.cwBytes < src + count) :
    exec (.mxPlace src count) s = .next (s.failed .rangeError (src + count)) := by
  rw [exec, execMxPlace, complete_requirePhase_of_eq hp, State.placeCodewords, if_pos hfit, complete_error]

/-- The side of a configuration is odd (10_state.md R33). -/
theorem State.Inv.sideN_odd {s : State} (h : s.Inv) (hv : s.cfgValid = true) : s.sideN % 2 = 1 := by
  have hside : s.sideN = 4 * s.cfgVersion.toNat + 17 := h.spec.side_value hv
  omega

/-- The cells of a grid can be counted in a register of 32 bits. -/
theorem State.count_unset_lt {s : State} (hg : s.grid.length = s.sideN * s.sideN) : s.grid.count .unset < 2 ^ 32 := by
  have hside : s.sideN < 2 ^ 8 := s.side.isLt
  calc s.grid.count .unset ≤ s.sideN * s.sideN := hg ▸ List.count_le_length
    _ < 2 ^ 8 * 2 ^ 8 := Nat.mul_lt_mul'' hside hside
    _ < 2 ^ 32 := by decide

/-- Settles O50: column 6 is set in phase 5 under the invariant, so that the traversal fills the grid. -/
theorem mxPlaceFillsTheGrid : Obligations.MxPlaceFillsTheGrid := by
  unfold Obligations.MxPlaceFillsTheGrid
  refine ⟨fun s src count hinv hp hfit => ?_, fun s src count => exec_mxPlace_of_past_end,
    fun s src count => (leadsFrom_mxPlace src count).refused s, unusedBitsRaise_of_unusedMasks rfl⟩
  obtain ⟨hv, hside, hg⟩ := hinv.allocated hp (by decide)
  have hN : 9 ≤ s.sideN := by omega
  have hodd := hinv.sideN_odd hv
  have h6 := hinv.build.timing_column (hp ▸ by decide)
  have hcount : (s.placement src count).count = s.grid.count .unset := placeAll_count _ _ hN hodd hg h6
  have hlt := State.count_unset_lt hg
  refine ⟨_, exec_mxPlace_of_full hp hfit (placeAll_unset_eq_zero _ _ hN hodd hg h6), rfl, fun r c hr hc =>
    ⟨placeAll_fills hN hodd _ _ hg h6 hr hc, placeAll_keeps _ _ hN hodd hg hc⟩, fun k r c hk => ?bit, ?cells, ?bits⟩
  case bit =>
    rw [← dataBit_cwBytes]
    exact placeAll_places _ _ hN hodd hg hk
  case cells =>
    rw [← hcount] at hlt ⊢
    exact Nat.mod_eq_of_lt hlt
  case bits =>
    rw [← hcount] at hlt ⊢
    exact Nat.mod_eq_of_lt ((Nat.min_le_left _ _).trans_lt hlt)

end Sys2Proof.Machine
end

section
/-! SUPPORT. A second ENCODE: what the first one wrote, the second writes again (45_matrix.md R219, 46_assembly.md R246). -/

namespace Sys2Proof.Machine

/-! ### Writing bytes that stand there already -/

/-- In canonical form (log 4), a run of writes that changes no byte changes nothing. -/
theorem Memory.writeBytes_eq_self {m : Memory} (hm : m.wf = true) {a : Nat} {bytes : List Byte}
    (h : ∀ k b, bytes[k]? = some b → m.read? (a + k) = some b) : m.writeBytes a bytes = m := by
  refine Memory.ext_of_wf (Memory.wf_writeBytes hm a bytes) hm fun b => ?_
  rw [Memory.read?_writeBytes]
  split
  case isTrue hin =>
    obtain ⟨d, rfl⟩ := Nat.exists_eq_add_of_le hin.1
    have hlt : d < bytes.length := by omega
    rw [Nat.add_sub_cancel_left, h d bytes[d] (List.getElem?_eq_getElem hlt), List.getElem?_eq_getElem hlt]
  case isFalse => rfl

theorem Memory.read?_writeBytes_of_getElem? (m : Memory) (a : Nat) {bytes : List Byte} {k : Nat} {b : Byte}
    (hk : bytes[k]? = some b) : (m.writeBytes a bytes).read? (a + k) = some b := by
  obtain ⟨hlt, rfl⟩ := List.getElem?_eq_some_iff.mp hk
  exact m.read?_writeBytes_inside a k bytes hlt

theorem Memory.writeBytes_again {m : Memory} (hm : m.wf = true) (a : Nat) (bytes : List Byte) :
    (m.writeBytes a bytes).writeBytes a bytes = m.writeBytes a bytes :=
  Memory.writeBytes_eq_self (Memory.wf_writeBytes hm a bytes) fun _ _ => m.read?_writeBytes_of_getElem? a

/-- Two runs, the second right behind the first. -/
theorem Memory.writeBytes_behind_again {m : Memory} (hm : m.wf = true) (data rest : List Byte) :
    (((m.writeBytes 0 data).writeBytes data.length rest).writeBytes 0 data).writeBytes data.length rest =
      (m.writeBytes 0 data).writeBytes data.length rest := by
  have hdata : ((m.writeBytes 0 data).writeBytes data.length rest).writeBytes 0 data =
      (m.writeBytes 0 data).writeBytes data.length rest :=
    Memory.writeBytes_eq_self (Memory.wf_writeBytes (Memory.wf_writeBytes hm 0 data) data.length rest) fun k b hk => by
      rw [Nat.zero_add]
      exact m.read?_writeBytes_behind data rest hk
  rw [hdata, Memory.writeBytes_again (Memory.wf_writeBytes hm 0 data)]

/-! ### The two parts of ENCODE (46_assembly.md R240, R246) -/

/-- What a build writes: the grid, PHASE, BUILD_MASK, PLACE_CELLS and PLACE_BITS. -/
def State.withBuild (s : State) (grid : List GridCell) (p : Phase) (m : BitVec 3) (cells bits : Word) : State :=
  { s with grid := grid, phase := p, buildMask := m, placeCells := cells, placeBits := bits }

theorem buildGrid_eq_withBuild {s t : State} (h : s.buildGrid = .ok t) :
    ∃ grid p m cells bits, t = s.withBuild grid p m cells bits := by
  obtain ⟨a, ha, h⟩ := except_bind_eq_ok.mp h
  obtain ⟨b, hb, h⟩ := except_bind_eq_ok.mp h
  obtain ⟨-, rfl⟩ := allocGrid_eq_ok.mp ha
  obtain ⟨-, rfl⟩ := stampFormat_eq_ok.mp hb
  obtain ⟨-, -, rfl⟩ := placeCodewords_eq_ok.mp h
  exact ⟨_, _, _, _, _, rfl⟩

section
variable {s a g : State} (v : Word) (e : Option ErrorKind) (x : Word) (k : Bool)

/-- An assembly reads nothing that a build or a report writes, so that after them it writes what stands there. -/
theorem assembleCodewords_again (hgen : s.gen.wf = true) (hcw : s.cw.wf = true) (ha : s.assembleCodewords = .ok a)
    (hg : a.buildGrid = .ok g) : (g.reported v e x k).assembleCodewords = .ok (g.reported v e x k) := by
  obtain ⟨grid, p, m, cells, bits, rfl⟩ := buildGrid_eq_withBuild hg
  obtain ⟨hv, hfit, bs, hbs, rfl⟩ := assembleCodewords_eq_ok.mp ha
  refine assembleCodewords_eq_ok.mpr ⟨hv, hfit, bs, hbs, ?_⟩
  have hgen' := Memory.writeBytes_again hgen 0 (genPoly s.capEc.toNat)
  have hcw' := Memory.writeBytes_behind_again hcw (streamBytes bs s.capData.toNat)
    (rsRem (streamBytes bs s.capData.toNat) s.capEc.toNat)
  rw [streamBytes_length] at hcw'
  simp only [State.withBuild, State.reported, State.loadGenerator, hgen', hcw']

/-- A build starts from a fresh grid, so that in its own result, under another report, it ends where it began. -/
theorem buildGrid_again (hg : a.buildGrid = .ok g) : (g.reported v e x k).buildGrid = .ok (g.reported v e x k) := by
  obtain ⟨b, hb, h⟩ := except_bind_eq_ok.mp hg
  obtain ⟨c, hc, h⟩ := except_bind_eq_ok.mp h
  obtain ⟨hv, rfl⟩ := allocGrid_eq_ok.mp hb
  obtain ⟨hm, rfl⟩ := stampFormat_eq_ok.mp hc
  obtain ⟨hfit, hfull, rfl⟩ := placeCodewords_eq_ok.mp h
  exact except_bind_eq_ok.mpr ⟨_, allocGrid_eq_ok.mpr ⟨hv, rfl⟩,
    except_bind_eq_ok.mpr ⟨_, stampFormat_eq_ok.mpr ⟨hm, rfl⟩, placeCodewords_eq_ok.mpr ⟨hfit, hfull, rfl⟩⟩⟩

end

theorem State.setResult_succeed_eq_reported (s : State) (v : Word) :
    (s.setResult v).succeed = s.reported v none 0#32 s.sticky := rfl

/-- ENCODE leaves a state that a second ENCODE does not change. -/
theorem exec_encode_again {s t : State} (hgen : s.gen.wf = true) (hcw : s.cw.wf = true) (h : exec .encode s = .next t)
    (herr : t.err = none) : exec .encode t = .next t := by
  obtain ⟨u, hu, rfl⟩ | ⟨e, -, rfl⟩ := complete_eq_next.mp h
  · obtain ⟨a, ha, hu⟩ := except_bind_eq_ok.mp hu
    obtain ⟨g, hg, ⟨⟩⟩ := except_bind_eq_ok.mp hu
    rw [State.setResult_succeed_eq_reported, exec, execEncode, assembleCodewords_again _ _ _ _ hgen hcw ha hg,
      except_bind_ok, buildGrid_again _ _ _ _ hg, except_bind_ok, complete_ok]
    rfl
  · cases herr

/-- Settles O55: the second ENCODE ends in the state where it began. -/
theorem encodeIsIdempotent : Obligations.EncodeIsIdempotent := by
  unfold Obligations.EncodeIsIdempotent
  intro s t u hinv h herr hu
  obtain rfl : t = u := Host.Outcome.next.inj
    ((exec_encode_again hinv.holds.gen_wf hinv.holds.cw_wf h herr).symm.trans hu)
  exact ⟨herr, rfl, rfl, fun _ => rfl⟩

end Sys2Proof.Machine
end

section
/-! SUPPORT. What ASSEMBLE writes: the data stream, the data codewords, their remainder and the generator, as one state
(46_assembly.md R240, R244, R245, R247). -/

namespace Sys2Proof.Machine

/-! ### The assembled state (R240) -/

/-- The data stream of the payload under the configuration. -/
def State.dataBits (s : State) : List Bool :=
  assembledStream s.params (s.plBytes s.plLen.toNat) (s.params.lenWidth s.cfgVersion.toNat) s.capData.toNat

/-- The data codewords: the D bytes of the data stream. -/
def State.dataCodewords (s : State) : List Byte := streamBytes s.dataBits s.capData.toNat

/-- The state after an assembly that succeeds, RESULT and the report aside. -/
def State.assembled (s : State) : State :=
  { s.loadGenerator s.capEc.toNat with
    bs := s.dataBits
    cw := (s.cw.writeBytes 0 s.dataCodewords).writeBytes s.capData.toNat (rsRem s.dataCodewords s.capEc.toNat) }

section
variable {s : State}

theorem State.dataBits_length (hL : s.payloadBits ≤ 8 * s.capData.toNat) : s.dataBits.length = 8 * s.capData.toNat :=
  assembledStream_length _ _ (by rwa [State.plBytes_length])

@[simp] theorem State.dataCodewords_length : s.dataCodewords.length = s.capData.toNat := streamBytes_length _ _

theorem assembleCodewords_eq_assembled (hv : s.cfgValid = true) (hD : 8 * s.capData.toNat ≤ s.params.bsBits)
    (hL : s.payloadBits ≤ 8 * s.capData.toNat) : s.assembleCodewords = .ok s.assembled :=
  assembleCodewords_eq_ok.mpr
    ⟨hv, hL, s.dataBits, dataStream_eq_assembledStream _ _ hD (by rwa [State.plBytes_length]), rfl⟩

/-! ### The codewords (R244, R247 (c)) -/

/-- A range of CW is the sequence whose bytes stand there one by one. -/
theorem State.cwBytes_eq {a : Nat} {bytes : List Byte} (h : ∀ k b, bytes[k]? = some b → s.cwByte (a + k) = b) :
    s.cwBytes a bytes.length = bytes :=
  List.ext_getElem (by simp) fun k _ hk => by simp [State.cwBytes, h k _ (List.getElem?_eq_getElem hk)]

theorem State.assembled_data : s.assembled.cwBytes 0 s.capData.toNat = s.dataCodewords := by
  rw [← s.dataCodewords_length]
  refine State.cwBytes_eq fun k b hk => ?_
  have hread := s.cw.read?_writeBytes_behind s.dataCodewords (rsRem s.dataCodewords s.capEc.toNat) hk
  rw [State.dataCodewords_length] at hread
  rw [State.cwByte, State.assembled, Nat.zero_add, hread, Option.getD_some]

theorem State.assembled_remainder :
    s.assembled.cwBytes s.capData.toNat s.capEc.toNat = rsRem s.dataCodewords s.capEc.toNat := by
  conv_lhs => rw [← rsRem_length s.dataCodewords s.capEc.toNat]
  refine State.cwBytes_eq fun k b hk => ?_
  rw [State.cwByte, State.assembled, Memory.read?_writeBytes_of_getElem? _ _ hk, Option.getD_some]

/-- Behind the codewords CW is as it was. -/
theorem State.assembled_cwByte_of_ge {a : Nat} (h : s.capData.toNat + s.capEc.toNat ≤ a) :
    s.assembled.cwByte a = s.cwByte a := by
  rw [State.cwByte, State.assembled, Memory.read?_writeBytes_outside _ _ _ _ (.inr (by rwa [rsRem_length])),
    Memory.read?_writeBytes_outside _ _ _ _ (.inr (by rw [State.dataCodewords_length]; omega))]
  rfl

/-- The stream is the data codewords, bit by bit (20_memory.md R71). -/
theorem State.assembled_bs_getElem? (hL : s.payloadBits ≤ 8 * s.capData.toNat) {k j : Nat} (hk : k < s.capData.toNat)
    (hj : j < 8) : s.assembled.bs[8 * k + j]? = some ((s.assembled.cwByte k).getLsbD (7 - j)) := by
  have hbyte : s.assembled.cwByte k = streamByte s.dataBits k := by
    have hget := s.assembled.cwBytes_getElem? 0 hk
    rw [State.assembled_data, State.dataCodewords, streamBytes_getElem? _ hk, Nat.zero_add] at hget
    exact (Option.some.inj hget).symm
  have hlt : 8 * k + j < s.dataBits.length := by rw [State.dataBits_length hL]; omega
  rw [hbyte]
  exact getElem?_eq_streamByte_getLsbD hj hlt

/-! ### ASSEMBLE (R245) -/

theorem exec_assemble_eq_assembled (hv : s.cfgValid = true) (hD : 8 * s.capData.toNat ≤ s.params.bsBits)
    (hL : s.payloadBits ≤ 8 * s.capData.toNat) :
    exec .assemble s = .next (s.assembled.setResult s.capTotal).succeed := by
  rw [exec, execAssemble, assembleCodewords_eq_assembled hv hD hL, except_bind_ok, complete_ok]

theorem assembleCodewords_of_unconfigured (hv : s.cfgValid = false) :
    s.assembleCodewords = .error ⟨.unsupportedConfiguration, 0⟩ := if_pos hv

theorem assembleCodewords_of_too_long (hv : s.cfgValid = true) (hL : 8 * s.capData.toNat < s.payloadBits) :
    s.assembleCodewords = .error ⟨.payloadTooLarge, s.payloadBits⟩ := by
  rw [State.assembleCodewords, if_neg (by simp [hv]), if_pos hL]

theorem exec_assemble_of_error {e : Raise} (h : s.assembleCodewords = .error e) :
    exec .assemble s = .next (s.failed e.kind e.info) := by
  rw [exec, execAssemble, h, except_bind_error, complete_error]

end

/-- D + E = T (10_state.md R33, R51). -/
theorem State.Inv.data_add_ec {s : State} (h : s.Inv) (hv : s.cfgValid = true) :
    s.capData.toNat + s.capEc.toNat = s.capTotal.toNat := by
  have hec := h.spec.ec_le_total hv
  have hdata := h.holds.data_value hv
  omega

/-- Settles O52: a successful ASSEMBLE ends in the assembled state. -/
theorem assembleBuildsTheCodewordSequence : Obligations.AssembleBuildsTheCodewordSequence := by
  unfold Obligations.AssembleBuildsTheCodewordSequence
  refine ⟨fun s hinv hv hL => ?fits, fun s hv => exec_assemble_of_error (assembleCodewords_of_unconfigured hv),
    fun s hv hL => exec_assemble_of_error (assembleCodewords_of_too_long hv hL), unusedBitsRaise_of_unusedMasks rfl⟩
  refine ⟨_, exec_assemble_eq_assembled hv (hinv.spec.data_fits hv) hL, ?frame, State.dataBits_length hL,
    fun k j hk hj => State.assembled_bs_getElem? hL hk hj, ?remainder, fun a ha => ?behind,
    s.loadGenerator_genDeg_toNat (hinv.spec.ec_fits hv), fun k => genPoly_getElem?_eq_genByte s,
    fun k => s.loadGenerator_genByte_of_lt⟩
  case frame => rfl
  case remainder =>
    have hrem := State.assembled_remainder (s := s)
    rw [rsRem_eq_rsRemLiteral, ← State.assembled_data] at hrem
    exact hrem
  case behind => exact State.assembled_cwByte_of_ge (by rwa [hinv.data_add_ec hv])

end Sys2Proof.Machine
end

section
/-! SUPPORT. ENCODE as the sequence of ASSEMBLE and the six build commands: what each of them makes of a part of ENCODE
(46_assembly.md R246). -/

namespace Sys2Proof.Machine

/-! ### A build, command by command

RESULT and the report take no part in a build, so that each command does under them what its body does in ENCODE. -/

section
variable {s t : State} (v : Word)

/-- The grid is generalized, since a comparison of the states would otherwise evaluate the literal list of stamps. -/
theorem State.stampFinder_setResult_succeed :
    (s.setResult v).succeed.stampFinder.succeed = (s.stampFinder.setResult v).succeed := by
  rw [State.stampFinder, State.stampFinder, State.succeed_sideN, State.setResult_sideN, State.succeed_grid,
    State.setResult_grid]
  generalize stampAll s.sideN s.grid (finderStamps s.sideN) = grid
  rfl

theorem exec_mxAlloc_setResult (h : s.allocGrid = .ok t) :
    exec .mxAlloc (s.setResult v).succeed = .next (t.setResult v).succeed := by
  obtain ⟨hv, rfl⟩ := allocGrid_eq_ok.mp h
  exact exec_mxAlloc_of_configured hv

theorem exec_mxFinder_setResult (hp : s.phase = .allocated) :
    exec .mxFinder (s.setResult v).succeed = .next (s.stampFinder.setResult v).succeed := by
  rw [← State.stampFinder_setResult_succeed]
  exact exec_mxFinder_of_phase hp

theorem exec_mxAlign_setResult (hp : s.phase = .finderDone) :
    exec .mxAlign (s.setResult v).succeed = .next (s.stampAlign.setResult v).succeed :=
  exec_mxAlign_of_phase hp

theorem exec_mxTiming_setResult (hp : s.phase = .alignDone) :
    exec .mxTiming (s.setResult v).succeed = .next (s.stampTiming.setResult v).succeed :=
  exec_mxTiming_of_phase hp

theorem exec_mxFormat_setResult (hp : s.phase = .timingDone) (h : s.stampFormat = .ok t) :
    exec .mxFormat (s.setResult v).succeed = .next (t.setResult v).succeed := by
  obtain ⟨hm, rfl⟩ := stampFormat_eq_ok.mp h
  exact exec_mxFormat_of_phase hp hm

theorem exec_mxPlace_setResult {src count : Nat} (hp : s.phase = .formatDone) (h : s.placeCodewords src count = .ok t) :
    exec (.mxPlace src count) (s.setResult v).succeed = .next (t.setResult v).succeed := by
  obtain ⟨hfit, hfull, rfl⟩ := placeCodewords_eq_ok.mp h
  exact exec_mxPlace_of_full hp hfit hfull

/-- Where the matrix part of ENCODE succeeds, the six build commands complete in turn and end in its result. -/
theorem buildCommands_of_buildGrid (h : s.buildGrid = .ok t) :
    ∃ b c d e f, exec .mxAlloc (s.setResult v).succeed = .next b ∧ exec .mxFinder b = .next c ∧
      exec .mxAlign c = .next d ∧ exec .mxTiming d = .next e ∧ exec .mxFormat e = .next f ∧
      exec (.mxPlace 0 s.capTotal.toNat) f = .next (t.setResult v).succeed ∧
      b.err = none ∧ c.err = none ∧ d.err = none ∧ e.err = none ∧ f.err = none := by
  obtain ⟨b, hb, h⟩ := except_bind_eq_ok.mp h
  obtain ⟨f, hf, h⟩ := except_bind_eq_ok.mp h
  have hbphase : b.phase = .allocated := by obtain ⟨-, rfl⟩ := allocGrid_eq_ok.mp hb; rfl
  have hfphase : f.phase = .formatDone := by obtain ⟨-, rfl⟩ := stampFormat_eq_ok.mp hf; rfl
  exact ⟨_, _, _, _, _, exec_mxAlloc_setResult v hb, exec_mxFinder_setResult v hbphase,
    exec_mxAlign_setResult v b.stampFinder_phase, exec_mxTiming_setResult v b.stampFinder.stampAlign_phase,
    exec_mxFormat_setResult v b.stampFinder.stampAlign.stampTiming_phase hf, exec_mxPlace_setResult v hfphase h,
    rfl, rfl, rfl, rfl, rfl⟩

end

/-! ### ENCODE (R246) -/

theorem exec_encode_of_parts {s a g : State} (ha : s.assembleCodewords = .ok a) (hg : a.buildGrid = .ok g) :
    exec .encode s = .next (g.setResult (zext32 g.side)).succeed := by
  rw [exec, execEncode, ha, except_bind_ok, hg, except_bind_ok, complete_ok]

theorem exec_encode_of_error {s : State} {e : Raise} (h : s.assembleCodewords = .error e) :
    exec .encode s = .next (s.failed e.kind e.info) := by
  rw [exec, execEncode, h, except_bind_error, complete_error]

theorem buildGrid_side {s t : State} (h : s.buildGrid = .ok t) : t.side = s.side := by
  obtain ⟨_, _, _, _, _, rfl⟩ := buildGrid_eq_withBuild h
  rfl

/-- A successful ENCODE leaves a finished grid without an UNSET cell, since it keeps the invariant. -/
theorem exec_encode_finished {s t : State} (hinv : s.Inv) (h : exec .encode s = .next t) (herr : t.err = none) :
    t.phase = .done ∧ ∀ r c, r < t.sideN → c < t.sideN → cellAt t.sideN t.grid r c ≠ .unset :=
  have hphase := exec_encode_phase h herr
  ⟨hphase, (exec_inv rfl hinv h).spec.finished hphase⟩

/-- Settles O54: ENCODE's parts are those of the seven commands; its own result and report are written last. -/
theorem encodeIsTheBuildSequence : Obligations.EncodeIsTheBuildSequence := by
  unfold Obligations.EncodeIsTheBuildSequence
  refine ⟨fun s hinv hv hL hm => ?fits, fun s hv => exec_encode_of_error (assembleCodewords_of_unconfigured hv),
    fun s hv hL => exec_encode_of_error (assembleCodewords_of_too_long hv hL),
    fun s hinv hv => exec_encode_of_wide_mask hv (hinv.spec.data_fits hv), unusedBitsRaise_of_unusedMasks rfl⟩
  have hD := hinv.spec.data_fits hv
  obtain ⟨g, hg⟩ := buildGrid_of_configured (s := s.assembled) hv (hinv.sideN_ge hv) (hinv.sideN_odd hv) hm
    (hinv.spec.total_fits hv)
  have hencode := exec_encode_of_parts (assembleCodewords_eq_assembled hv hD hL) hg
  have hside : g.side = s.assembled.side := buildGrid_side hg
  obtain ⟨hphase, hset⟩ := exec_encode_finished hinv hencode rfl
  have hsideN : (g.setResult (zext32 g.side)).succeed.sideN = s.sideN := congrArg BitVec.toNat hside
  rw [hsideN] at hset
  obtain ⟨b, c, d, e, f, hb, hc, hd, he, hf, hplace, hberr, hcerr, hderr, heerr, hferr⟩ :=
    buildCommands_of_buildGrid s.capTotal hg
  exact ⟨_, _, b, c, d, e, f, _, hencode, exec_assemble_eq_assembled hv hD hL, hb, hc, hd, he, hf, hplace,
    by rw [hside]; rfl, rfl, hberr, hcerr, hderr, heerr, hferr, rfl, hphase, hset⟩

end Sys2Proof.Machine
end

section
/-! SUPPORT. How a command reports its end, that every step answers, the bits of STATUS, and the reset event
(60_exceptions.md R270 to R277, 10_state.md R25, 70_reset_and_hazards.md R300). -/

namespace Sys2Proof.Machine

/-! ### The two reports (60_exceptions.md R272, R273) -/

/-- Settles O11: a command that reports an error did not succeed, so it ended in the failed state. -/
theorem failureIsTransactional : Obligations.FailureIsTransactional := by
  unfold Obligations.FailureIsTransactional
  intro i s t e h herr
  obtain ⟨u, -, rfl⟩ | ⟨e', x, rfl⟩ := exec_cases h
  · cases herr
  · cases herr
    exact ⟨⟨x, rfl⟩, s.failed_response e x⟩

/-- A command without a result keeps RESULT, whichever way it ends (10_state.md R21). -/
theorem exec_result {i : Instr} {s t : State} (h : exec i s = .next t) (hi : opcodeOf i ∉ resultOps) :
    t.result = s.result :=
  exec_keeps State.result (fun _ _ hc => hc.result_eq hi) (fun _ => rfl) (fun _ _ => rfl) h

/-- Settles O12: a command that reports no error ended in `succeed`; its writes keep STICKY and RESULT but for those whose
commands write them. -/
theorem successClearsReport : Obligations.SuccessClearsReport := by
  unfold Obligations.SuccessClearsReport
  intro i s t h herr
  obtain ⟨-, hkeep, hclear⟩ := exec_sticky h
  obtain ⟨hinfo, hresponse⟩ : t.errInfo = 0#32 ∧ t.response = ⟨0#4, t.result⟩ := by
    obtain ⟨u, -, rfl⟩ | ⟨e, x, rfl⟩ := exec_cases h
    · exact ⟨rfl, rfl⟩
    · cases herr
  exact ⟨hinfo, hkeep herr, hclear herr, exec_result h, hresponse⟩

/-! ### Every step answers (60_exceptions.md R277) -/

/-- Every word answers a next state, whether it is a command or is rejected. -/
theorem runWord_answers (w : CommandWord) (s : State) : ∃ t, runWord w s = .next t := by
  unfold runWord
  split
  · next i _ =>
    obtain ⟨r, hr⟩ := exec_eq_complete i s
    exact hr ▸ complete_answers s r
  · exact complete_answers s _

/-- Settles O10: a step is idle, runs a word or resets, and each of them answers. -/
theorem everyStepAnswers : Obligations.EveryStepAnswers := by
  unfold Obligations.EveryStepAnswers
  intro s
  unfold step
  split
  · exact ⟨_, rfl⟩
  · exact runWord_answers _ _
  · exact ⟨_, rfl⟩
  · exact ⟨_, rfl⟩

/-! ### STATUS (10_state.md R25) -/

/-- Bit k of STATUS, field by field. -/
theorem State.status_getLsbD (s : State) (k : Nat) :
    s.status.getLsbD k =
      if k < 4 then (errCode s.err).getLsbD k
      else if k = 4 then s.sticky
      else if k = 5 then s.cfgValid
      else if k = 6 then s.ready
      else if k = 7 then false
      else if k < 11 then s.phase.code.getLsbD (k - 8)
      else false := by
  simp only [State.status, BitVec.getLsbD_append, BitVec.getLsbD_ofBool, BitVec.getLsbD_zero]
  match k with
  | 0 | 1 | 2 | 3 | 4 | 5 | 6 | 7 | 8 | 9 | 10 | _ + 11 => rfl

/-- Settles O24: the codes are listed, and each field of STATUS is read off its bits. -/
theorem statusFieldsStandAtTheirBits : Obligations.StatusFieldsStandAtTheirBits := by
  unfold Obligations.StatusFieldsStandAtTheirBits
  refine ⟨rfl, by decide, by decide, fun s => ⟨?err, s.status_getLsbD 4, s.status_getLsbD 5, ?ready, s.status_getLsbD 7,
    ?phase, fun k hk => ?high⟩⟩
  case err =>
    refine BitVec.eq_of_getLsbD_eq fun k hk => ?_
    rw [BitVec.getLsbD_extractLsb', decide_eq_true hk, Bool.true_and, Nat.zero_add, s.status_getLsbD, if_pos hk]
  case ready =>
    rw [show s.status.getLsbD 6 = s.ready from s.status_getLsbD 6, State.ready, decide_eq_true_eq]
  case phase =>
    refine BitVec.eq_of_getLsbD_eq fun k hk => ?_
    rw [BitVec.getLsbD_extractLsb', decide_eq_true hk, Bool.true_and]
    interval_cases k
    exacts [s.status_getLsbD 8, s.status_getLsbD 9, s.status_getLsbD 10]
  case high =>
    obtain ⟨j, rfl⟩ := Nat.exists_eq_add_of_le' hk
    exact s.status_getLsbD (j + 11)

/-! ### The reset event (70_reset_and_hazards.md R300) -/

theorem step_of_reset {s : State} {w : CommandWord} {rest : List HostEvent}
    (h : s.port = .reset :: rest ∨ s.port = .resetDuring w :: rest) :
    step s = .next (State.afterReset { s with port := rest }) := by
  obtain h | h := h <;> rw [step, h]

/-- The registers after a reset event are those of the reset state: none of them shows the draw. -/
theorem State.afterReset_readReg (s : State) (n : Nat) : s.afterReset.readReg n = State.reset.readReg n := rfl

/-- Only GEN[0] is written after a reset event. -/
theorem State.afterReset_genByte {s : State} {k : Nat} (hk : 1 ≤ k) :
    s.afterReset.genByte k = Config.genDraw s.afterReset.draw k := by
  have hunwritten : s.afterReset.gen.read? k = none := if_neg (show ¬0 = k by omega)
  rw [State.genByte, hunwritten, Option.getD_none]

/-- Settles O8: either event leads to the reset state with another draw. -/
theorem resetEventRestoresResetState : Obligations.ResetEventRestoresResetState := by
  unfold Obligations.ResetEventRestoresResetState
  intro s rest w hport
  obtain ⟨hzero, hid, -⟩ := resetStateIsAsSpecified
  refine ⟨_, step_of_reset hport, fun n hn => (State.afterReset_readReg _ n).trans (hzero n hn),
    (State.afterReset_readReg _ 17).trans hid, rfl, fun k => State.afterReset_genByte, rfl, fun _ => rfl, fun _ => rfl,
    exec_mxRead_of_none rfl, Nat.succ_ne_self s.draw, rfl, rfl, rfl⟩

end Sys2Proof.Machine
end

section
/-! SUPPORT. No command reads the port: two runs of it from states that differ in the port alone end alike, so a queue of
words runs as a fold (70_reset_and_hazards.md R311, R312). -/

namespace Sys2Proof.Machine

/-- The state with other events at the port (20_memory.md R60). -/
def State.withPort (s : State) (q : List HostEvent) : State := { s with port := q }

section
variable (s : State) (q : List HostEvent)

@[simp] theorem State.withPort_bs : (s.withPort q).bs = s.bs := rfl
@[simp] theorem State.withPort_params : (s.withPort q).params = s.params := rfl
@[simp] theorem State.withPort_tables : (s.withPort q).tables = s.tables := rfl
@[simp] theorem State.withPort_readReg (n : Nat) : (s.withPort q).readReg n = s.readReg n := rfl

theorem State.stampFinder_withPort : (s.withPort q).stampFinder = s.stampFinder.withPort q := by
  simp only [State.stampFinder, State.withPort, State.sideN]

end

/-- Two runs of a part of a command, the second with `q` at the port: both raise the same error, or both succeed in states
that differ in the port alone. -/
inductive AlikeUpToPort (q : List HostEvent) : Except Raise State → Except Raise State → Prop
  | ok (u : State) : AlikeUpToPort q (.ok u) (.ok (u.withPort q))
  | error (e : Raise) : AlikeUpToPort q (.error e) (.error e)

namespace AlikeUpToPort

variable {q : List HostEvent} {r₁ r₂ r₁' r₂' : Except Raise State}

theorem ite {p : Prop} [Decidable p] (h : AlikeUpToPort q r₁ r₂) (h' : AlikeUpToPort q r₁' r₂') :
    AlikeUpToPort q (if p then r₁ else r₁') (if p then r₂ else r₂') := by
  split
  · exact h
  · exact h'

/-- A check in front of both runs. -/
theorem check {p : Prop} [Decidable p] {e : Raise} (h : AlikeUpToPort q r₁ r₂) :
    AlikeUpToPort q (if p then .error e else r₁) (if p then .error e else r₂) :=
  ite (.error e) h

/-- After a check or a computation with the same outcome in both runs, the rest of the command decides. -/
theorem after {α : Type} {x : Except Raise α} {f f' : α → Except Raise State} (h : ∀ a, AlikeUpToPort q (f a) (f' a)) :
    AlikeUpToPort q (x >>= f) (x >>= f') := by
  cases x with
  | ok a => exact h a
  | error e => exact .error e

theorem seq {f f' : State → Except Raise State} (h : AlikeUpToPort q r₁ r₂)
    (hf : ∀ a : State, AlikeUpToPort q (f a) (f' (a.withPort q))) : AlikeUpToPort q (r₁ >>= f) (r₂ >>= f') := by
  cases h with
  | ok u => exact hf u
  | error e => exact .error e

variable (q) (s : State)

theorem appendStream (v w : Nat) : AlikeUpToPort q (s.appendStream v w) ((s.withPort q).appendStream v w) :=
  after fun _ => .ok _

theorem allocGrid : AlikeUpToPort q s.allocGrid (s.withPort q).allocGrid := ite (.ok _) (.error _)

theorem stampFormat : AlikeUpToPort q s.stampFormat (s.withPort q).stampFormat := check (.ok _)

theorem placeCodewords (src count : Nat) :
    AlikeUpToPort q (s.placeCodewords src count) ((s.withPort q).placeCodewords src count) :=
  check (check (.ok _))

theorem assembleCodewords : AlikeUpToPort q s.assembleCodewords (s.withPort q).assembleCodewords :=
  check (check (after fun _ => .ok _))

theorem buildGrid : AlikeUpToPort q s.buildGrid (s.withPort q).buildGrid :=
  (allocGrid q s).seq fun a => (stampFormat q a.stampFinder.stampAlign.stampTiming).seq fun b =>
    placeCodewords q b 0 s.capTotal.toNat

end AlikeUpToPort

/-- Pseudocodes that run alike end alike, in success and in failure (60_exceptions.md R272, R273). -/
theorem complete_withPort {q : List HostEvent} {s t : State} {r r' : Except Raise State} (h : complete s r = .next t)
    (hr : AlikeUpToPort q r r') : complete (s.withPort q) r' = .next (t.withPort q) := by
  cases hr <;> cases h <;> rfl

/-- A command reads nothing at the port and leaves it alone. -/
theorem exec_withPort {i : Instr} {s t : State} (q : List HostEvent) (h : exec i s = .next t) :
    exec i (s.withPort q) = .next (t.withPort q) := by
  cases i
  case nop | cfgMask | clrSticky | bsClear | bsLen | gfMul | gfExp | rsGen | fmtEnc =>
    exact complete_withPort (s := s) (r := .ok _) h (.ok _)
  case cwWr | cwRd | plWr | plRd | plSetlen | genRd | maskEval => exact complete_withPort h (.check (.ok _))
  case bsStore | rsEnc => exact complete_withPort h (.check (.check (.ok _)))
  case cfgSet ecl ver =>
    refine complete_withPort h ?_
    rw [State.withPort_params, State.withPort_tables]
    cases cfgLookup s.params s.tables ver ecl
    · exact .error _
    · exact .ok _
  case regRead n =>
    refine complete_withPort h ?_
    rw [State.withPort_readReg]
    cases s.readReg n
    · exact .error _
    · exact .ok _
  case bsPutbit b =>
    rw [exec, execBsPutbit_eq] at h ⊢
    exact complete_withPort h (.appendStream q s _ _)
  case bsGet n =>
    refine complete_withPort h ?_
    rw [State.withPort_bs]
    cases s.bs[n]?
    · exact .error _
    · exact .ok _
  case gfLog a =>
    refine complete_withPort h ?_
    cases gfLog? a
    · exact .error _
    · exact .ok _
  case bsPut width value =>
    rw [exec] at h ⊢
    by_cases hwidth : width ≤ 32
    · rw [execBsPut_of_le hwidth] at h ⊢
      exact complete_withPort h (.appendStream q s _ _)
    · rw [execBsPut_of_gt (Nat.not_le.mp hwidth)] at h ⊢
      cases h; rfl
  case mxFinder =>
    refine complete_withPort h (.after fun _ => ?_)
    rw [s.stampFinder_withPort q]
    exact .ok _
  case mxAlign | mxTiming | mxSide => exact complete_withPort h (.after fun _ => .ok _)
  case mxRead => exact complete_withPort h (.check (.after fun _ => .ok _))
  case mxIsdark => exact complete_withPort h (.after fun _ => .after fun _ => .ok _)
  case mxAlloc => exact complete_withPort h (.allocGrid q s)
  case mxFormat => exact complete_withPort h (.after fun _ => .stampFormat q s)
  case mxPlace => exact complete_withPort h (.after fun _ => .placeCodewords q s _ _)
  case assemble => exact complete_withPort h ((AlikeUpToPort.assembleCodewords q s).seq fun _ => .ok _)
  case encode =>
    exact complete_withPort h ((AlikeUpToPort.assembleCodewords q s).seq fun a =>
      (AlikeUpToPort.buildGrid q a).seq fun _ => .ok _)

theorem runWord_withPort {w : CommandWord} {s t : State} (q : List HostEvent) (h : runWord w s = .next t) :
    runWord w (s.withPort q) = .next (t.withPort q) := by
  unfold runWord at h ⊢
  split at h
  · exact exec_withPort q h
  · exact complete_withPort h (.error _)

/-! ### The queue (R312) -/

theorem runWord_eq_afterWord (w : CommandWord) (s : State) : runWord w s = .next (afterWord s w) := by
  obtain ⟨t, ht⟩ := runWord_answers w s
  rw [afterWord, ht]

theorem afterWord_port (s : State) (w : CommandWord) : (afterWord s w).port = s.port :=
  congrArg Prod.fst (runWord_device (runWord_eq_afterWord w s))

/-- A step takes the first of the issued words and leaves the others waiting. -/
theorem step_issue {s : State} (hs : s.port = []) (w : CommandWord) (ws : List CommandWord) :
    step (s.issue (w :: ws)) = .next ((afterWord s w).issue ws) := by
  have hport : (s.issue (w :: ws)).port = .command w :: ws.map HostEvent.command := by simp [State.issue, hs]
  have hrest : (afterWord s w).issue ws = (afterWord s w).withPort (ws.map HostEvent.command) := by
    rw [State.issue, afterWord_port, hs, List.nil_append, State.withPort]
  rw [step_of_command hport, hrest]
  exact runWord_withPort (s := s) _ (runWord_eq_afterWord w s)

theorem State.issue_nil (s : State) : s.issue [] = s := by
  rw [State.issue, List.map_nil, List.append_nil]

theorem core_run_of_step {s t : State} (h : step s = .next t) (k : Nat) :
    Host.Core.run core (k + 1) s = Host.Core.run core k t := by
  simp only [Host.Core.run, core, h]

/-- Settles O9, by induction on the words. -/
theorem queueRunsAsFold : Obligations.QueueRunsAsFold := by
  unfold Obligations.QueueRunsAsFold
  intro ws s hs
  induction ws generalizing s with
  | nil => rw [State.issue_nil]; rfl
  | cons w ws ih =>
    rw [List.length_cons, core_run_of_step (step_issue hs w ws), ih _ ((afterWord_port s w).trans hs)]
    rfl

end Sys2Proof.Machine
end
